-- ==== Sys2Proof/Word.lean ====
section
/-! DEFINITION. The word types of LSBX: an 8-bit byte of the bus-master space and of an image channel
(00_scope.md R7), and the 32-bit register word and bus-master address (R7: REG_W, ADDR_W). -/

namespace Sys2Proof

/-- One byte of the bus-master space, or one colour channel (R7: CHANNEL_BITS = 8). -/
abbrev Byte := BitVec 8

/-- One register (REG_W = 32), one command word (R140) or one bus-master address (ADDR_W = 32). -/
abbrev Word := BitVec 32

/-- The 256-bit key K as 32 bytes, byte 0 first (R7: KEY_BYTES). -/
abbrev Key := Vector Byte 32

/-- The 96-bit nonce as 12 bytes (R7: IV_BYTES). -/
abbrev Nonce := Vector Byte 12

/-- The 128-bit tag as 16 bytes (R7: TAG_BYTES). -/
abbrev Tag := Vector Byte 16

end Sys2Proof
end

