-- ==== Sys2Proof/Syntax.lean ====
section
/-! DEFINITION. What the host can say to the block: the five commands (30_encoding.md R143), the names of the
registers (10_state.md R32), one register-port access (40_host_interface.md R170), and the actions of the agents
around the block, in the order they happen (00_scope.md R16). -/

namespace Sys2Proof

/-- The commands of the opcode map (R143). No command has an operand field (R142). -/
inductive Instr where
  | capq
  | embed
  | extract
  | aeadEnc
  | aeadDec
  deriving DecidableEq, Repr, Inhabited

/-- The passes of H.phase (R74). -/
inductive Phase where
  | run
  | authPass
  | writePass
  deriving DecidableEq, Repr, Inhabited

/-- The AEAD primitives that AEAD_PRIM selects (R7, R35). The values 2 and 3 never occur (93 U19). -/
inductive AeadPrim where
  | aes256Gcm
  | chacha20Poly1305
  deriving DecidableEq, Repr, Inhabited

/-- The registers of the register map (R32). The reserved offsets have no name. -/
inductive Reg where
  | id
  | version
  | cfg
  | cmd
  | status
  | error
  | errAddr
  | intEn
  | intStatus
  | dim
  | imgBase
  | srcBase
  | dstBase
  | len
  | capBitsLo
  | capBitsHi
  | capBytes
  | progress
  | progCount
  | bitsDoneLo
  | bitsDoneHi
  | pixDone
  | outLen
  | key (i : Fin 8)
  | iv (i : Fin 3)
  | tag (i : Fin 4)
  deriving DecidableEq, Repr

/-- The size of a register-port access (R170, R173). -/
inductive AccessSize where
  | byte
  | half
  | word
  deriving DecidableEq, Repr

/-- One access at the register port: its size, its offset and, for a write, the data (R170). -/
inductive PortAccess where
  | read (size : AccessSize) (offset : BitVec 8)
  | write (size : AccessSize) (offset : BitVec 8) (data : Word)
  deriving DecidableEq, Repr

/-- What the register port answers (R171 to R173). A write's OKAY carries no data. An ERROR response reads as 0
(R173). -/
inductive PortResponse where
  | readOkay (data : Word)
  | writeOkay
  | error
  deriving DecidableEq, Repr

/-- Where a host access that falls in the same step as an engine step is ordered: wholly before or wholly after it
(R337, 93 U10). -/
inductive Order where
  | before
  | after
  deriving DecidableEq, Repr

/-- Addresses at which the memory responder answers ERROR (R7: MEM; 93 U3): `[base, base + size)`, for reads, for
writes or for both. -/
structure BusWindow where
  base    : Nat
  size    : Nat
  onRead  : Bool
  onWrite : Bool
  deriving DecidableEq, Repr

/-- One action of an agent around the block. The block's State holds the coming ones as a list (log 8). -/
inductive HostEvent where
  /-- The host does nothing: the engine has the step (R16). -/
  | engine
  /-- One register-port access between engine steps (R16). -/
  | access (a : PortAccess)
  /-- One register-port access in the same step as an engine step (R337). -/
  | coincide (a : PortAccess) (o : Order)
  /-- The pseudo-instruction `wait`: read STATUS until BUSY is 0 (R147). -/
  | wait
  /-- The host stores one byte in the bus-master space (R101, R120). -/
  | store (addr : Word) (v : Byte)
  /-- The responder's ERROR answers are these from now on (R7: MEM; 93 U3). -/
  | responder (ws : List BusWindow)
  /-- rst_n becomes 0 (R370). -/
  | resetAssert
  /-- rst_n becomes 1 (R370). -/
  | resetRelease
  deriving DecidableEq, Repr

end Sys2Proof
end

