-- ==== Sys2Proof/Config.lean ====
section
/-! DEFINITION. The parameters of 00_scope.md R7, the uninterpreted cipher functions (41_aead.md R201), and the free
values of what the spec leaves open (93_implementation_defined.md). A free value is an opaque constant applied to the
counter `State.free` (log 6): nothing constrains it. -/

namespace Sys2Proof

/-- The parameters of R7 that are OPEN, or stay named (HDR_LEN). State holds them; no step changes them (log 1). -/
structure Config where
  hasAead  : Bool
  aeadPrim : AeadPrim
  hdrLen   : Byte
  regBase  : Word
  deriving DecidableEq, Repr

/-- The defaults of R7: HAS_AEAD = 1, AEAD_PRIM = 0, HDR_LEN = 44. REG_BASE is OPEN: 0 is a DESIGN CHOICE on which no
rule depends (log 1), and so is its width (log 22). -/
def Config.default : Config :=
  { hasAead := true, aeadPrim := .aes256Gcm, hdrLen := 44, regBase := 0 }

/-- CHANNELS (R7): R, G and B. -/
abbrev Config.channels : Nat := 3

/-- KS(K, Nn, i), the keystream byte of the primitive (R201): uninterpreted (R202). -/
opaque Config.ks (prim : AeadPrim) (K : Key) (nonce : Nonce) (i : Nat) : Byte

/-- TAGF(K, Nn, C), the tag over the ciphertext (R201): uninterpreted, it may collide (R202, 93 U23). -/
opaque Config.tagF (prim : AeadPrim) (K : Key) (nonce : Nonce) (C : List Byte) : Tag

/-- The hidden state (10_state.md section 7): H.k, H.op, H.cur, H.acc, H.phase, H.ct (R70 to R75). -/
structure Hidden where
  k     : Nat
  op    : Instr
  cur   : Byte
  acc   : Byte
  phase : Phase
  ct    : List Byte
  deriving DecidableEq, Repr, Inhabited

/-- FREE VALUE. The hidden state once a command has ended (93 U8). -/
opaque Config.freeHidden (n : Nat) : Hidden

/-- FREE VALUE. Which byte the engine reads at `addr` when the host has stored there while BUSY = 1 (93 U4, U6), taken
modulo the number of candidates: 0 is the old byte. -/
opaque Config.raceRead (n : Nat) (addr : Nat) : Nat

/-- FREE VALUE. Whether the `i`-th racing host store is what a byte that the command writes holds in the end
(R375). -/
opaque Config.raceLands (n : Nat) (i : Nat) : Bool

/-- FREE VALUE. Whether the bus-master write in flight when reset asserts completes (93 U7). -/
opaque Config.inFlightLands (n : Nat) : Bool

end Sys2Proof
end

