-- ==== Sys2Proof/WellFormed.lean ====
section
/-! DEFINITION. Which commands exist in an instance of the block (30_encoding.md R143, "present when"; 41_aead.md
R200). A command has no operand that could be ill-formed (R142). -/

namespace Sys2Proof

/-- The commands of the AEAD kernel (R143). -/
def Instr.isAead : Instr → Bool
  | .capq => false
  | .embed => false
  | .extract => false
  | .aeadEnc => true
  | .aeadDec => true

/-- "Present when" of R143: the AEAD commands only when HAS_AEAD = 1. -/
def Instr.wellFormed (c : Config) (i : Instr) : Bool :=
  !i.isAead || c.hasAead

end Sys2Proof
end

