-- ==== Sys2Proof/Decode.lean ====
section
/-! DEFINITION. The decoder of command words (30_encoding.md R140 to R145), total, rejecting by name, and the encoder
written from the same opcode map. -/

namespace Sys2Proof

/-- Why a word is no command of the map (R145). -/
inductive Reject where
  /-- A command is exactly one 32-bit word (R140). -/
  | notOneWord
  /-- `v[31:8] ≠ 0`. -/
  | reservedBits
  /-- `v[7:0]` is not a listed OP. -/
  | reservedOp
  deriving DecidableEq, Repr

/-- The field OP, bits 7:0 (R141). -/
def cmdOp (v : Word) : Byte := v.extractLsb' 0 8

/-- The field RSV, bits 31:8 (R141). -/
def cmdRsv (v : Word) : BitVec 24 := v.extractLsb' 8 24

/-- The opcode map read from OP to mnemonic (R143). -/
def decodeOp (op : Byte) : Except Reject Instr :=
  match op with
  | 0x01#8 => .ok .capq
  | 0x02#8 => .ok .embed
  | 0x03#8 => .ok .extract
  | 0x10#8 => .ok .aeadEnc
  | 0x11#8 => .ok .aeadDec
  | _ => .error .reservedOp

/-- R144, but for the condition "present when", which the command's start checks and `legalWord` add. -/
def decode (v : Word) : Except Reject Instr :=
  if cmdRsv v = 0 then decodeOp (cmdOp v) else .error .reservedBits

/-- A word from the byte lanes of the host bus: lane 0 carries bits 7:0 (R112). A command is exactly one word (R140),
so any other number of bytes is rejected. -/
def decodeBytes (bs : List Byte) : Except Reject Instr :=
  match bs with
  | [b0, b1, b2, b3] => decode (b3 ++ b2 ++ b1 ++ b0)
  | _ => .error .notOneWord

/-- R144: a written word is legal iff it decodes and its "present when" condition holds. -/
def legalWord (c : Config) (v : Word) : Bool :=
  match decode v with
  | .ok i => i.wellFormed c
  | .error _ => false

/-- The opcode map read from mnemonic to OP (R143). -/
def opcode (i : Instr) : Byte :=
  match i with
  | .capq => 0x01
  | .embed => 0x02
  | .extract => 0x03
  | .aeadEnc => 0x10
  | .aeadDec => 0x11

/-- The CMD word of a command: RSV = 0, OP (R141, R143). -/
def encode (i : Instr) : Word := 0#24 ++ opcode i

/-- The byte lanes of a word, lane 0 first (R112). -/
def lanes (v : Word) : List Byte :=
  [v.extractLsb' 0 8, v.extractLsb' 8 8, v.extractLsb' 16 8, v.extractLsb' 24 8]

/-- The instruction whose table bits are `w`, the bits from `nbits` up being 0, laid out in byte lanes and given to the
decoder. A value of more than 32 bits is no command word (R140). -/
def decodeTableWord (nbits w : Nat) : Option Instr :=
  let v := w % 2 ^ nbits
  if v < 2 ^ 32 then (decodeBytes (lanes (BitVec.ofNat 32 v))).toOption else none

end Sys2Proof
end

