-- ==== Sys2Proof/Machine/State.lean ====
section
/-! DEFINITION. The state of LSBX (10_state.md), the memory it reaches (20_memory.md R100), and the state right after
reset (70_reset_and_hazards.md R371). Plain data. -/

namespace Sys2Proof.Machine

/-- The error codes of R331. The reserved codes 12 to 15 are never reported (93 U18) and have no name. -/
inductive ErrCode where
  | none
  | illegalCmd
  | dim
  | input
  | capacity
  | shortData
  | ivReuse
  | range
  | overlap
  | bus
  | auth
  | internal
  deriving DecidableEq, Repr

/-- The fields of STATUS (R37). The reserved bits read 0 and hold nothing. -/
structure Status where
  busy : Bool
  done : Bool
  err  : Bool
  fits : Bool
  ovr  : Bool
  ivu  : Bool
  deriving DecidableEq, Repr

/-- Three bits for the three interrupt sources (R340): the fields of INT_EN (R41) and of INT_STATUS (R42). -/
structure IntBits where
  done : Bool
  err  : Bool
  prog : Bool
  deriving DecidableEq, Repr

/-- The bytes of the bus-master space, as (address, byte) pairs in one canonical form: addresses strictly rising and
below 2^32, and no pair for a byte that an unlisted address reads as (log 3). -/
abbrev Memory := List Host.Cell

/-- Why the machine stops. -/
inductive Fault where
  /-- Raised by an engine step of a command that has none in its phase: CAPQ (R178), or AEAD_DEC in phase RUN (R208).
  The spec gives no such step, and no run from reset reaches one. Safe (log 16). -/
  | noEngineStep
  deriving DecidableEq, Repr

/-- Why an instruction has no meaning. -/
inductive Refusal where
  /-- Raised by an arm of exec whose instruction has no meaning yet; none is left in this model. Safe. -/
  | notModelled (mnemonic : String)
  deriving DecidableEq, Repr

/-- Everything the spec gives the machine, the memory and the responder it reaches, the coming actions of the agents
around it, and the model's own `racing` and `free`. -/
structure State where
  /-- The parameters (R7). -/
  cfg       : Config
  /-- STATUS (R37). -/
  status    : Status
  /-- ERROR.CODE (R39). -/
  error     : ErrCode
  /-- ERR_ADDR (R40). -/
  errAddr   : Word
  /-- INT_EN (R41). -/
  intEn     : IntBits
  /-- INT_STATUS (R42). -/
  intStatus : IntBits
  /-- DIM (R43). -/
  dim       : Word
  /-- IMG_BASE (R44). -/
  imgBase   : Word
  /-- SRC_BASE (R45). -/
  srcBase   : Word
  /-- DST_BASE (R46). -/
  dstBase   : Word
  /-- LEN (R47). -/
  len       : Word
  /-- CAP_BITS_HI and CAP_BITS_LO together (R48). -/
  capBits   : BitVec 34
  /-- CAP_BYTES (R49). -/
  capBytes  : Word
  /-- PROGRESS (R50). -/
  progress  : BitVec 7
  /-- PROG_COUNT (R51). -/
  progCount : BitVec 8
  /-- BITS_DONE_HI and BITS_DONE_LO together (R52). -/
  bitsDone  : BitVec 34
  /-- PIX_DONE (R53). -/
  pixDone   : Word
  /-- OUT_LEN (R54). -/
  outLen    : Word
  /-- KEY0 to KEY7 (R55). -/
  key       : Vector Word 8
  /-- IV0 to IV2 (R56). -/
  iv        : Vector Word 3
  /-- TAG0 to TAG3 (R57). -/
  tag       : Vector Word 4
  /-- The hidden state (R70 to R75). -/
  hid       : Hidden
  /-- The level of rst_n (R370). -/
  rstN      : Bool
  /-- The register-port response of the last step, if it had an access (R170). -/
  resp      : Option PortResponse
  /-- The progress-port transfers of the last step, oldest first (R170, R183). -/
  prog      : List (BitVec 7)
  /-- The bus-master memory (R61, R100). -/
  mem       : Memory
  /-- Where the responder answers ERROR (R7: MEM). -/
  windows   : List BusWindow
  /-- The coming actions of the host and the platform, next one first (log 8). -/
  inbox     : List HostEvent
  /-- MODEL. Host stores to bytes of the running command's regions, oldest first (log 10). -/
  racing    : List Host.Cell
  /-- MODEL. The counter that makes each free value fresh (log 6). -/
  free      : Nat
  deriving DecidableEq, Repr

/-- STATUS = 0 (R371). -/
def Status.zero : Status :=
  { busy := false, done := false, err := false, fits := false, ovr := false, ivu := false }

/-- INT_EN = 0, INT_STATUS = 0 (R371). -/
def IntBits.zero : IntBits := { done := false, err := false, prog := false }

/-- The hidden state at reset: unspecified (R371), so these are named values, a DESIGN CHOICE (log 5). -/
def hiddenReset : Hidden :=
  { k := 0, op := .capq, cur := 0, acc := 0, phase := .run, ct := [] }

/-- Every register at its reset value (R371), reset released, for an instance with parameters `c`. -/
def State.resetOf (c : Config) : State :=
  { cfg := c
    status := Status.zero
    error := .none
    errAddr := 0
    intEn := IntBits.zero
    intStatus := IntBits.zero
    dim := 0
    imgBase := 0
    srcBase := 0
    dstBase := 0
    len := 0
    capBits := 0
    capBytes := 0
    progress := 0
    progCount := 0
    bitsDone := 0
    pixDone := 0
    outLen := 0
    key := Vector.replicate 8 0
    iv := Vector.replicate 3 0
    tag := Vector.replicate 4 0
    hid := hiddenReset
    rstN := true
    resp := none
    prog := []
    mem := []
    windows := []
    inbox := []
    racing := []
    free := 0 }

/-- The machine right after reset, with the default parameters of R7. -/
def State.reset : State := State.resetOf Config.default

end Sys2Proof.Machine
end

