-- ==== Sys2Proof/Machine/BitPacker.lean ====
section
/-! DEFINITION. The bit packer (43_bitpacker.md R250 to R254): bytes to bits and back, most-significant bit first, and
the single-bit forms that EMBED and EXTRACT apply on the fly (R254). -/

namespace Sys2Proof.Machine

/-- The bits of one byte, bit 7 first (R110, R251). -/
def byteBits (b : Byte) : List Bool :=
  [b.getLsbD 7, b.getLsbD 6, b.getLsbD 5, b.getLsbD 4, b.getLsbD 3, b.getLsbD 2, b.getLsbD 1, b.getLsbD 0]

/-- bytesToBits (R250, R251). -/
def bits (s : List Byte) : List Bool := s.flatMap byteBits

/-- One byte from eight bits: the sum of `b_i * 2^(7 - i)` (R252). -/
def byteOfBits (b0 b1 b2 b3 b4 b5 b6 b7 : Bool) : Byte :=
  BitVec.ofBool b0 ++ BitVec.ofBool b1 ++ BitVec.ofBool b2 ++ BitVec.ofBool b3
    ++ BitVec.ofBool b4 ++ BitVec.ofBool b5 ++ BitVec.ofBool b6 ++ BitVec.ofBool b7

/-- bitsToBytes (R252): eight bits at a time; a remainder of fewer than eight bits is discarded. -/
def bytes (b : List Bool) : List Byte :=
  match b with
  | b0 :: b1 :: b2 :: b3 :: b4 :: b5 :: b6 :: b7 :: rest => byteOfBits b0 b1 b2 b3 b4 b5 b6 b7 :: bytes rest
  | _ => []

/-- Bit `k mod 8` of the byte sequence's current byte, most-significant first: `cur[7 - (k mod 8)]` (R272). -/
def currentBit (cur : Byte) (k : Nat) : Bool := cur.getLsbD (7 - k % 8)

/-- The channel byte with its least-significant bit replaced: `(old & 0xFE) | bit` (R274). -/
def withLsb (old : Byte) (bit : Bool) : Byte := (old &&& 0xFE#8) ||| (BitVec.ofBool bit).setWidth 8

/-- The least-significant bit of a channel byte (R106). -/
def lsb (b : Byte) : Bool := b.getLsbD 0

/-- H.acc after the read of channel `k` (R302): a new byte starts at each `k` with `k mod 8 = 0`. -/
def shiftIn (acc : Byte) (k : Nat) (bit : Bool) : Byte :=
  if k % 8 = 0 then (BitVec.ofBool bit).setWidth 8 else (acc <<< 1) ||| (BitVec.ofBool bit).setWidth 8

end Sys2Proof.Machine
end

