-- ==== Sys2Proof/Machine/Flags.lean ====
section
/-! DEFINITION. The flags of the block (10_state.md R62): STATUS (R37), INT_EN and INT_STATUS (R41, R42) as the words
software reads, the error codes (60_exceptions.md R331) and the irq output (R60). -/

namespace Sys2Proof.Machine

/-- STATUS as a word: bit 0 BUSY, 1 DONE, 2 ERR, 3 FITS, 4 OVR, 5 IVU, the rest 0 (R37). -/
def statusWord (st : Status) : Word :=
  0#26 ++ BitVec.ofBool st.ivu ++ BitVec.ofBool st.ovr ++ BitVec.ofBool st.fits ++ BitVec.ofBool st.err
    ++ BitVec.ofBool st.done ++ BitVec.ofBool st.busy

/-- INT_EN or INT_STATUS as a word: bit 0 DONE, 1 ERR, 2 PROG, the rest 0 (R41, R42). -/
def intWord (b : IntBits) : Word :=
  0#29 ++ BitVec.ofBool b.prog ++ BitVec.ofBool b.err ++ BitVec.ofBool b.done

/-- INT_EN after a write of `v`: zext_32(v[2:0]) (R172). -/
def intOfWord (v : Word) : IntBits :=
  { done := v.getLsbD 0, err := v.getLsbD 1, prog := v.getLsbD 2 }

/-- INT_STATUS after a write of `v`: each bit written 1 is cleared (R172). -/
def intClear (b : IntBits) (v : Word) : IntBits :=
  { done := b.done && !v.getLsbD 0, err := b.err && !v.getLsbD 1, prog := b.prog && !v.getLsbD 2 }

/-- The code of an error, ERROR[3:0] (R331). -/
def errCode (e : ErrCode) : BitVec 4 :=
  match e with
  | .none => 0
  | .illegalCmd => 1
  | .dim => 2
  | .input => 3
  | .capacity => 4
  | .shortData => 5
  | .ivReuse => 6
  | .range => 7
  | .overlap => 8
  | .bus => 9
  | .auth => 10
  | .internal => 11

/-- ERROR as a word: bits 31:4 read 0 (R39). -/
def errorWord (e : ErrCode) : Word := 0#28 ++ errCode e

/-- The two bits of CFG.AEAD_PRIM (R35). -/
def primBits (p : AeadPrim) : BitVec 2 :=
  match p with
  | .aes256Gcm => 0
  | .chacha20Poly1305 => 1

/-- CFG as a word (R35): HAS_AEAD, AEAD_PRIM (0 when HAS_AEAD = 0), HDR_LEN, the rest 0. -/
def cfgWord (c : Config) : Word :=
  0#16 ++ c.hdrLen ++ 0#5 ++ (if c.hasAead then primBits c.aeadPrim else 0#2) ++ BitVec.ofBool c.hasAead

/-- The interrupt output, a level (R60). -/
def irq (s : State) : Bool :=
  (s.intStatus.done && s.intEn.done) || (s.intStatus.err && s.intEn.err) || (s.intStatus.prog && s.intEn.prog)

end Sys2Proof.Machine
end

