-- ==== Sys2Proof/Machine/Operands.lean ====
section
/-! DEFINITION. The operands of the commands, read from the operand registers (30_encoding.md R142, R149): sizes
(00_scope.md R8), addresses (20_memory.md R104, R105), regions and their checks (R107 to R109), and the cipher values
assembled from KEY, IV and TAG (R113, 41_aead.md R205). All arithmetic is exact (R9). -/

namespace Sys2Proof.Machine

/-- DIM.WIDTH, bits 15:0 (R43). -/
def width (s : State) : Nat := (s.dim.extractLsb' 0 16).toNat

/-- DIM.HEIGHT, bits 31:16 (R43). -/
def height (s : State) : Nat := (s.dim.extractLsb' 16 16).toNat

/-- N = WIDTH * HEIGHT (R8). -/
def pixels (s : State) : Nat := width s * height s

/-- CAPBITS = 3 * N, the number of channels of the image (R8, R230). -/
def capacityBits (s : State) : Nat := Config.channels * pixels s

/-- CAPBYTES = floor(CAPBITS / 8) (R8, R230). -/
def capacityBytes (s : State) : Nat := capacityBits s / 8

/-- LEN as a count. -/
def lenBytes (s : State) : Nat := s.len.toNat

/-- REQBITS = 8 * LEN (R8, R270). -/
def requiredBits (s : State) : Nat := 8 * lenBytes s

/-- FITS(LEN): 8 * LEN <= CAPBITS, exact (R231). -/
def fitsLen (s : State) : Bool := decide (requiredBits s ≤ capacityBits s)

/-- WIDTH = 0 or HEIGHT = 0, the condition of the error DIM (R335). -/
def dimIsZero (s : State) : Bool := width s == 0 || height s == 0

/-- The bus-master address of byte `i` of a region with base `base`. The address port has 32 bits (R170); no address
wraps once the range check has passed (R108). -/
def byteAddr (base : Word) (i : Nat) : Word := base + BitVec.ofNat 32 i

/-- A region `[base, base + size)` and whether its command writes it (R107). -/
structure Region where
  base    : Word
  size    : Nat
  written : Bool
  deriving DecidableEq, Repr

/-- inrange(base, n): `base + n - 1 <= 0xFFFF_FFFF`, exact (R108). -/
def inRange (base : Word) (n : Nat) : Bool := decide (base.toNat + n - 1 ≤ 0xFFFFFFFF)

/-- overlaps(a, n, b, m): `a < b + m` and `b < a + n` (R109). -/
def overlaps (a : Word) (n : Nat) (b : Word) (m : Nat) : Bool :=
  decide (a.toNat < b.toNat + m) && decide (b.toNat < a.toNat + n)

/-- The regions of each command (R107). -/
def regions (i : Instr) (s : State) : List Region :=
  match i with
  | .capq => []
  | .embed => [⟨s.imgBase, capacityBits s, true⟩, ⟨s.srcBase, lenBytes s, false⟩]
  | .extract => [⟨s.imgBase, capacityBits s, false⟩, ⟨s.dstBase, capacityBytes s, true⟩]
  | .aeadEnc => [⟨s.srcBase, lenBytes s, false⟩, ⟨s.dstBase, lenBytes s, true⟩]
  | .aeadDec => [⟨s.srcBase, lenBytes s, false⟩, ⟨s.dstBase, lenBytes s, true⟩]

/-- Address `a` lies in region `r`. -/
def Region.holds (r : Region) (a : Nat) : Bool := decide (r.base.toNat ≤ a) && decide (a < r.base.toNat + r.size)

/-- Address `a` lies in a region of command `i`. -/
def inRegions (i : Instr) (s : State) (a : Nat) : Bool := (regions i s).any (·.holds a)

/-- Address `a` lies in a region that command `i` writes. -/
def inWritten (i : Instr) (s : State) (a : Nat) : Bool := (regions i s).any fun r => r.written && r.holds a

/-- The two regions of an AEAD command overlap and are not exactly in place (R109). -/
def aeadOverlap (s : State) : Bool :=
  overlaps s.srcBase (lenBytes s) s.dstBase (lenBytes s) && s.srcBase != s.dstBase

/-- Byte `j` of a word, big-endian: bits `31 - 8j : 24 - 8j` (R113). -/
def wordByte (w : Word) (j : Nat) : Byte := w.extractLsb' (24 - 8 * j) 8

/-- A word from four bytes, the first in the top bits: `b0 << 24 | b1 << 16 | b2 << 8 | b3` (R205). -/
def wordOfBytes (b0 b1 b2 b3 : Byte) : Word := b0 ++ b1 ++ b2 ++ b3

/-- K from KEY0 to KEY7 (R205). -/
def keyBytes (s : State) : Key :=
  Vector.ofFn fun n : Fin 32 => wordByte (s.key[n.val / 4]'(by omega)) (n.val % 4)

/-- Nn from IV0 to IV2 (R205). -/
def nonceBytes (s : State) : Nonce :=
  Vector.ofFn fun n : Fin 12 => wordByte (s.iv[n.val / 4]'(by omega)) (n.val % 4)

/-- Texp from TAG0 to TAG3 (R205). -/
def tagBytes (s : State) : Tag :=
  Vector.ofFn fun n : Fin 16 => wordByte (s.tag[n.val / 4]'(by omega)) (n.val % 4)

/-- packTag(T): the words TAG0 to TAG3 of a tag (R205). -/
def packTag (t : Tag) : Vector Word 4 :=
  Vector.ofFn fun i : Fin 4 =>
    wordOfBytes (t[4 * i.val]'(by omega)) (t[4 * i.val + 1]'(by omega)) (t[4 * i.val + 2]'(by omega))
      (t[4 * i.val + 3]'(by omega))

end Sys2Proof.Machine
end

