-- ==== Sys2Proof/Machine/Ops.lean ====
section
/-! DEFINITION. The operations the commands share: memory, the bus master (00_scope.md R13), command start (40_host_interface.md
R176, R178), complete() (R180), fail() (R181), and what becomes of the open values when a command ends. fail() is how
this block takes an exception (60_exceptions.md R338); there is no return instruction (R339): the host acknowledges with
register writes. -/

namespace Sys2Proof.Machine

/-! ## Memory -/

/-- What an unlisted byte reads as: 0, a DESIGN CHOICE (log 3). -/
abbrev unlistedByte : Byte := 0

/-- The byte at address `a`. -/
def memRead (m : Memory) (a : Nat) : Byte :=
  match m with
  | [] => unlistedByte
  | (b, v) :: rest => if b = a then v else memRead rest a

/-- `m` with the pair of address `a` in front, unless the byte is what an unlisted one reads as. -/
def memCons (a : Nat) (v : Byte) (m : Memory) : Memory :=
  if v = unlistedByte then m else (a, v) :: m

/-- Memory with the byte at `a` replaced, kept in canonical form. -/
def memWrite (m : Memory) (a : Nat) (v : Byte) : Memory :=
  match m with
  | [] => memCons a v []
  | (b, w) :: rest =>
    if a < b then memCons a v ((b, w) :: rest)
    else if a = b then memCons a v rest
    else (b, w) :: memWrite rest a v

/-- The canonical form from address `lo` up: addresses strictly rising, in the 32-bit space (R100), no unlisted byte. -/
def memWfFrom (lo : Nat) (m : Memory) : Bool :=
  match m with
  | [] => true
  | (a, v) :: rest => decide (lo ≤ a) && decide (a < 2 ^ 32) && v != unlistedByte && memWfFrom (a + 1) rest

/-- Memory is in canonical form. -/
def Memory.wf (m : Memory) : Bool := memWfFrom 0 m

/-! ## The bus master -/

/-- The responder answers ERROR to a read of `a`. -/
def readErr (s : State) (a : Nat) : Bool :=
  s.windows.any fun w => w.onRead && decide (w.base ≤ a) && decide (a < w.base + w.size)

/-- The responder answers ERROR to a write of `a`. -/
def writeErr (s : State) (a : Nat) : Bool :=
  s.windows.any fun w => w.onWrite && decide (w.base ≤ a) && decide (a < w.base + w.size)

/-- The bytes the host has stored at `a` while BUSY = 1, oldest first. -/
def racingAt (s : State) (a : Nat) : List Byte :=
  (s.racing.filter fun c => c.1 == a).map Prod.snd

/-- The byte the engine reads at `a`: the byte in memory or, where the host has stored at `a` while BUSY = 1, that byte
or a byte stored, a free choice (93 U4). -/
def readByte (s : State) (a : Nat) : Byte :=
  let old := memRead s.mem a
  let news := racingAt s a
  if news.isEmpty then old
  else (old :: news).getD (Config.raceRead s.free a % (news.length + 1)) old

/-- MemRead(a, 1) (R13): `none` is a bus error. -/
def busRead (s : State) (a : Word) : Option Byte :=
  if readErr s a.toNat then none else some (readByte s a.toNat)

/-- MemWrite(a, 1, v) (R13): `none` is a bus error. -/
def busWrite (s : State) (a : Word) (v : Byte) : Option State :=
  if writeErr s a.toNat then none else some { s with mem := memWrite s.mem a.toNat v }

/-! ## Command start -/

/-- The clearing of R176. -/
def clearCommand (s : State) : State :=
  { s with
    status := { s.status with done := false, err := false }
    error := .none
    errAddr := 0
    progress := 0
    progCount := 0
    bitsDone := 0
    pixDone := 0
    outLen := 0
    hid := { s.hid with k := 0, phase := .run, ct := [] } }

/-- A command that passed its start checks begins: STATUS.BUSY <- 1 and H.op <- OP (R178). -/
def beginCommand (i : Instr) (s : State) : State :=
  { s with status := { s.status with busy := true }, hid := { s.hid with op := i } }

/-! ## The end of a command -/

/-- complete() (R180). -/
def complete (s : State) : State :=
  { s with
    status := { s.status with busy := false, done := true }
    intStatus := { s.intStatus with done := true } }

/-- fail(code) and fail(code, a) (R181). -/
def failAt (c : ErrCode) (a : Word) (s : State) : State :=
  { s with
    error := c
    errAddr := if c = .bus then a else 0
    progress := 0
    status := { s.status with busy := false, err := true }
    intStatus := { s.intStatus with err := true } }

/-- fail(code) of a code that carries no address (R181). -/
def fail (c : ErrCode) (s : State) : State := failAt c 0 s

/-- An illegal command word written while idle: the clearing, then fail(ILLEGAL_CMD) (R177, R179). -/
def illegalCommand (s : State) : State := fail .illegalCmd (clearCommand s)

/-- The racing host stores land in memory, oldest first. A store to a byte that command `i` writes may lose against the
command's write (R375), a free choice; every other one lands. -/
def landStores (i : Instr) (s : State) (cs : List Host.Cell) (n : Nat) (m : Memory) : Memory :=
  match cs with
  | [] => m
  | (a, v) :: rest =>
    let lands := !inWritten i s a || Config.raceLands s.free n
    landStores i s rest (n + 1) (if lands then memWrite m a v else m)

/-- The open values once a command has ended: its hidden state is unspecified (93 U8), and racing stores are in memory
(R121). -/
def endOfCommand (s : State) : State :=
  { s with
    hid := Config.freeHidden s.free
    mem := landStores s.hid.op s s.racing 0 s.mem
    racing := []
    free := s.free + 1 }

/-- The open values after a step that executed a command: fresh choices for the next step while racing stores stand. -/
def afterExec (s : State) : State :=
  if s.status.busy then
    if s.racing.isEmpty then s else { s with free := s.free + 1 }
  else endOfCommand s

/-- A host store (R101, R120): while BUSY = 1, a store to a byte of the command's regions is a race (93 U4). -/
def hostStore (a : Word) (v : Byte) (s : State) : State :=
  if s.status.busy && inRegions s.hid.op s a.toNat then { s with racing := s.racing ++ [(a.toNat, v)] }
  else { s with mem := memWrite s.mem a.toNat v }

end Sys2Proof.Machine
end

