-- ==== Sys2Proof/Machine/Aead.lean ====
section
/-! DEFINITION. The AEAD cipher kernel (41_aead.md): Enc and Dec over the uninterpreted KS and TAGF (R201), AEAD_ENC
(R206, R207) and AEAD_DEC (R208 to R210). -/

namespace Sys2Proof.Machine

/-- The ciphertext or plaintext bytes from index `i` on: each byte XOR its keystream byte (R201). -/
def xorKs (p : AeadPrim) (K : Key) (nn : Nonce) (i : Nat) (bs : List Byte) : List Byte :=
  match bs with
  | [] => []
  | b :: rest => (b ^^^ Config.ks p K nn i) :: xorKs p K nn (i + 1) rest

/-- Enc(K, Nn, P) = (C, T) (R201). -/
def aeadEncrypt (p : AeadPrim) (K : Key) (nn : Nonce) (P : List Byte) : List Byte × Tag :=
  let C := xorKs p K nn 0 P
  (C, Config.tagF p K nn C)

/-- Dec(K, Nn, C, T') (R201). -/
def aeadDecrypt (p : AeadPrim) (K : Key) (nn : Nonce) (C : List Byte) (T : Tag) : Option (List Byte) :=
  if Config.tagF p K nn C = T then some (xorKs p K nn 0 C) else none

/-- KS at byte `i` under the key and nonce of the registers (R205). -/
def ksByte (s : State) (i : Nat) : Byte := Config.ks s.cfg.aeadPrim (keyBytes s) (nonceBytes s) i

/-- TAGF over `C` under the key and nonce of the registers (R205). -/
def tagOf (s : State) (C : List Byte) : Tag := Config.tagF s.cfg.aeadPrim (keyBytes s) (nonceBytes s) C

/-- The checks of the addresses that both AEAD commands make last (R206, R208). -/
def aeadRegionCheck (s : State) : Option ErrCode :=
  if !inRange s.srcBase (lenBytes s) || !inRange s.dstBase (lenBytes s) then some .range
  else if aeadOverlap s then some .overlap
  else none

/-- The start checks of AEAD_ENC in the order of R335 (R206). -/
def aeadEncCheck (s : State) : Option ErrCode :=
  if !s.cfg.hasAead then some .illegalCmd
  else if lenBytes s = 0 then some .input
  else if s.status.ivu then some .ivReuse
  else aeadRegionCheck s

/-- AEAD_ENC in the command-start step (R206): STATUS.IVU is set when the checks pass (R207). -/
def aeadEncStart (s : State) : State :=
  let s1 := clearCommand s
  match aeadEncCheck s1 with
  | some c => fail c s1
  | none => beginCommand .aeadEnc { s1 with status := { s1.status with ivu := true } }

/-- The engine step of AEAD_ENC for byte `i` = H.k (R206). -/
def aeadEncStep (s : State) : State :=
  let i := s.hid.k
  let a := byteAddr s.srcBase i
  let d := byteAddr s.dstBase i
  match busRead s a with
  | none => failAt .bus a s
  | some b =>
    let c := b ^^^ ksByte s i
    match busWrite s d c with
    | none => failAt .bus d s
    | some s1 =>
      let ct := s.hid.ct ++ [c]
      let s2 := { s1 with hid := { s1.hid with ct := ct, k := i + 1 }, outLen := BitVec.ofNat 32 (i + 1) }
      if i + 1 = lenBytes s then complete { s2 with tag := packTag (tagOf s ct) } else s2

/-- AEAD_ENC: its start step when the block is idle, its engine step when it is busy (log 7). -/
def execAeadEnc (s : State) : Host.Outcome State Fault Refusal :=
  .next (if s.status.busy then aeadEncStep s else aeadEncStart s)

/-- The start checks of AEAD_DEC in the order of R335 (R208). -/
def aeadDecCheck (s : State) : Option ErrCode :=
  if !s.cfg.hasAead then some .illegalCmd
  else if lenBytes s = 0 then some .input
  else aeadRegionCheck s

/-- AEAD_DEC in the command-start step (R208). -/
def aeadDecStart (s : State) : State :=
  let s1 := clearCommand s
  match aeadDecCheck s1 with
  | some c => fail c s1
  | none => beginCommand .aeadDec { s1 with hid := { s1.hid with phase := .authPass } }

/-- The engine step of AEAD_DEC in AUTH_PASS for byte `i` = H.k (R208): read, and verify the tag after the last.
WRITE_PASS begins with no byte in H.ct, which holds those of the current pass (R75, log 23). -/
def aeadAuthStep (s : State) : State :=
  let i := s.hid.k
  let a := byteAddr s.srcBase i
  match busRead s a with
  | none => failAt .bus a s
  | some b =>
    let ct := s.hid.ct ++ [b]
    let s1 := { s with hid := { s.hid with ct := ct, k := i + 1 } }
    if i + 1 = lenBytes s then
      if tagOf s ct ≠ tagBytes s then fail .auth s1
      else { s1 with hid := { s1.hid with phase := .writePass, k := 0, ct := [] } }
    else s1

/-- The engine step of AEAD_DEC in WRITE_PASS for byte `i` = H.k (R208): read again, decrypt, write. H.ct
takes the byte read, as the ciphertext of the current pass (R75, log 23). -/
def aeadWriteStep (s : State) : State :=
  let i := s.hid.k
  let a := byteAddr s.srcBase i
  let d := byteAddr s.dstBase i
  match busRead s a with
  | none => failAt .bus a s
  | some b =>
    match busWrite s d (b ^^^ ksByte s i) with
    | none => failAt .bus d s
    | some s1 =>
      let ct := s.hid.ct ++ [b]
      let s2 := { s1 with hid := { s1.hid with ct := ct, k := i + 1 }, outLen := BitVec.ofNat 32 (i + 1) }
      if i + 1 = lenBytes s then complete s2 else s2

/-- AEAD_DEC: its start step when the block is idle, the engine step of its pass when it is busy (log 7). AEAD_DEC has
no step in phase RUN (log 16). -/
def execAeadDec (s : State) : Host.Outcome State Fault Refusal :=
  if s.status.busy then
    match s.hid.phase with
    | .run => .fault .noEngineStep
    | .authPass => .next (aeadAuthStep s)
    | .writePass => .next (aeadWriteStep s)
  else .next (aeadDecStart s)

end Sys2Proof.Machine
end

