-- ==== Sys2Proof/Machine/Capacity.lean ====
section
/-! DEFINITION. The capacity planner (42_capacity.md): the CAP_* and FITS computation that CAPQ, EMBED and EXTRACT share,
and the command CAPQ (R232). -/

namespace Sys2Proof.Machine

/-- CAP_BITS_LO, CAP_BITS_HI and CAP_BYTES, written at start from DIM, 0 when the DIM check fails (R48, R232). -/
def writeCapacity (s : State) : State :=
  if dimIsZero s then { s with capBits := 0, capBytes := 0 }
  else { s with capBits := BitVec.ofNat 34 (capacityBits s), capBytes := BitVec.ofNat 32 (capacityBytes s) }

/-- STATUS.FITS, written by CAPQ and EMBED, 0 when the DIM check fails (R232). -/
def writeFits (s : State) : State :=
  { s with status := { s.status with fits := !dimIsZero s && fitsLen s } }

/-- CAPQ in the command-start step (R232). -/
def capqStart (s : State) : State :=
  let s1 := writeFits (writeCapacity (clearCommand s))
  if dimIsZero s1 then fail .dim s1 else complete s1

/-- CAPQ: it runs whole in its start step, and STATUS.BUSY is never 1 for it (R178, R232). An engine step of CAPQ does
not exist (log 16). -/
def execCapq (s : State) : Host.Outcome State Fault Refusal :=
  if s.status.busy then .fault .noEngineStep else .next (capqStart s)

end Sys2Proof.Machine
end

