-- ==== Sys2Proof/Machine/Progress.lean ====
section
/-! DEFINITION. The progress policy shared by EMBED and EXTRACT (40_host_interface.md R182 to R184). -/

namespace Sys2Proof.Machine

/-- emit(v) (R183). -/
def emit (v : Nat) (s : State) : State :=
  { s with
    progress := BitVec.ofNat 7 v
    progCount := s.progCount + 1
    intStatus := { s.intStatus with prog := true }
    prog := s.prog ++ [BitVec.ofNat 7 v] }

/-- floor(100 * T / N), exact (R182). -/
def percent (t n : Nat) : Nat := 100 * t / n

/-- The pixel-completion check with T touched pixels (R182). -/
def pixelCheck (t : Nat) (s : State) : State :=
  let s1 := { s with pixDone := BitVec.ofNat 32 t }
  let pct := percent t (pixels s)
  if pct > s1.progress.toNat then emit pct s1 else s1

/-- The final emission (R184). -/
def finalEmission (s : State) : State :=
  if s.progress.toNat < 100 then emit 100 s else s

/-- The scan cursor of EMBED and EXTRACT and its mirror BITS_DONE (R52, R70). -/
def setCursor (k : Nat) (s : State) : State :=
  { s with hid := { s.hid with k := k }, bitsDone := BitVec.ofNat 34 k }

end Sys2Proof.Machine
end

