-- ==== Sys2Proof/Machine/Embed.lean ====
section
/-! DEFINITION. The LSB embedder EMBED (44_embed.md): its start checks (R271) and its engine step (R272). -/

namespace Sys2Proof.Machine

/-- The start checks of EMBED in the order of R335, on the operands: the first that fails, if any (R271). -/
def embedCheck (s : State) : Option ErrCode :=
  if dimIsZero s then some .dim
  else if lenBytes s = 0 then some .input
  else if !fitsLen s then some .capacity
  else if !inRange s.imgBase (capacityBits s) || !inRange s.srcBase (lenBytes s) then some .range
  else if overlaps s.imgBase (capacityBits s) s.srcBase (lenBytes s) then some .overlap
  else none

/-- EMBED in the command-start step (R176 to R178, R271). -/
def embedStart (s : State) : State :=
  let s1 := writeFits (writeCapacity (clearCommand s))
  match embedCheck s1 with
  | some c => fail c s1
  | none => beginCommand .embed s1

/-- H.cur at channel `k` (R272): read from the source at each `k` with `k mod 8 = 0`; `none` is a bus error. -/
def embedCur (k : Nat) (s : State) : Option Byte :=
  if k % 8 = 0 then busRead s (byteAddr s.srcBase (k / 8)) else some s.hid.cur

/-- The end of channel `k`'s step, after its accesses (R272): cursor, progress, and the command's end. -/
def embedTail (k : Nat) (s : State) : State :=
  let s1 := setCursor (k + 1) s
  let s2 := if (k + 1) % 3 = 0 ∨ k + 1 = requiredBits s then pixelCheck (k / 3 + 1) s1 else s1
  if k + 1 = requiredBits s then complete (finalEmission s2)
  else if k + 1 = capacityBits s then fail .internal s2
  else s2

/-- The engine step of EMBED for channel `k` = H.k (R272). -/
def embedStep (s : State) : State :=
  let k := s.hid.k
  let a := byteAddr s.imgBase k
  match embedCur k s with
  | none => failAt .bus (byteAddr s.srcBase (k / 8)) s
  | some cur =>
    let s1 := { s with hid := { s.hid with cur := cur } }
    match busRead s1 a with
    | none => failAt .bus a s1
    | some old =>
      match busWrite s1 a (withLsb old (currentBit cur k)) with
      | none => failAt .bus a s1
      | some s2 => embedTail k s2

/-- EMBED: its start step when the block is idle, its engine step when it is busy (log 7). -/
def execEmbed (s : State) : Host.Outcome State Fault Refusal :=
  .next (if s.status.busy then embedStep s else embedStart s)

end Sys2Proof.Machine
end

