-- ==== Sys2Proof/Machine/Extract.lean ====
section
/-! DEFINITION. The LSB extractor EXTRACT (45_extract.md): its start checks (R301) and its engine step (R302). -/

namespace Sys2Proof.Machine

/-- The start checks of EXTRACT in the order of R335 (R301). HDR_LEN + 1 is 45 in this hardware (R7). -/
def extractCheck (s : State) : Option ErrCode :=
  if dimIsZero s then some .dim
  else if capacityBytes s < s.cfg.hdrLen.toNat + 1 then some .shortData
  else if !inRange s.imgBase (capacityBits s) || !inRange s.dstBase (capacityBytes s) then some .range
  else if overlaps s.imgBase (capacityBits s) s.dstBase (capacityBytes s) then some .overlap
  else none

/-- EXTRACT in the command-start step (R176 to R178, R301). STATUS.FITS is not written (R235). -/
def extractStart (s : State) : State :=
  let s1 := writeCapacity (clearCommand s)
  match extractCheck s1 with
  | some c => fail c s1
  | none => beginCommand .extract s1

/-- The end of channel `k`'s step, after its accesses (R302): progress, and the command's end. -/
def extractTail (k : Nat) (s : State) : State :=
  let s1 := if (k + 1) % 3 = 0 then pixelCheck ((k + 1) / 3) s else s
  if k + 1 = capacityBits s then complete (finalEmission s1) else s1

/-- The engine step of EXTRACT for channel `k` = H.k (R302). -/
def extractStep (s : State) : State :=
  let k := s.hid.k
  let a := byteAddr s.imgBase k
  match busRead s a with
  | none => failAt .bus a s
  | some b =>
    let acc := shiftIn s.hid.acc k (lsb b)
    let s1 := setCursor (k + 1) { s with hid := { s.hid with acc := acc } }
    if (k + 1) % 8 = 0 then
      let j := (k + 1) / 8 - 1
      let d := byteAddr s.dstBase j
      match busWrite s1 d acc with
      | none => failAt .bus d s1
      | some s2 => extractTail k { s2 with outLen := BitVec.ofNat 32 (j + 1) }
    else extractTail k s1

/-- EXTRACT: its start step when the block is idle, its engine step when it is busy (log 7). -/
def execExtract (s : State) : Host.Outcome State Fault Refusal :=
  .next (if s.status.busy then extractStep s else extractStart s)

end Sys2Proof.Machine
end

