-- ==== Sys2Proof/Machine/Port.lean ====
section
/-! DEFINITION. The register port: the register map (10_state.md R32), reads (40_host_interface.md R171) and writes (R172 to
R175). The command issue of a CMD write is in Machine/Turn.lean. -/

namespace Sys2Proof.Machine

/-- The offset of each register (R32). -/
def regOffset (r : Reg) : BitVec 8 :=
  match r with
  | .id => 0x00
  | .version => 0x04
  | .cfg => 0x08
  | .cmd => 0x0C
  | .status => 0x10
  | .error => 0x14
  | .errAddr => 0x18
  | .intEn => 0x1C
  | .intStatus => 0x20
  | .dim => 0x24
  | .imgBase => 0x28
  | .srcBase => 0x2C
  | .dstBase => 0x30
  | .len => 0x34
  | .capBitsLo => 0x38
  | .capBitsHi => 0x3C
  | .capBytes => 0x40
  | .progress => 0x44
  | .progCount => 0x48
  | .bitsDoneLo => 0x4C
  | .bitsDoneHi => 0x50
  | .pixDone => 0x54
  | .outLen => 0x58
  | .key i => 0x60 + 4 * BitVec.ofNat 8 i.val
  | .iv i => 0x80 + 4 * BitVec.ofNat 8 i.val
  | .tag i => 0x90 + 4 * BitVec.ofNat 8 i.val

/-- The registers that are no member of a file of words, in the order of R32. -/
def plainRegs : List Reg :=
  [.id, .version, .cfg, .cmd, .status, .error, .errAddr, .intEn, .intStatus, .dim, .imgBase, .srcBase, .dstBase]
    ++ [.len, .capBitsLo, .capBitsHi, .capBytes, .progress, .progCount, .bitsDoneLo, .bitsDoneHi, .pixDone, .outLen]

/-- KEY0 to KEY7, IV0 to IV2 and TAG0 to TAG3. -/
def fileRegs : List Reg :=
  [.key 0, .key 1, .key 2, .key 3, .key 4, .key 5, .key 6, .key 7, .iv 0, .iv 1, .iv 2]
    ++ [.tag 0, .tag 1, .tag 2, .tag 3]

/-- Every register of the map (R32). -/
def allRegs : List Reg := plainRegs ++ fileRegs

/-- The register at an offset; `none` is a reserved offset (R58) or a misaligned one. -/
def regAt (o : BitVec 8) : Option Reg := allRegs.find? fun r => regOffset r == o

/-- The "lock" column of R32, but for CMD, whose write while busy is R175. -/
def locked (r : Reg) : Bool :=
  match r with
  | .dim | .imgBase | .srcBase | .dstBase | .len => true
  | .key _ | .iv _ | .tag _ => true
  | .id | .version | .cfg | .cmd | .status | .error | .errAddr | .intEn | .intStatus => false
  | .capBitsLo | .capBitsHi | .capBytes | .progress | .progCount => false
  | .bitsDoneLo | .bitsDoneHi | .pixDone | .outLen => false

/-- What a read of a register returns (R171): WO registers read 0 (R36, R55). -/
def readReg (r : Reg) (s : State) : Word :=
  match r with
  | .id => 0x4C534258
  | .version => 0x00010000
  | .cfg => cfgWord s.cfg
  | .cmd => 0
  | .status => statusWord s.status
  | .error => errorWord s.error
  | .errAddr => s.errAddr
  | .intEn => intWord s.intEn
  | .intStatus => intWord s.intStatus
  | .dim => s.dim
  | .imgBase => s.imgBase
  | .srcBase => s.srcBase
  | .dstBase => s.dstBase
  | .len => s.len
  | .capBitsLo => s.capBits.extractLsb' 0 32
  | .capBitsHi => 0#30 ++ s.capBits.extractLsb' 32 2
  | .capBytes => s.capBytes
  | .progress => 0#25 ++ s.progress
  | .progCount => 0#24 ++ s.progCount
  | .bitsDoneLo => s.bitsDone.extractLsb' 0 32
  | .bitsDoneHi => 0#30 ++ s.bitsDone.extractLsb' 32 2
  | .pixDone => s.pixDone
  | .outLen => s.outLen
  | .key _ => 0
  | .iv i => s.iv[i]
  | .tag i => s.tag[i]

/-- What a read of an offset returns: reserved offsets read 0 (R58). -/
def readOffset (o : BitVec 8) (s : State) : Word :=
  match regAt o with
  | some r => readReg r s
  | none => 0

/-- A dropped host write sets STATUS.OVR (R174, R175). -/
def setOvr (s : State) : State := { s with status := { s.status with ovr := true } }

/-- An accepted write to a KEYi or IVi clears STATUS.IVU (R55, R56, R172). -/
def clearIvu (s : State) : State := { s with status := { s.status with ivu := false } }

/-- The write of `v` to a register that is neither CMD nor locked at this moment (R172). Writes to RO registers have no
effect. -/
def writeReg (r : Reg) (v : Word) (s : State) : State :=
  match r with
  | .status => if v.getLsbD 4 then { s with status := { s.status with ovr := false } } else s
  | .intEn => { s with intEn := intOfWord v }
  | .intStatus => { s with intStatus := intClear s.intStatus v }
  | .dim => { s with dim := v }
  | .imgBase => { s with imgBase := v }
  | .srcBase => { s with srcBase := v }
  | .dstBase => { s with dstBase := v }
  | .len => { s with len := v }
  | .key i => clearIvu { s with key := s.key.set i v }
  | .iv i => clearIvu { s with iv := s.iv.set i v }
  | .tag i => { s with tag := s.tag.set i v }
  | .id | .version | .cfg | .cmd | .error | .errAddr => s
  | .capBitsLo | .capBitsHi | .capBytes | .progress | .progCount => s
  | .bitsDoneLo | .bitsDoneHi | .pixDone | .outLen => s

/-- A legal register write, but for a CMD write while idle (R172): reserved offsets ignore it (R58); while BUSY = 1 a
write to a locked register (R174) or to CMD (R175) is dropped and sets OVR. -/
def writeOffset (o : BitVec 8) (v : Word) (s : State) : State :=
  match regAt o with
  | none => s
  | some r => if s.status.busy && (locked r || r == .cmd) then setOvr s else writeReg r v s

/-- The read data of a response: 0 with the ERROR response to an improper access (R173). 0 with the ERROR response while
rst_n = 0 (R370), and with a write's OKAY, is a DESIGN CHOICE (log 24, log 14). -/
def responseData (r : PortResponse) : Word :=
  match r with
  | .readOkay v => v
  | .writeOkay => 0
  | .error => 0

/-- R173: a register-port access must be 32 bits wide at an offset that is a multiple of 4. -/
def accessProper (a : PortAccess) : Bool :=
  match a with
  | .read size o => size == .word && o.extractLsb' 0 2 == 0
  | .write size o _ => size == .word && o.extractLsb' 0 2 == 0

/-- The access is a legal write to INT_STATUS. -/
def accessClearsInt (a : PortAccess) : Bool :=
  match a with
  | .read _ _ => false
  | .write size o _ => size == .word && o == regOffset .intStatus

/-- The host's address of a register: REG_BASE + offset (R101). The spec gives REG_BASE and the host's address map no
width: 32 bits, and a sum modulo 2^32, are a DESIGN CHOICE (log 22). -/
def hostAddress (c : Config) (r : Reg) : Word := c.regBase + (regOffset r).setWidth 32

end Sys2Proof.Machine
end

