-- ==== Sys2Proof/Machine/Turn.lean ====
section
/-! DEFINITION. Whose turn it is and what it does (00_scope.md R16): the engine's step, the host's register accesses with
the issue of commands (40_host_interface.md R172, R176, R177), host stores (20_memory.md R120), and reset
(70_reset_and_hazards.md R370 to R372). Machine/Step.lean only calls `turn`. -/

namespace Sys2Proof.Machine

/-- Apply `f` to the next state, if there is one. -/
def mapNext (f : State → State) (o : Host.Outcome State Fault Refusal) : Host.Outcome State Fault Refusal :=
  match o with
  | .next s => .next (f s)
  | .fault r => .fault r
  | .refused r => .refused r

/-- Go on from the next state with `f`, if there is one. -/
def bindNext (f : State → Host.Outcome State Fault Refusal) (o : Host.Outcome State Fault Refusal) :
    Host.Outcome State Fault Refusal :=
  match o with
  | .next s => f s
  | .fault r => .fault r
  | .refused r => .refused r

/-- The engine's turn: the next step of the executing command (R71), nothing while idle (R102, R348) or while reset
holds (R370). -/
def engineTurn (s : State) : Host.Outcome State Fault Refusal :=
  if s.rstN && s.status.busy then mapNext afterExec (exec s.hid.op s) else .next s

/-- An accepted write of `v` to CMD: decode, and the command's start step, in one step (R176, R177). -/
def issue (v : Word) (s : State) : Host.Outcome State Fault Refusal :=
  match decode v with
  | .ok i => mapNext afterExec (exec i s)
  | .error _ => .next (afterExec (illegalCommand s))

/-- A register-port write of `v` to the legal offset `o` (R172), with its OKAY. -/
def portWrite (o : BitVec 8) (v : Word) (s : State) : Host.Outcome State Fault Refusal :=
  let s1 := { s with resp := some .writeOkay }
  if o = regOffset .cmd ∧ s.status.busy = false then issue v s1 else .next (writeOffset o v s1)

/-- One register-port access (R171 to R175). While rst_n = 0, and for an improper access, the response is ERROR and
nothing changes (R173, R370). -/
def portTurn (a : PortAccess) (s : State) : Host.Outcome State Fault Refusal :=
  if !s.rstN || !accessProper a then .next { s with resp := some .error }
  else
    match a with
    | .read _ o => .next { s with resp := some (.readOkay (readOffset o s)) }
    | .write _ o v => portWrite o v s

/-- A register-port access in the same step as an engine step (R337): wholly before or wholly after it. A clear of
INT_STATUS counts as before it, since a set by the engine in the same step wins (R42). With no command executing, the
access stands alone. -/
def coincideTurn (a : PortAccess) (o : Order) (s : State) : Host.Outcome State Fault Refusal :=
  if s.status.busy then
    match o, accessClearsInt a with
    | .before, _ => bindNext engineTurn (portTurn a s)
    | .after, true => bindNext engineTurn (portTurn a s)
    | .after, false => bindNext (portTurn a) (engineTurn s)
  else portTurn a s

/-- `wait` (R147): while BUSY = 1 the host reads STATUS and the engine has its step, and `wait` stays next. When BUSY = 0
the read of STATUS is its result. While rst_n = 0 that read gets the ERROR response, and `wait` ends on it: a DESIGN
CHOICE (log 24). -/
def waitTurn (s : State) : Host.Outcome State Fault Refusal :=
  let read := PortAccess.read .word (regOffset .status)
  if s.status.busy then bindNext engineTurn (portTurn read { s with inbox := .wait :: s.inbox })
  else portTurn read s

/-- Memory when reset asserts: the write of the engine step in flight lands or not, a free choice (93 U7), and memory
written stays (R372); racing host stores land as at a command's end. -/
def memoryAtReset (s : State) : Memory :=
  let m :=
    if s.status.busy && Config.inFlightLands s.free then
      match exec s.hid.op s with
      | .next t => t.mem
      | .fault _ => s.mem
      | .refused _ => s.mem
    else s.mem
  landStores s.hid.op s s.racing 0 m

/-- Every register at its reset value, the engine holding no command (R370, R371), with rst_n at `level`. -/
def resetRegisters (level : Bool) (s : State) : State :=
  { State.resetOf s.cfg with
    rstN := level
    mem := s.mem
    windows := s.windows
    inbox := s.inbox
    free := s.free + 1 }

/-- rst_n falls (R370, R372). -/
def assertReset (s : State) : State := { resetRegisters false s with mem := memoryAtReset s }

/-- rst_n rises after it was low (R370): the registers are at their reset values in this step too. A rise without a
fall is none. -/
def releaseReset (s : State) : State := if s.rstN then s else resetRegisters true s

/-- The step of one event, already taken off the inbox. -/
def eventTurn (e : HostEvent) (s : State) : Host.Outcome State Fault Refusal :=
  match e with
  | .engine => engineTurn s
  | .access a => portTurn a s
  | .coincide a o => coincideTurn a o s
  | .wait => waitTurn s
  | .store a v => .next (hostStore a v s)
  | .responder ws => .next { s with windows := ws }
  | .resetAssert => .next (assertReset s)
  | .resetRelease => .next (releaseReset s)

/-- The outputs of a step hold for that step: the response, and the one-cycle strobe prog_valid (R170). -/
def clearOutputs (s : State) : State := { s with resp := none, prog := [] }

/-- One step of the whole machine: the next coming event, or the engine when none is left (R189, log 8). -/
def turn (s : State) : Host.Outcome State Fault Refusal :=
  let s0 := clearOutputs s
  match s.inbox with
  | [] => engineTurn s0
  | e :: rest => eventTurn e { s0 with inbox := rest }

/-- The host action that writes the word `v` to CMD. -/
def cmdWrite (v : Word) : HostEvent := .access (.write .word (regOffset .cmd) v)

/-- `s` with a command word as the host's next action, in the conditions under which the block accepts it: idle and out
of reset (R172, R370). -/
def placeCommand (v : Word) (s : State) : State :=
  { s with status := { s.status with busy := false }, rstN := true, inbox := cmdWrite v :: s.inbox }

end Sys2Proof.Machine
end

