-- ==== Sys2Proof/Machine/Step.lean ====
section
/-! DEFINITION. One step of LSBX, and the placing of a command word where the next step takes it (log 9). -/

namespace Sys2Proof.Machine

/-- One step: a host access, a host or platform action, or one engine step (00_scope.md R16). -/
def step (s : State) : Host.Outcome State Fault Refusal := turn s

/-- `s` with the table word `w` as the host's next CMD write, so that the next step decodes and runs it. The block fetches
no instructions (20_memory.md R126): a command is the word the host writes to CMD (log 9). -/
def State.withFetchWord (s : State) (nbits w : Nat) : State :=
  placeCommand (BitVec.ofNat 32 (w % 2 ^ nbits)) s

end Sys2Proof.Machine
end

