-- ==== Sys2Proof/Machine/AesGcm.lean ====
section
/-! DEFINITION. The instantiation AEAD_PRIM = 0, AES-256-GCM (41_aead.md R203), as functions that a claim can name as a
premise (R202). The machine itself uses the uninterpreted KS and TAGF (R201). The block cipher and GHASH are not written
out in the spec: they are PRESUMED from FIPS 197 and NIST SP 800-38D (log 18), and tested against the spec's vector
(93 G4). -/

namespace Sys2Proof.Machine

/-- The substitution table of AES, sixteen bytes a row, the first byte of a row in its top bits. -/
def aesSboxRows : List (BitVec 128) :=
  [0x637c777bf26b6fc53001672bfed7ab76, 0xca82c97dfa5947f0add4a2af9ca472c0,
    0xb7fd9326363ff7cc34a5e5f171d83115, 0x04c723c31896059a071280e2eb27b275]
    ++ [0x09832c1a1b6e5aa0523bd6b329e32f84, 0x53d100ed20fcb15b6acbbe394a4c58cf,
    0xd0efaafb434d338545f9027f503c9fa8, 0x51a3408f929d38f5bcb6da2110fff3d2]
    ++ [0xcd0c13ec5f974417c4a77e3d645d1973, 0x60814fdc222a908846eeb814de5e0bdb,
    0xe0323a0a4906245cc2d3ac629195e479, 0xe7c8376d8dd54ea96c56f4ea657aae08]
    ++ [0xba78252e1ca6b4c6e8dd741f4bbd8b8a, 0x703eb5664803f60e613557b986c11d9e,
    0xe1f8981169d98e949b1e87e9ce5528df, 0x8ca1890dbfe6426841992d0fb054bb16]

/-- SubBytes of one byte: the row of its high digit, the column of its low digit. -/
def aesSbox (b : Byte) : Byte :=
  (aesSboxRows.getD (b.toNat / 16) 0).extractLsb' (8 * (15 - b.toNat % 16)) 8

/-- Multiplication by x in the field of AES. -/
def aesXtime (b : Byte) : Byte := if b.getLsbD 7 then (b <<< 1) ^^^ 0x1b else b <<< 1

/-- Bytewise exclusive-or. -/
def xorBytes (a b : List Byte) : List Byte := List.zipWith (· ^^^ ·) a b

/-- ShiftRows: byte `4c + r` of the block comes from column `c + r`. -/
def aesShiftRows (s : List Byte) : List Byte :=
  (List.range 16).map fun i => s.getD (4 * ((i / 4 + i % 4) % 4) + i % 4) 0

/-- MixColumns of one column. -/
def aesMixColumn (a b c d : Byte) : List Byte :=
  let t := a ^^^ b ^^^ c ^^^ d
  [a ^^^ t ^^^ aesXtime (a ^^^ b), b ^^^ t ^^^ aesXtime (b ^^^ c), c ^^^ t ^^^ aesXtime (c ^^^ d),
    d ^^^ t ^^^ aesXtime (d ^^^ a)]

/-- MixColumns, column by column. -/
def aesMixColumns (s : List Byte) : List Byte :=
  match s with
  | a :: b :: c :: d :: rest => aesMixColumn a b c d ++ aesMixColumns rest
  | _ => []

/-- The next word of the key schedule, from the words so far, the last one first. -/
def aesNextWord (i : Nat) (ws : List (List Byte)) : List Byte :=
  let last := ws.getD 0 []
  let t :=
    if i % 8 = 0 then xorBytes ((last.drop 1 ++ last.take 1).map aesSbox) [1#8 <<< (i / 8 - 1), 0, 0, 0]
    else if i % 8 = 4 then last.map aesSbox
    else last
  xorBytes (ws.getD 7 []) t

/-- `n` more words of the key schedule from word `i` on, the last one first. -/
def aesExpand (n i : Nat) (ws : List (List Byte)) : List (List Byte) :=
  match n with
  | 0 => ws
  | m + 1 => aesExpand m (i + 1) (aesNextWord i ws :: ws)

/-- The words of a key, the first one first. -/
def aesKeyWords (n : Nat) (bs : List Byte) : List (List Byte) :=
  match n with
  | 0 => []
  | m + 1 => bs.take 4 :: aesKeyWords m (bs.drop 4)

/-- The sixty words of the key schedule of AES-256 as one byte sequence. -/
def aesSchedule (K : Key) : List Byte :=
  ((aesExpand 52 8 (aesKeyWords 8 K.toList).reverse).reverse).flatten

/-- The middle rounds: substitute, shift, mix and add a round key, `n` times. -/
def aesRounds (n : Nat) (keys : List Byte) (s : List Byte) : List Byte × List Byte :=
  match n with
  | 0 => (keys, s)
  | m + 1 => aesRounds m (keys.drop 16) (xorBytes (aesMixColumns (aesShiftRows (s.map aesSbox))) (keys.take 16))

/-- E_K of one block: AES-256 with fourteen rounds, the last one without MixColumns. -/
def aesEncrypt (K : Key) (block : List Byte) : List Byte :=
  let keys := aesSchedule K
  let (last, s) := aesRounds 13 (keys.drop 16) (xorBytes block (keys.take 16))
  xorBytes (aesShiftRows (s.map aesSbox)) (last.take 16)

/-- `n` bytes of a number, big-endian: the spec's `[x]_32` and `[x]_64` (R203). -/
def beBytes (n x : Nat) : List Byte :=
  match n with
  | 0 => []
  | m + 1 => BitVec.ofNat 8 (x / 256 ^ m) :: beBytes m x

/-- KS of AES-256-GCM (R203): `byte (i mod 16) of E_K(Nn || [i div 16 + 2]_32)`. -/
def gcmKs (K : Key) (nn : Nonce) (i : Nat) : Byte :=
  (aesEncrypt K (nn.toList ++ beBytes 4 (i / 16 + 2))).getD (i % 16) 0

/-- One step of the product in GF(2^128) with GCM's bit order: `x` has `n` bits left, the top one first. -/
def ghashMulFrom (n : Nat) (x z v : BitVec 128) : BitVec 128 :=
  match n with
  | 0 => z
  | m + 1 =>
    let z' := if x.getLsbD m then z ^^^ v else z
    let v' := if v.getLsbD 0 then (v >>> 1) ^^^ (0xE1#128 <<< 120) else v >>> 1
    ghashMulFrom m x z' v'

/-- The product in GF(2^128) of GCM. -/
def ghashMul (x y : BitVec 128) : BitVec 128 := ghashMulFrom 128 x 0 y

/-- A block as a number, its first byte in the top bits. -/
def blockBits (bs : List Byte) : BitVec 128 :=
  bs.foldl (fun acc b => (acc <<< 8) ||| b.setWidth 128) 0

/-- GHASH_H of a byte sequence, `n` blocks of 16 bytes at most, from the value `y`. -/
def ghashFrom (n : Nat) (H y : BitVec 128) (bs : List Byte) : BitVec 128 :=
  match n with
  | 0 => y
  | m + 1 => if bs.isEmpty then y else ghashFrom m H (ghashMul (y ^^^ blockBits (bs.take 16)) H) (bs.drop 16)

/-- `n` zero bytes. -/
def zeroBytes (n : Nat) : List Byte := List.replicate n 0

/-- C padded with zero bytes to a multiple of 16 (R203, R204). -/
def padTo16 (C : List Byte) : List Byte := C ++ zeroBytes ((16 - C.length % 16) % 16)

/-- TAGF of AES-256-GCM (R203): `E_K(J0) ⊕ GHASH_H(C || 0^v || [0]_64 || [8 * |C|]_64)`. -/
def gcmTag (K : Key) (nn : Nonce) (C : List Byte) : Tag :=
  let H := blockBits (aesEncrypt K (zeroBytes 16))
  let data := padTo16 C ++ beBytes 8 0 ++ beBytes 8 (8 * C.length)
  let g := ghashFrom (data.length / 16) H 0 data
  let t := blockBits (aesEncrypt K (nn.toList ++ beBytes 4 1)) ^^^ g
  Vector.ofFn fun i : Fin 16 => t.extractLsb' (8 * (15 - i.val)) 8

end Sys2Proof.Machine
end

