-- ==== Sys2Proof/Machine/ChaChaPoly.lean ====
section
/-! DEFINITION. The instantiation AEAD_PRIM = 1, ChaCha20-Poly1305 (41_aead.md R204), as functions that a claim can name
as a premise (R202). The block function and the authenticator are not written out in the spec: they are PRESUMED from
RFC 8439 (log 18), and tested against the spec's vector (93 G8). -/

namespace Sys2Proof.Machine

/-- The quarter round on words `a`, `b`, `c`, `d`. -/
def chachaQuarter (a b c d : Word) : Word × Word × Word × Word :=
  let a := a + b
  let d := (d ^^^ a).rotateLeft 16
  let c := c + d
  let b := (b ^^^ c).rotateLeft 12
  let a := a + b
  let d := (d ^^^ a).rotateLeft 8
  let c := c + d
  let b := (b ^^^ c).rotateLeft 7
  (a, b, c, d)

/-- The quarter round at the positions `i`, `j`, `k`, `l` of a state of sixteen words. -/
def chachaAt (i j k l : Nat) (s : List Word) : List Word :=
  let (a, b, c, d) := chachaQuarter (s.getD i 0) (s.getD j 0) (s.getD k 0) (s.getD l 0)
  (((s.set i a).set j b).set k c).set l d

/-- A column round and a diagonal round. -/
def chachaDouble (s : List Word) : List Word :=
  let s := chachaAt 3 7 11 15 (chachaAt 2 6 10 14 (chachaAt 1 5 9 13 (chachaAt 0 4 8 12 s)))
  chachaAt 3 4 9 14 (chachaAt 2 7 8 13 (chachaAt 1 6 11 12 (chachaAt 0 5 10 15 s)))

/-- `n` double rounds. -/
def chachaRounds (n : Nat) (s : List Word) : List Word :=
  match n with
  | 0 => s
  | m + 1 => chachaRounds m (chachaDouble s)

/-- The words of a byte sequence, little-endian. -/
def leWords (bs : List Byte) : List Word :=
  match bs with
  | b0 :: b1 :: b2 :: b3 :: rest => (b3 ++ b2 ++ b1 ++ b0) :: leWords rest
  | _ => []

/-- The number of a byte sequence, little-endian. -/
def leNat (bs : List Byte) : Nat := bs.foldr (fun b acc => b.toNat + 256 * acc) 0

/-- `n` bytes of a number, little-endian: le64 is `leBytes 8` (R204). -/
def leBytes (n x : Nat) : List Byte :=
  match n with
  | 0 => []
  | m + 1 => BitVec.ofNat 8 x :: leBytes m (x / 256)

/-- ChaCha20_block(K, counter, Nn): 64 bytes. -/
def chachaBlock (K : Key) (counter : Nat) (nn : Nonce) : List Byte :=
  let init := [0x61707865#32, 0x3320646e#32, 0x79622d32#32, 0x6b206574#32] ++ leWords K.toList
    ++ [BitVec.ofNat 32 counter] ++ leWords nn.toList
  (List.zipWith (· + ·) (chachaRounds 10 init) init).flatMap fun w => leBytes 4 w.toNat

/-- KS of ChaCha20-Poly1305 (R204): `byte (i mod 64) of ChaCha20_block(K, counter = 1 + i div 64, Nn)`. -/
def chachaKs (K : Key) (nn : Nonce) (i : Nat) : Byte :=
  (chachaBlock K (1 + i / 64) nn).getD (i % 64) 0

/-- The prime of Poly1305. -/
def polyPrime : Nat := 2 ^ 130 - 5

/-- The accumulator of Poly1305 over blocks of 16 bytes, `n` of them at most, each with a byte 1 after it. -/
def polyFrom (n r acc : Nat) (bs : List Byte) : Nat :=
  match n with
  | 0 => acc
  | m + 1 =>
    if bs.isEmpty then acc
    else polyFrom m r ((acc + leNat (bs.take 16 ++ [1])) * r % polyPrime) (bs.drop 16)

/-- The mask that clears the bits of `r` that Poly1305 does not use. -/
def polyClamp : Nat := 0x0ffffffc0ffffffc0ffffffc0fffffff

/-- TAGF of ChaCha20-Poly1305 (R204): Poly1305 under the first 32 bytes of ChaCha20_block(K, 0, Nn), of
`C || z || le64(0) || le64(|C|)`. -/
def chachaTag (K : Key) (nn : Nonce) (C : List Byte) : Tag :=
  let otk := chachaBlock K 0 nn
  let r := leNat (otk.take 16) &&& polyClamp
  let s := leNat ((otk.drop 16).take 16)
  let data := padTo16 C ++ leBytes 8 0 ++ leBytes 8 C.length
  let t := polyFrom (data.length / 16) r 0 data + s
  Vector.ofFn fun i : Fin 16 => BitVec.ofNat 8 (t / 256 ^ i.val)

end Sys2Proof.Machine
end

