-- ==== Sys2Proof/Machine/Script.lean ====
section
/-! DEFINITION. Host scripts (30_encoding.md R146 to R148): the forms and the pseudo-instructions, expanded into the host's
actions, in order. -/

namespace Sys2Proof.Machine

/-- The operations of a host script (R146, R147). -/
inductive ScriptOp where
  | wr (r : Reg) (v : Word)
  | rd (r : Reg)
  | mem (a : Word) (bs : List Byte)
  | cmd (i : Instr)
  | dim (w h : Nat)
  | wait
  | ack
  | clrovr
  | setkey (k : Key)
  | setiv (n : Nonce)
  | settag (t : Tag)
  deriving DecidableEq, Repr

/-- `wr NAME, value` (R146). -/
def scriptWrite (r : Reg) (v : Word) : HostEvent := .access (.write .word (regOffset r) v)

/-- `rd NAME` (R146). -/
def scriptRead (r : Reg) : HostEvent := .access (.read .word (regOffset r))

/-- `mem a: b0 b1 …`: stores at a, a + 1, … (R146). A line that runs past 0xFFFF_FFFF goes on at address 0, where the spec
gives no address: a DESIGN CHOICE (log 25). -/
def scriptStores (a : Word) (bs : List Byte) : List HostEvent :=
  match bs with
  | [] => []
  | b :: rest => .store a b :: scriptStores (a + 1) rest

/-- Word `i` of a byte sequence, packed big-endian (R147, R113). -/
def packWord {n : Nat} (bs : Vector Byte n) (i : Nat) (h : 4 * i + 3 < n) : Word :=
  wordOfBytes bs[4 * i] bs[4 * i + 1] bs[4 * i + 2] bs[4 * i + 3]

/-- The expansion of each operation (R146, R147). `dim` with a width or height above 65535, which no field of DIM holds
(R43), takes each modulo 2^16: a DESIGN CHOICE (log 26). -/
def ScriptOp.expand (op : ScriptOp) : List HostEvent :=
  match op with
  | .wr r v => [scriptWrite r v]
  | .rd r => [scriptRead r]
  | .mem a bs => scriptStores a bs
  | .cmd i => [scriptWrite .cmd (encode i)]
  | .dim w h => [scriptWrite .dim (BitVec.ofNat 16 h ++ BitVec.ofNat 16 w)]
  | .wait => [.wait]
  | .ack => [scriptWrite .intStatus 0x7]
  | .clrovr => [scriptWrite .status 0x10]
  | .setkey k => (List.finRange 8).map fun i => scriptWrite (.key i) (packWord k i.val (by omega))
  | .setiv n => (List.finRange 3).map fun i => scriptWrite (.iv i) (packWord n i.val (by omega))
  | .settag t => (List.finRange 4).map fun i => scriptWrite (.tag i) (packWord t i.val (by omega))

/-- A script is its operations in order (R148). That the engine has no step between them but inside `wait`, where R16 and
93 U10 leave any interleaving, is a DESIGN CHOICE (log 27). -/
def scriptEvents (ops : List ScriptOp) : List HostEvent := ops.flatMap ScriptOp.expand

end Sys2Proof.Machine
end

