-- ==== Sys2Proof/Safety.lean ====
section
/-! DEFINITION. What claims about LSBX use: the invariant of every run, a quiet environment, runs of steps, and the
premises that name a cipher instantiation. -/

namespace Sys2Proof.Machine

/-- Every register, output and hidden element holds its reset value (R371). -/
def AtReset (s : State) : Prop :=
  s = { State.resetOf s.cfg with
        rstN := s.rstN, resp := s.resp, mem := s.mem, windows := s.windows, inbox := s.inbox, free := s.free }

/-- The counters of an executing scan at channel H.k, EMBED or EXTRACT (R52, R53, R182). -/
structure ScanCounters (s : State) : Prop where
  capBits  : s.capBits.toNat = capacityBits s
  bitsDone : s.bitsDone.toNat = s.hid.k
  pixDone  : s.pixDone.toNat = s.hid.k / 3
  progress : s.progress.toNat = percent (s.hid.k / 3) (pixels s)
  count    : s.progCount.toNat ≤ s.progress.toNat

/-- The counters that stay 0 in an AEAD command (R52, R53, R187). -/
structure NoScan (s : State) : Prop where
  bitsDone : s.bitsDone = 0
  pixDone  : s.pixDone = 0
  progress : s.progress = 0
  count    : s.progCount = 0

/-- An EMBED under way: its start checks hold and the cursor is inside the container (R271, R272). -/
structure EmbedRuns (s : State) : Prop where
  checks   : embedCheck s = none
  cursor   : s.hid.k < requiredBits s
  counters : ScanCounters s
  fits     : s.status.fits = true
  outLen   : s.outLen = 0

/-- An EXTRACT under way (R301, R302, R304). -/
structure ExtractRuns (s : State) : Prop where
  checks   : extractCheck s = none
  cursor   : s.hid.k < capacityBits s
  counters : ScanCounters s
  outLen   : s.outLen.toNat = s.hid.k / 8

/-- An AEAD_ENC under way (R206, R207). -/
structure AeadEncRuns (s : State) : Prop where
  present  : s.cfg.hasAead = true
  regions  : aeadRegionCheck s = none
  cursor   : s.hid.k < lenBytes s
  counters : NoScan s
  ivu      : s.status.ivu = true
  outLen   : s.outLen.toNat = s.hid.k
  ct       : s.hid.ct.length = s.hid.k

/-- An AEAD_DEC under way, in one of its two passes (R208); H.ct holds the bytes of that pass (R75). -/
structure AeadDecRuns (s : State) : Prop where
  checks   : aeadDecCheck s = none
  cursor   : s.hid.k < lenBytes s
  counters : NoScan s
  phase    : s.hid.phase ≠ .run
  ct       : s.hid.ct.length = s.hid.k
  auth     : s.hid.phase = .authPass → s.outLen = 0
  write    : s.hid.phase = .writePass → s.outLen.toNat = s.hid.k

/-- What holds of the command H.op while STATUS.BUSY = 1. CAPQ is never under way (R178). -/
def Running (s : State) : Prop :=
  match s.hid.op with
  | .capq => False
  | .embed => EmbedRuns s
  | .extract => ExtractRuns s
  | .aeadEnc => AeadEncRuns s
  | .aeadDec => AeadDecRuns s

/-- The invariant of LSBX. -/
structure Inv (s : State) : Prop where
  /-- Memory keeps its canonical form. -/
  memory    : Memory.wf s.mem = true
  /-- At most one of DONE and ERR is 1 (R37). -/
  oneEnd    : ¬(s.status.done = true ∧ s.status.err = true)
  /-- BUSY = 1 implies DONE = 0 and ERR = 0 (R37). -/
  busyFlags : s.status.busy = true → s.status.done = false ∧ s.status.err = false
  /-- ERROR holds a code exactly when the last command failed (R39). -/
  errorCode : s.error ≠ .none ↔ s.status.err = true
  /-- ERR_ADDR is 0 but for a bus error (R40). -/
  errAddr   : s.errAddr ≠ 0 → s.error = .bus
  /-- PROGRESS is at most 100 (R50). -/
  progress  : s.progress.toNat ≤ 100
  /-- PROG_COUNT is at most 100 (R51, R186). -/
  progCount : s.progCount.toNat ≤ 100
  /-- CAP_BYTES is floor(CAP_BITS / 8) (R49). -/
  capBytes  : s.capBytes.toNat = s.capBits.toNat / 8
  /-- Racing stores stand only while a command executes (R120). -/
  racing    : s.status.busy = false → s.racing = []
  /-- Racing stores are to addresses of the space (R100). -/
  raceAddr  : ∀ c ∈ s.racing, c.1 < 2 ^ 32
  /-- While rst_n = 0 every register holds its reset value (R370). -/
  reset     : s.rstN = false → AtReset s
  /-- A command executes only when its checks passed and its cursor is in range. -/
  running   : s.status.busy = true → Running s

/-- The machine after `n` steps, all of which answer a next state. -/
def StepsTo (n : Nat) (s t : State) : Prop := Host.Core.run Sys2Proof.core n s = .next t

/-- The host and the platform do nothing more. -/
def Quiet (s : State) : Prop := s.inbox = [] ∧ s.racing = []

/-- The responder answers OKAY to every read of `[base, base + n)`. -/
def ReadsOkay (s : State) (base : Word) (n : Nat) : Prop := ∀ i, i < n → readErr s (base.toNat + i) = false

/-- The responder answers OKAY to every write of `[base, base + n)`. -/
def WritesOkay (s : State) (base : Word) (n : Nat) : Prop := ∀ i, i < n → writeErr s (base.toNat + i) = false

/-- The values the progress port carries in `n` steps, oldest first (R183). -/
def emissions (n : Nat) (s : State) : List Nat :=
  match n with
  | 0 => []
  | m + 1 =>
    match step s with
    | .next t => t.prog.map BitVec.toNat ++ emissions m t
    | .fault _ => []
    | .refused _ => []

/-- The premise that the kernel is AES-256-GCM (R202, R203). -/
def KernelIsAesGcm : Prop :=
  (∀ K nn i, Config.ks .aes256Gcm K nn i = gcmKs K nn i) ∧ (∀ K nn C, Config.tagF .aes256Gcm K nn C = gcmTag K nn C)

/-- The premise that the kernel is ChaCha20-Poly1305 (R202, R204). -/
def KernelIsChaChaPoly : Prop :=
  (∀ K nn i, Config.ks .chacha20Poly1305 K nn i = chachaKs K nn i) ∧
  (∀ K nn C, Config.tagF .chacha20Poly1305 K nn C = chachaTag K nn C)

/-- Address `a` is in the region `[base, base + n)` (R107). -/
def Within (base : Word) (n a : Nat) : Prop := base.toNat ≤ a ∧ a < base.toNat + n

/-- Address `a` is in the region that command `i` writes (R107). -/
def WrittenBy (i : Instr) (s : State) (a : Nat) : Prop :=
  match i with
  | .capq => False
  | .embed => Within s.imgBase (3 * (width s * height s)) a
  | .extract => Within s.dstBase (3 * (width s * height s) / 8) a
  | .aeadEnc => Within s.dstBase (lenBytes s) a
  | .aeadDec => Within s.dstBase (lenBytes s) a

/-- Address `a` is in the region that command `i` only reads (R107). -/
def ReadBy (i : Instr) (s : State) (a : Nat) : Prop :=
  match i with
  | .capq => False
  | .embed => Within s.srcBase (lenBytes s) a
  | .extract => Within s.imgBase (3 * (width s * height s)) a
  | .aeadEnc => Within s.srcBase (lenBytes s) a
  | .aeadDec => Within s.srcBase (lenBytes s) a

/-- The state a register-port access leaves when its only effect is the response `r`. -/
def respond (r : PortResponse) (rest : List HostEvent) (s : State) : State :=
  { s with inbox := rest, resp := some r, prog := [] }

/-- What no command writes is the same in `s` and `t`: the parameters, the operand registers but for TAG, INT_EN,
STATUS.OVR, rst_n, the port's response, and the surroundings (R149, R338). -/
structure KeepsInputs (s t : State) : Prop where
  cfg     : t.cfg = s.cfg
  dim     : t.dim = s.dim
  imgBase : t.imgBase = s.imgBase
  srcBase : t.srcBase = s.srcBase
  dstBase : t.dstBase = s.dstBase
  len     : t.len = s.len
  key     : t.key = s.key
  iv      : t.iv = s.iv
  intEn   : t.intEn = s.intEn
  ovr     : t.status.ovr = s.status.ovr
  rstN    : t.rstN = s.rstN
  resp    : t.resp = s.resp
  windows : t.windows = s.windows
  inbox   : t.inbox = s.inbox
  racing  : t.racing = s.racing
  free    : t.free = s.free

/-- The operands with which EMBED passes its start checks (R271), as arithmetic. -/
structure EmbedReady (s : State) : Prop where
  wide     : width s ≠ 0
  high     : height s ≠ 0
  len      : lenBytes s ≠ 0
  capacity : 8 * lenBytes s ≤ 3 * (width s * height s)
  image    : s.imgBase.toNat + 3 * (width s * height s) ≤ 2 ^ 32
  source   : s.srcBase.toNat + lenBytes s ≤ 2 ^ 32
  apart    : s.imgBase.toNat + 3 * (width s * height s) ≤ s.srcBase.toNat ∨
    s.srcBase.toNat + lenBytes s ≤ s.imgBase.toNat

/-- The operands with which EXTRACT passes its start checks (R301), as arithmetic. -/
structure ExtractReady (s : State) : Prop where
  wide   : width s ≠ 0
  high   : height s ≠ 0
  long   : s.cfg.hdrLen.toNat + 1 ≤ 3 * (width s * height s) / 8
  image  : s.imgBase.toNat + 3 * (width s * height s) ≤ 2 ^ 32
  dest   : s.dstBase.toNat + 3 * (width s * height s) / 8 ≤ 2 ^ 32
  apart  : s.imgBase.toNat + 3 * (width s * height s) ≤ s.dstBase.toNat ∨
    s.dstBase.toNat + 3 * (width s * height s) / 8 ≤ s.imgBase.toNat

/-- The operands with which both AEAD commands pass the checks they share (R206, R208), as arithmetic. -/
structure AeadReady (s : State) : Prop where
  present : s.cfg.hasAead = true
  len     : lenBytes s ≠ 0
  source  : s.srcBase.toNat + lenBytes s ≤ 2 ^ 32
  dest    : s.dstBase.toNat + lenBytes s ≤ 2 ^ 32
  apart   : s.srcBase = s.dstBase ∨ s.srcBase.toNat + lenBytes s ≤ s.dstBase.toNat ∨
    s.dstBase.toNat + lenBytes s ≤ s.srcBase.toNat

/-- The state fail(code, a) leaves of `s` (R181), its hidden state being `h`. -/
def failedWith (c : ErrCode) (a : Word) (h : Hidden) (s : State) : State :=
  { s with
    error := c
    errAddr := a
    progress := 0
    status := { s.status with busy := false, err := true }
    intStatus := { s.intStatus with err := true }
    hid := h }

/-- The state the clearing of command start leaves of `s` (R176). -/
def startedFrom (s : State) : State :=
  { s with
    status := { s.status with done := false, err := false }
    error := .none
    errAddr := 0
    progress := 0
    progCount := 0
    bitsDone := 0
    pixDone := 0
    outLen := 0
    hid := { s.hid with k := 0, phase := .run, ct := [] } }

/-- The first code of a list of checks whose condition holds, NONE if none does (R335). -/
def firstFailing (checks : List (ErrCode × Bool)) : ErrCode :=
  match checks with
  | [] => .none
  | (c, failed) :: rest => if failed then c else firstFailing rest

/-- The region `[base, base + n)` passes the last address of the space (R108). -/
def wraps (base : Word) (n : Nat) : Bool := decide (2 ^ 32 < base.toNat + n)

/-- Two regions have a byte in common (R109). -/
def meet (a n b m : Nat) : Bool := decide (max a b < min (a + n) (b + m))

/-- Each command's checks with their codes, in the order of R335, on the operands. -/
def checksInOrder (i : Instr) (s : State) : List (ErrCode × Bool) :=
  let n := 3 * (width s * height s)
  let noDim := (ErrCode.dim, width s == 0 || height s == 0)
  let noLen := (ErrCode.input, lenBytes s == 0)
  let noAead := (ErrCode.illegalCmd, !s.cfg.hasAead)
  let aeadRange := (ErrCode.range, wraps s.srcBase (lenBytes s) || wraps s.dstBase (lenBytes s))
  let aeadMeet := (ErrCode.overlap,
    meet s.srcBase.toNat (lenBytes s) s.dstBase.toNat (lenBytes s) && s.srcBase != s.dstBase)
  match i with
  | .capq => [noDim]
  | .embed =>
    [noDim, noLen, (.capacity, decide (n < 8 * lenBytes s)),
      (.range, wraps s.imgBase n || wraps s.srcBase (lenBytes s)),
      (.overlap, meet s.imgBase.toNat n s.srcBase.toNat (lenBytes s))]
  | .extract =>
    [noDim, (.shortData, decide (n / 8 < s.cfg.hdrLen.toNat + 1)),
      (.range, wraps s.imgBase n || wraps s.dstBase (n / 8)),
      (.overlap, meet s.imgBase.toNat n s.dstBase.toNat (n / 8))]
  | .aeadEnc => [noAead, noLen, (.ivReuse, s.status.ivu), aeadRange, aeadMeet]
  | .aeadDec => [noAead, noLen, aeadRange, aeadMeet]

/-- How many engine steps the executing command can still take. -/
def workLeft (s : State) : Nat :=
  match s.hid.op, s.hid.phase with
  | .capq, _ => 0
  | .embed, _ => requiredBits s - s.hid.k
  | .extract, _ => capacityBits s - s.hid.k
  | .aeadEnc, _ => lenBytes s - s.hid.k
  | .aeadDec, .authPass => 2 * lenBytes s - s.hid.k
  | .aeadDec, _ => lenBytes s - s.hid.k

/-- The `n` bytes of memory from address `a` on. -/
def memBytes (m : Memory) (a n : Nat) : List Byte := (List.range n).map fun i => memRead m (a + i)

end Sys2Proof.Machine
end

