-- ==== Sys2Proof/Certificates/Slice0/Obligations.lean ====
section
/-! DEFINITION. The statements about LSBX for the provers. Each docstring names the rules of spec/ it formalises. -/

open Sys2Proof Sys2Proof.Machine

/-! ## Encoding (30_encoding.md) -/

/-- The five CMD words of the opcode map (R143) decode to their commands, and words the spec lists as illegal (R145, 95
P-a to P-c) are rejected by name. -/
def Obligations.CommandWordsDecode : Prop :=
  decode 0x00000001#32 = .ok .capq ∧ decode 0x00000002#32 = .ok .embed ∧ decode 0x00000003#32 = .ok .extract ∧
  decode 0x00000010#32 = .ok .aeadEnc ∧ decode 0x00000011#32 = .ok .aeadDec ∧
  decode 0x00000000#32 = .error .reservedOp ∧ decode 0x00000004#32 = .error .reservedOp ∧
  decode 0x00000102#32 = .error .reservedBits

/-- Decode and encode agree: each command decodes from its word, and no other word decodes to it (R140, R143, R144). -/
def Obligations.DecodeInvertsEncode : Prop :=
  (∀ i : Instr, decode (encode i) = .ok i) ∧ ∀ (v : Word) (i : Instr), decode v = .ok i → v = encode i

/-- The legal words are those with RSV = 0 and a listed, present OP (R144, R145), for every value of HAS_AEAD. -/
def Obligations.LegalWordsAreTheMap : Prop :=
  ∀ (c : Config) (v : Word),
    legalWord c v = true ↔
      v.toNat / 256 = 0 ∧
        (v.toNat % 256 ∈ [0x01, 0x02, 0x03] ∨ (v.toNat % 256 ∈ [0x10, 0x11] ∧ c.hasAead = true))

/-! ## Turns (00_scope.md R16, 40_host_interface.md section 3) -/

/-- A CMD write while idle runs the decoded command in the same step (R172, R176, R177): the step is exec of it, on the
state with the write taken and answered OKAY, followed by afterExec (HostStoresAndEndOfCommand says what that does). The same
for the word that withFetchWord places (log 9). That one function holds a command's start step and its engine step is
the model's choice (log 7). -/
def Obligations.StepRunsIssuedCommand : Prop :=
  (∀ (s : State) (v : Word) (i : Instr) (rest : List HostEvent),
    s.inbox = cmdWrite v :: rest → s.rstN = true → s.status.busy = false → decode v = .ok i →
      step s = mapNext afterExec (exec i (respond .writeOkay rest s))) ∧
  ∀ (s : State) (i : Instr),
    step (s.withFetchWord 32 (encode i).toNat) =
      mapNext afterExec (exec i
        (respond .writeOkay s.inbox { s with status := { s.status with busy := false }, rstN := true }))

/-- The engine's step of an executing command is exec of the latched command H.op (R71, R102), followed by afterExec:
when no action is left in the inbox (that the engine has the turn then is the model's choice, log 8), and when the next
one leaves the step to the engine. An access in the same step as an engine step falls wholly before or wholly after it,
in the order the inbox gives (R16, R337, 93 U10), but for a write to INT_STATUS, which counts as before it (R42, log 13);
the transfers of the engine's step stand. `wait` (R147) reads STATUS before the engine's step while BUSY = 1 and stays
next, and is one read while BUSY = 0: that each step while busy has one read and one engine step is the model's choice
(log 19), and so is that `wait` ends on the ERROR response while rst_n = 0, which the idle clause takes in (log 24,
unsafe). While idle the engine does nothing, no access and no register change (R348); only the outputs of the last step
end. -/
def Obligations.StepRunsLatchedCommand : Prop :=
  (∀ s : State, s.status.busy = true → s.rstN = true →
    (s.inbox = [] → step s = mapNext afterExec (exec s.hid.op { s with resp := none, prog := [] })) ∧
    (∀ rest, s.inbox = .engine :: rest →
      step s = mapNext afterExec (exec s.hid.op { s with inbox := rest, resp := none, prog := [] })) ∧
    (∀ a rest, s.inbox = .coincide a .before :: rest ∨
        (∃ v, a = .write .word 0x20 v) ∧ s.inbox = .coincide a .after :: rest →
      ∃ t, step { s with inbox := .access a :: rest } = .next t ∧ step s = mapNext afterExec (exec s.hid.op t)) ∧
    (∀ a rest t, s.inbox = .coincide a .after :: rest → (∀ v, a ≠ .write .word 0x20 v) →
      step { s with inbox := .engine :: rest } = .next t →
        ∃ u, step { t with inbox := .access a :: rest } = .next u ∧ step s = .next { u with prog := t.prog }) ∧
    (∀ rest, s.inbox = .wait :: rest →
      step s = step { s with inbox := .coincide (.read .word 0x10) .before :: .wait :: rest })) ∧
  ∀ s : State, s.status.busy = false →
    (s.inbox = [] → step s = .next { s with resp := none, prog := [] }) ∧
    (∀ rest, s.inbox = .engine :: rest → step s = .next { s with inbox := rest, resp := none, prog := [] }) ∧
    (∀ a o rest, s.inbox = .coincide a o :: rest → step s = step { s with inbox := .access a :: rest }) ∧
    (∀ rest, s.inbox = .wait :: rest → step s = step { s with inbox := .access (.read .word 0x10) :: rest })

/-- Host stores, and what afterExec, which a step adds around exec, can change. A store by the host is in memory at once
while BUSY = 0 and outside the running command's regions (R101, R120); a store into them is set aside (log 10), and the
engine's read of such a byte is the byte in memory or one of those stored (93 U4). afterExec changes the hidden state
once a command has ended (93 U8), the bytes of racing host stores, each of which then holds its byte or one stored, the
last one stored where the command does not write (the model's choice: log 10), and the model's own fields (log 6). With
no racing store, memory is exec's. -/
def Obligations.HostStoresAndEndOfCommand : Prop :=
  (∀ (s : State) (a : Word) (v : Byte) (rest : List HostEvent), s.inbox = .store a v :: rest →
    let t := { s with inbox := rest, resp := none, prog := [] }
    let inRegion := ReadBy s.hid.op s a.toNat ∨ WrittenBy s.hid.op s a.toNat
    (s.status.busy = true → inRegion → step s = .next { t with racing := s.racing ++ [(a.toNat, v)] }) ∧
    (s.status.busy = false ∨ ¬inRegion → Memory.wf s.mem = true →
      ∃ m, step s = .next { t with mem := m } ∧ ∀ x, memRead m x = if x = a.toNat then v else memRead s.mem x)) ∧
  (∀ (s : State) (a : Nat), readByte s a = memRead s.mem a ∨ (a, readByte s a) ∈ s.racing) ∧
  ∀ s : State,
    (∃ h m r n, afterExec s = { s with hid := h, mem := m, racing := r, free := n }) ∧
    (s.racing = [] → (afterExec s).mem = s.mem ∧ (afterExec s).racing = []) ∧
    (s.status.busy = true →
      (afterExec s).hid = s.hid ∧ (afterExec s).mem = s.mem ∧ (afterExec s).racing = s.racing) ∧
    (s.status.busy = false → (afterExec s).racing = []) ∧
    (∀ a, (∀ v, (a, v) ∉ s.racing) → memRead (afterExec s).mem a = memRead s.mem a) ∧
    (s.status.busy = false → Memory.wf s.mem = true → (∀ c ∈ s.racing, c.1 < 2 ^ 32) → ∀ a,
      (memRead (afterExec s).mem a = memRead s.mem a ∨ (a, memRead (afterExec s).mem a) ∈ s.racing) ∧
      ∀ v earlier later, s.racing = earlier ++ (a, v) :: later → (∀ w, (a, w) ∉ later) → ¬WrittenBy s.hid.op s a →
        memRead (afterExec s).mem a = v)

/-- R145: the illegal words, and what issuing one while idle does: ILLEGAL_CMD with no other effect. The premise on
racing stores is the invariant's (Inv.racing). -/
def Obligations.IllegalWordFails : Prop :=
  ∀ (s : State) (v : Word) (rest : List HostEvent),
    s.inbox = cmdWrite v :: rest → s.rstN = true → s.status.busy = false → s.racing = [] →
    (v.toNat / 256 ≠ 0 ∨ v.toNat % 256 = 0 ∨ (0x04 ≤ v.toNat % 256 ∧ v.toNat % 256 ≤ 0x0F) ∨ 0x12 ≤ v.toNat % 256 ∨
      (s.cfg.hasAead = false ∧ (v = 0x10 ∨ v = 0x11))) →
      ∃ h n, step s = .next { failedWith .illegalCmd 0 h (startedFrom (respond .writeOkay rest s)) with free := n }

/-! ## The register port (10_state.md, 40_host_interface.md section 2) -/

/-- R174 and R175: a write to DIM, IMG_BASE, SRC_BASE, DST_BASE, LEN, KEY0..7, IV0..2, TAG0..3 or CMD while BUSY = 1 is
dropped: it completes with OKAY, sets OVR and changes nothing else, and the command goes on. -/
def Obligations.LockedWriteWhileBusyDropped : Prop :=
  ∀ (s : State) (o : BitVec 8) (v : Word) (rest : List HostEvent),
    s.inbox = .access (.write .word o v) :: rest → s.rstN = true → s.status.busy = true →
    (o.toNat ∈ [0x24, 0x28, 0x2C, 0x30, 0x34] ∨ (∃ i : Fin 8, o.toNat = 0x60 + 4 * i.val) ∨
      (∃ i : Fin 3, o.toNat = 0x80 + 4 * i.val) ∨ (∃ i : Fin 4, o.toNat = 0x90 + 4 * i.val) ∨ o.toNat = 0x0C) →
      step s = .next { respond .writeOkay rest s with status := { s.status with ovr := true } }

/-- R173: an access that is not 32 bits wide, or whose offset is not a multiple of 4, gets an ERROR response with read
data 0 and changes no state. -/
def Obligations.ImproperAccessRefused : Prop :=
  responseData .error = 0 ∧
  ∀ (s : State) (size : AccessSize) (o : BitVec 8) (v : Word) (rest : List HostEvent),
    (size ≠ .word ∨ o.toNat % 4 ≠ 0) →
    (s.inbox = .access (.read size o) :: rest ∨ s.inbox = .access (.write size o v) :: rest) →
      step s = .next (respond .error rest s)

/-- The accepted register writes of R172, offset by offset (R32), but for CMD: what each one changes, and that it
changes nothing else. STATUS, INT_EN (R41) and INT_STATUS take a write whether or not BUSY = 1, and writes to read-only
and reserved offsets change nothing, OVR among them, whether or not BUSY = 1; the locked registers take one while idle
(LockedWriteWhileBusyDropped says what happens while BUSY = 1). -/
def Obligations.AcceptedRegisterWrites : Prop :=
  ∀ (s : State) (o : BitVec 8) (v : Word) (rest : List HostEvent),
    s.inbox = .access (.write .word o v) :: rest → s.rstN = true →
    let t := respond .writeOkay rest s
    (o = 0x10 → step s = .next (if v.getLsbD 4 then { t with status := { s.status with ovr := false } } else t)) ∧
    (o = 0x1C → step s = .next { t with intEn := ⟨v.getLsbD 0, v.getLsbD 1, v.getLsbD 2⟩ }) ∧
    (o = 0x20 → step s = .next { t with intStatus := ⟨s.intStatus.done && !v.getLsbD 0,
      s.intStatus.err && !v.getLsbD 1, s.intStatus.prog && !v.getLsbD 2⟩ }) ∧
    (o.toNat ∈ [0x00, 0x04, 0x08, 0x14, 0x18, 0x38, 0x3C, 0x40, 0x44, 0x48, 0x4C, 0x50, 0x54, 0x58, 0x5C, 0x8C] ∨
      (0xA0 ≤ o.toNat ∧ o.toNat % 4 = 0) → step s = .next t) ∧
    (s.status.busy = false →
      (o = 0x24 → step s = .next { t with dim := v }) ∧
      (o = 0x28 → step s = .next { t with imgBase := v }) ∧
      (o = 0x2C → step s = .next { t with srcBase := v }) ∧
      (o = 0x30 → step s = .next { t with dstBase := v }) ∧
      (o = 0x34 → step s = .next { t with len := v }) ∧
      (∀ i : Fin 8, o.toNat = 0x60 + 4 * i.val →
        step s = .next { t with key := s.key.set i v, status := { s.status with ivu := false } }) ∧
      (∀ i : Fin 3, o.toNat = 0x80 + 4 * i.val →
        step s = .next { t with iv := s.iv.set i v, status := { s.status with ivu := false } }) ∧
      (∀ i : Fin 4, o.toNat = 0x90 + 4 * i.val → step s = .next { t with tag := s.tag.set i v }))

/-- The register reads of R171, offset by offset (R32, R36 to R57), busy or idle: the value, bit by bit where the
register has fields, and that a read changes nothing. -/
def Obligations.RegisterReads : Prop :=
  ∀ (s : State) (o : BitVec 8) (rest : List HostEvent),
    s.inbox = .access (.read .word o) :: rest → s.rstN = true → o.toNat % 4 = 0 →
    ∃ w : Word, step s = .next (respond (.readOkay w) rest s) ∧
      (o = 0x0C → w = 0) ∧
      (o = 0x10 → w.toNat = s.status.busy.toNat + 2 * s.status.done.toNat + 4 * s.status.err.toNat +
        8 * s.status.fits.toNat + 16 * s.status.ovr.toNat + 32 * s.status.ivu.toNat) ∧
      (o = 0x14 → w.toNat = (errCode s.error).toNat ∧ w.toNat ≤ 11) ∧
      (o = 0x18 → w = s.errAddr) ∧
      (o = 0x1C → w.toNat = s.intEn.done.toNat + 2 * s.intEn.err.toNat + 4 * s.intEn.prog.toNat) ∧
      (o = 0x20 → w.toNat = s.intStatus.done.toNat + 2 * s.intStatus.err.toNat + 4 * s.intStatus.prog.toNat) ∧
      (o = 0x24 → w = s.dim) ∧ (o = 0x28 → w = s.imgBase) ∧ (o = 0x2C → w = s.srcBase) ∧
      (o = 0x30 → w = s.dstBase) ∧ (o = 0x34 → w = s.len) ∧
      (o = 0x38 → w.toNat = s.capBits.toNat % 2 ^ 32) ∧ (o = 0x3C → w.toNat = s.capBits.toNat / 2 ^ 32) ∧
      (o = 0x40 → w = s.capBytes) ∧ (o = 0x44 → w.toNat = s.progress.toNat) ∧
      (o = 0x48 → w.toNat = s.progCount.toNat) ∧ (o = 0x4C → w.toNat = s.bitsDone.toNat % 2 ^ 32) ∧
      (o = 0x50 → w.toNat = s.bitsDone.toNat / 2 ^ 32) ∧ (o = 0x54 → w = s.pixDone) ∧ (o = 0x58 → w = s.outLen) ∧
      (0x60 ≤ o.toNat ∧ o.toNat ≤ 0x7C → w = 0) ∧
      (∀ i : Fin 3, o.toNat = 0x80 + 4 * i.val → w = s.iv[i]) ∧
      (∀ i : Fin 4, o.toNat = 0x90 + 4 * i.val → w = s.tag[i])

/-- R33, R34, R35: ID, VERSION and CFG read their constants in every state, and no step changes the parameters CFG is
made of. -/
def Obligations.IdentityRegisters : Prop :=
  (∀ s : State, ∀ rest, s.rstN = true →
    (s.inbox = .access (.read .word 0x00) :: rest → step s = .next (respond (.readOkay 0x4C534258) rest s)) ∧
    (s.inbox = .access (.read .word 0x04) :: rest → step s = .next (respond (.readOkay 0x00010000) rest s)) ∧
    (s.inbox = .access (.read .word 0x08) :: rest →
      ∃ w : Word, step s = .next (respond (.readOkay w) rest s) ∧
        w.toNat = s.cfg.hasAead.toNat +
          (if s.cfg.hasAead = true ∧ s.cfg.aeadPrim = .chacha20Poly1305 then 2 else 0) + 256 * s.cfg.hdrLen.toNat ∧
        (s.cfg = Config.default → w = 0x00002C01))) ∧
  ∀ s t : State, step s = .next t → t.cfg = s.cfg

/-- R58: the reserved offsets 0x5C, 0x8C and 0xA0 to 0xFC read 0 and ignore writes, busy or idle: never OVR, never an
ERROR response. -/
def Obligations.ReservedOffsets : Prop :=
  ∀ (s : State) (o : BitVec 8) (v : Word) (rest : List HostEvent), s.rstN = true →
    (o = 0x5C ∨ o = 0x8C ∨ (0xA0 ≤ o.toNat ∧ o.toNat % 4 = 0)) →
    (s.inbox = .access (.read .word o) :: rest → step s = .next (respond (.readOkay 0) rest s)) ∧
    (s.inbox = .access (.write .word o v) :: rest → step s = .next (respond .writeOkay rest s))

/-- R38: a write to STATUS changes only OVR, which a 1 in bit 4 clears, whether or not BUSY = 1. -/
def Obligations.OvrIsOnlyWritableStatusBit : Prop :=
  ∀ (s : State) (v : Word) (rest : List HostEvent), s.rstN = true →
    s.inbox = .access (.write .word 0x10 v) :: rest →
      step s = .next { respond .writeOkay rest s with
        status := { s.status with ovr := s.status.ovr && !v.getLsbD 4 } }

/-- A clear of INT_STATUS in the same step as an engine step (R42, R337): whichever order the step gives them, each bit
ends as the bit after the clear, or 1 if the engine's step sets it. -/
def Obligations.IntStatusSetWins : Prop :=
  ∀ (s t : State) (v : Word) (o : Order) (rest : List HostEvent),
    s.status.busy = true → s.rstN = true → s.inbox = .coincide (.write .word 0x20 v) o :: rest →
    step { s with inbox := .engine :: rest, intStatus := IntBits.zero } = .next t →
      ∃ u, step s = .next u ∧
        u.intStatus.done = ((s.intStatus.done && !v.getLsbD 0) || t.intStatus.done) ∧
        u.intStatus.err = ((s.intStatus.err && !v.getLsbD 1) || t.intStatus.err) ∧
        u.intStatus.prog = ((s.intStatus.prog && !v.getLsbD 2) || t.intStatus.prog)

/-- R60: irq is a level, a function of the words that INT_STATUS and INT_EN read: 1 exactly when some bit is set in
both. -/
def Obligations.IrqIsLevel : Prop :=
  ∀ s : State, irq s = decide (readReg .intStatus s &&& readReg .intEn s ≠ 0)

/-- No register read shows the key (R55): a read of any offset, in two states that differ only in KEY, answers the same
data and leaves states that differ only in KEY. -/
def Obligations.KeyCannotBeReadBack : Prop :=
  ∀ (s : State) (k : Vector Word 8) (size : AccessSize) (o : BitVec 8) (rest : List HostEvent),
    s.inbox = .access (.read size o) :: rest →
      ∃ r, step s = .next (respond r rest s) ∧ step { s with key := k } = .next { respond r rest s with key := k }

/-- R207: AEAD_ENC sets IVU when it passes its start checks; an accepted write to a KEYi or IVi clears it, also one that
writes the old value again; AEAD_ENC with IVU = 1 fails with IV_REUSE, or with an earlier check's code, before any
access. -/
def Obligations.IvReuseGuard : Prop :=
  (∀ s t : State, s.status.busy = false → exec .aeadEnc s = .next t → t.status.busy = true →
    s.status.ivu = false ∧ t.status.ivu = true) ∧
  (∀ (s t : State) (o : BitVec 8) (v : Word) (rest : List HostEvent),
    s.inbox = .access (.write .word o v) :: rest → s.rstN = true → s.status.busy = false →
    ((∃ i : Fin 8, o.toNat = 0x60 + 4 * i.val) ∨ ∃ i : Fin 3, o.toNat = 0x80 + 4 * i.val) →
    step s = .next t → t.status.ivu = false) ∧
  ∀ s : State, s.status.busy = false → s.status.ivu = true →
    ∃ c h, exec .aeadEnc s = .next (failedWith c 0 h (startedFrom s)) ∧
      (s.cfg.hasAead = true → lenBytes s ≠ 0 → c = .ivReuse)

/-! ## Reset (70_reset_and_hazards.md) -/

/-- R371: asserting reset, in any state, leaves every register at its reset value: ID, VERSION and CFG their constants,
every other register 0, the key 0, irq 0, no progress transfer. Memory is not changed by reset (a command under way is
ResetDuringCommand). -/
def Obligations.ResetRegisters : Prop :=
  ∀ (s : State) (rest : List HostEvent), s.inbox = .resetAssert :: rest →
    ∃ t, step s = .next t ∧
      readReg .id t = 0x4C534258 ∧ readReg .version t = 0x00010000 ∧ readReg .cfg t = readReg .cfg s ∧
      (∀ r : Reg, r ≠ .id → r ≠ .version → r ≠ .cfg → readReg r t = 0) ∧
      t.key = Vector.replicate 8 0 ∧ irq t = false ∧ t.prog = [] ∧ t.rstN = false ∧ t.inbox = rest ∧
      (s.status.busy = false → s.racing = [] → t.mem = s.mem)

/-- While rst_n = 0 a register-port access gets an ERROR response and changes nothing, and the engine does nothing
(R370, 93 U16). The release leaves every register at its reset value, and memory unchanged (R370, R373); the
hidden values among them, and the data that an ERROR response reads as here, are the model's choice (log 5,
log 24). -/
def Obligations.ResetHeldThenReleased : Prop :=
  ∀ (s : State) (rest : List HostEvent), Inv s → s.rstN = false →
    (∀ a, s.inbox = .access a :: rest → step s = .next (respond .error rest s)) ∧
    (s.inbox = [] → step s = .next { s with resp := none, prog := [] }) ∧
    (s.inbox = .resetRelease :: rest →
      ∃ n, step s = .next { State.resetOf s.cfg with
        mem := s.mem, windows := s.windows, inbox := rest, free := n })

/-- Reset during a command (R372): the command is abandoned, with no DONE, no ERR, no interrupt pending and no
emission; memory is what it was or what the step in flight leaves (93 U7). -/
def Obligations.ResetDuringCommand : Prop :=
  ∀ (s : State) (rest : List HostEvent), s.status.busy = true → s.racing = [] → s.inbox = .resetAssert :: rest →
    ∃ t, step s = .next t ∧ t.status = Status.zero ∧ t.intStatus = IntBits.zero ∧ t.prog = [] ∧
      (t.mem = s.mem ∨
        ∃ u, exec s.hid.op { s with inbox := rest, resp := none, prog := [] } = .next u ∧ t.mem = u.mem)

/-! ## Capacity (42_capacity.md) -/

/-- R230 and R231 as CAPQ computes them: CAPBITS = 3 * WIDTH * HEIGHT, CAPBYTES = floor(CAPBITS / 8) and FITS, exactly,
with the stated bounds. -/
def Obligations.CapacityComputed : Prop :=
  ∀ s : State, s.status.busy = false → s.dim.toNat % 65536 ≠ 0 → s.dim.toNat / 65536 ≠ 0 →
    let capBits := 3 * (s.dim.toNat % 65536) * (s.dim.toNat / 65536)
    ∃ t, exec .capq s = .next t ∧ t.capBits.toNat = capBits ∧ t.capBytes.toNat = capBits / 8 ∧
      (t.status.fits = true ↔ 8 * s.len.toNat ≤ capBits) ∧
      capBits ≤ 12884508675 ∧ capBits / 8 ≤ 1610563584

/-- CAPQ while idle, the whole next state (R176, R180, R181, R232): with both dimensions nonzero it completes in the
start step; otherwise it fails with DIM, with CAP_* and FITS 0. No memory access, no emission. -/
def Obligations.CapqCompletes : Prop :=
  ∀ s : State, s.status.busy = false →
    let t := startedFrom s
    (width s ≠ 0 → height s ≠ 0 →
      exec .capq s = .next { t with
        capBits := BitVec.ofNat 34 (3 * (width s * height s))
        capBytes := BitVec.ofNat 32 (3 * (width s * height s) / 8)
        status := { t.status with done := true, fits := decide (8 * lenBytes s ≤ 3 * (width s * height s)) }
        intStatus := { t.intStatus with done := true } }) ∧
    (width s = 0 ∨ height s = 0 →
      exec .capq s = .next (failedWith .dim 0 t.hid { t with
        capBits := 0, capBytes := 0, status := { t.status with fits := false } }))

/-- R234: for any image, LEN = CAPBYTES fits and LEN = CAPBYTES + 1 does not; EMBED with the former does not fail with
CAPACITY, and with the latter it does and leaves memory alone. -/
def Obligations.CapacityBoundary : Prop :=
  ∀ s : State, s.status.busy = false → width s ≠ 0 → height s ≠ 0 →
    let capBytes := 3 * (width s * height s) / 8
    (s.len.toNat = capBytes →
      (∃ t, exec .capq s = .next t ∧ t.status.fits = true) ∧
      ∃ t, exec .embed s = .next t ∧ t.status.fits = true ∧ t.error ≠ .capacity) ∧
    (s.len.toNat = capBytes + 1 →
      (∃ t, exec .capq s = .next t ∧ t.status.fits = false) ∧
      ∃ t, exec .embed s = .next t ∧ t.error = .capacity ∧ t.status.busy = false ∧ t.mem = s.mem)

/-! ## Bit packer (43_bitpacker.md) -/

/-- R251: bits(s) has length 8 * |s|, and bits(s)[k] = s[k div 8][7 - (k mod 8)]. -/
def Obligations.BitsIndexing : Prop :=
  ∀ s : List Byte, (bits s).length = 8 * s.length ∧
    ∀ k, k < 8 * s.length → (bits s)[k]? = (s[k / 8]?).map fun b => b.getLsbD (7 - k % 8)

/-- R252: bytes(b) has length floor(|b| / 8), byte j is the sum of b[8j + i] * 2^(7 - i), and the bits after the last
whole byte are not used. -/
def Obligations.BytesOfBits : Prop :=
  ∀ b : List Bool, (bytes b).length = b.length / 8 ∧
    (∀ j, j < b.length / 8 →
      ((bytes b).getD j 0).toNat = ((List.range 8).map fun i => (b.getD (8 * j + i) false).toNat * 2 ^ (7 - i)).sum) ∧
    bytes (b.take (8 * (b.length / 8))) = bytes b

/-- R253: the inverse law, both halves. -/
def Obligations.PackerInverse : Prop :=
  (∀ s : List Byte, bytes (bits s) = s) ∧ ∀ b : List Bool, 8 ∣ b.length → bits (bytes b) = b

/-! ## Command start (40_host_interface.md section 3, 60_exceptions.md section 2) -/

/-- R335: at command start the checks of the command run in the fixed order, decode first, and the first that fails is
reported, with no change to memory; a command whose checks all pass begins, or, for CAPQ, completes. The list of the
start checks' codes is in the order of their numbers. -/
def Obligations.StartChecksInOrder : Prop :=
  (∀ (i : Instr) (s : State), s.status.busy = false →
    ∃ t, exec i s = .next t ∧ t.error = firstFailing (checksInOrder i s) ∧ t.mem = s.mem ∧
      (t.status.err = true ↔ t.error ≠ .none) ∧
      (t.status.busy = true ↔ t.error = .none ∧ i ≠ .capq) ∧
      (t.status.done = true ↔ t.error = .none ∧ i = .capq)) ∧
  (∀ (s : State) (v : Word) (e : Reject) (rest : List HostEvent),
    s.inbox = cmdWrite v :: rest → s.rstN = true → s.status.busy = false → decode v = .error e →
      ∃ t, step s = .next t ∧ t.error = .illegalCmd) ∧
  [ErrCode.illegalCmd, .dim, .input, .capacity, .shortData, .ivReuse, .range, .overlap].map
    (fun c => (errCode c).toNat) = [1, 2, 3, 4, 5, 6, 7, 8]

/-- EMBED that passes its start checks (R271), the whole next state: CAP_* and FITS are written, BUSY is 1, the cursor
is 0. -/
def Obligations.EmbedStarts : Prop :=
  ∀ s : State, s.status.busy = false → EmbedReady s →
    let t := startedFrom s
    exec .embed s = .next { t with
      capBits := BitVec.ofNat 34 (3 * (width s * height s))
      capBytes := BitVec.ofNat 32 (3 * (width s * height s) / 8)
      status := { t.status with busy := true, fits := true }
      hid := { t.hid with op := .embed } }

/-- EXTRACT that passes its start checks (R301), the whole next state: CAP_* is written, FITS is not, BUSY is 1. -/
def Obligations.ExtractStarts : Prop :=
  ∀ s : State, s.status.busy = false → ExtractReady s →
    let t := startedFrom s
    exec .extract s = .next { t with
      capBits := BitVec.ofNat 34 (3 * (width s * height s))
      capBytes := BitVec.ofNat 32 (3 * (width s * height s) / 8)
      status := { t.status with busy := true }
      hid := { t.hid with op := .extract } }

/-- AEAD_ENC and AEAD_DEC that pass their start checks (R206, R208), the whole next state: AEAD_ENC sets IVU, AEAD_DEC
enters AUTH_PASS. -/
def Obligations.AeadStarts : Prop :=
  ∀ s : State, s.status.busy = false → AeadReady s →
    let t := startedFrom s
    (s.status.ivu = false →
      exec .aeadEnc s = .next { t with
        status := { t.status with busy := true, ivu := true }, hid := { t.hid with op := .aeadEnc } }) ∧
    exec .aeadDec s = .next { t with
      status := { t.status with busy := true }, hid := { t.hid with op := .aeadDec, phase := .authPass } }

/-! ## EMBED (44_embed.md) -/

/-- The engine step of EMBED with no bus error (R272 to R274, R182, R184): the channel byte at IMG_BASE + k takes bit
7 - (k mod 8) of the container byte in its bit 0 and keeps its other bits, every other byte of memory is as before, the
cursor and the counters advance, and the command completes at the last bit. -/
def Obligations.EmbedChannelStep : Prop :=
  ∀ s : State, Inv s → s.status.busy = true → s.hid.op = .embed →
    let k := s.hid.k
    let src := s.srcBase.toNat + k / 8
    let img := s.imgBase.toNat + k
    (k % 8 = 0 → readErr s src = false) → readErr s img = false → writeErr s img = false →
    let cur := if k % 8 = 0 then readByte s src else s.hid.cur
    let bit : Byte := if cur.getLsbD (7 - k % 8) then 1 else 0
    let last := decide (k + 1 = 8 * s.len.toNat)
    ∃ t, exec .embed s = .next t ∧
      (∀ x, memRead t.mem x = if x = img then (readByte s img &&& 0xFE) ||| bit else memRead s.mem x) ∧
      t.hid = { s.hid with k := k + 1, cur := cur } ∧ t.bitsDone.toNat = k + 1 ∧
      t.pixDone.toNat = (if (k + 1) % 3 = 0 ∨ last then k / 3 + 1 else k / 3) ∧
      t.progress.toNat = (if last then 100 else 100 * ((k + 1) / 3) / pixels s) ∧
      t.status = { s.status with busy := !last, done := last } ∧
      t.intStatus.done = (s.intStatus.done || last) ∧ t.intStatus.err = s.intStatus.err ∧ t.error = .none

/-- The frame of EMBED, start step and engine step, in every state: the registers it does not write (R279) and every byte
of memory but IMG_BASE + k, and none at all in the start step. -/
def Obligations.EmbedFrame : Prop :=
  ∀ s t : State, exec .embed s = .next t →
    KeepsInputs s t ∧ t.tag = s.tag ∧ t.status.ivu = s.status.ivu ∧ t.hid.acc = s.hid.acc ∧
    (s.status.busy = true → t.outLen = s.outLen ∧ t.capBits = s.capBits ∧ t.capBytes = s.capBytes ∧
      t.status.fits = s.status.fits ∧ t.hid.ct = s.hid.ct ∧ t.hid.phase = s.hid.phase ∧ t.hid.op = s.hid.op) ∧
    (s.status.busy = false → t.outLen = 0 ∧ t.mem = s.mem) ∧
    ∀ x, x ≠ (byteAddr s.imgBase s.hid.k).toNat → memRead t.mem x = memRead s.mem x

/-- A bus error in an engine step of EMBED (R278, R336): the whole next state, for the source read, the image read and
the image write, the first one met. No byte of memory changes, and the counters keep their values. -/
def Obligations.EmbedBusError : Prop :=
  ∀ s : State, s.status.busy = true →
    let k := s.hid.k
    let src := byteAddr s.srcBase (k / 8)
    let img := byteAddr s.imgBase k
    (k % 8 = 0 → readErr s src.toNat = true →
      ∃ h, exec .embed s = .next (failedWith .bus src h s)) ∧
    ((k % 8 = 0 → readErr s src.toNat = false) → readErr s img.toNat = true ∨ writeErr s img.toNat = true →
      ∃ h, exec .embed s = .next (failedWith .bus img h s))

/-! ## EXTRACT (45_extract.md) -/

/-- The engine step of EXTRACT with no bus error (R302 to R304, R182, R184): the LSB of the channel at IMG_BASE + k is
shifted into H.acc, every eighth channel stores H.acc at the next destination byte, every other byte of memory is as
before, and the command completes at channel 3N - 1. -/
def Obligations.ExtractChannelStep : Prop :=
  ∀ s : State, Inv s → s.status.busy = true → s.hid.op = .extract →
    let k := s.hid.k
    let img := s.imgBase.toNat + k
    let dst := s.dstBase.toNat + k / 8
    readErr s img = false → ((k + 1) % 8 = 0 → writeErr s dst = false) →
    let bit : Byte := if (readByte s img).getLsbD 0 then 1 else 0
    let acc : Byte := if k % 8 = 0 then bit else BitVec.ofNat 8 (2 * s.hid.acc.toNat) ||| bit
    let last := decide (k + 1 = 3 * pixels s)
    ∃ t, exec .extract s = .next t ∧
      (∀ x, memRead t.mem x = if (k + 1) % 8 = 0 ∧ x = dst then acc else memRead s.mem x) ∧
      t.hid = { s.hid with k := k + 1, acc := acc } ∧ t.bitsDone.toNat = k + 1 ∧
      t.outLen.toNat = (k + 1) / 8 ∧ t.pixDone.toNat = (k + 1) / 3 ∧
      t.progress.toNat = 100 * ((k + 1) / 3) / pixels s ∧
      t.status = { s.status with busy := !last, done := last } ∧
      t.intStatus.done = (s.intStatus.done || last) ∧ t.intStatus.err = s.intStatus.err ∧ t.error = .none

/-- The frame of EXTRACT, start step and engine step, in every state: the registers it does not write (R308), FITS among
them (R235), and every byte of memory but the destination byte that the step completes. The image is never written
where that byte lies outside it. -/
def Obligations.ExtractFrame : Prop :=
  ∀ s t : State, exec .extract s = .next t →
    KeepsInputs s t ∧ t.tag = s.tag ∧ t.status.ivu = s.status.ivu ∧ t.status.fits = s.status.fits ∧
    t.hid.cur = s.hid.cur ∧
    (s.status.busy = true → t.capBits = s.capBits ∧ t.capBytes = s.capBytes ∧ t.hid.ct = s.hid.ct ∧
      t.hid.phase = s.hid.phase ∧ t.hid.op = s.hid.op) ∧
    (s.status.busy = false → t.mem = s.mem) ∧
    ∀ x, ((s.hid.k + 1) % 8 = 0 → x ≠ (byteAddr s.dstBase ((s.hid.k + 1) / 8 - 1)).toNat) →
      memRead t.mem x = memRead s.mem x

/-- A bus error in an engine step of EXTRACT (R307, R336), the whole next state: on the image read nothing advances; on
the destination write BITS_DONE already counts the channel (R302), OUT_LEN does not, and the byte is unchanged. -/
def Obligations.ExtractBusError : Prop :=
  ∀ s : State, s.status.busy = true →
    let k := s.hid.k
    let img := byteAddr s.imgBase k
    let dst := byteAddr s.dstBase ((k + 1) / 8 - 1)
    (readErr s img.toNat = true → ∃ h, exec .extract s = .next (failedWith .bus img h s)) ∧
    (readErr s img.toNat = false → (k + 1) % 8 = 0 → writeErr s dst.toNat = true →
      ∃ h, exec .extract s = .next (failedWith .bus dst h { s with bitsDone := BitVec.ofNat 34 (k + 1) }))

/-! ## AEAD (41_aead.md) -/

/-- R113: byte 4i + j of K, Nn and Texp is bits 31 - 8j : 24 - 8j of word i of KEY, IV and TAG, and the stated example.
packTag is the inverse (R205). -/
def Obligations.CipherRegisterBytes : Prop :=
  (∀ (s : State) (i j : Nat) (hj : j < 4),
    (∀ hi : i < 8, ((keyBytes s)[4 * i + j]'(by omega)).toNat = s.key[i].toNat / 2 ^ (24 - 8 * j) % 256) ∧
    (∀ hi : i < 3, ((nonceBytes s)[4 * i + j]'(by omega)).toNat = s.iv[i].toNat / 2 ^ (24 - 8 * j) % 256) ∧
    (∀ hi : i < 4, ((tagBytes s)[4 * i + j]'(by omega)).toNat = s.tag[i].toNat / 2 ^ (24 - 8 * j) % 256)) ∧
  (∀ s : State, s.iv = #v[0x00010203, 0x04050607, 0x08090A0B] →
    (nonceBytes s).toList.map BitVec.toNat = List.range 12) ∧
  ∀ (s : State) (t : Tag), tagBytes { s with tag := packTag t } = t

/-- The engine step of AEAD_ENC with no bus error (R206): byte i of the source, XOR KS, is stored at byte i of the
destination, every other byte of memory is as before, the ciphertext accumulates, and at the last byte TAG takes TAGF of
it and the command completes. -/
def Obligations.AeadEncByteStep : Prop :=
  ∀ s : State, Inv s → s.status.busy = true → s.hid.op = .aeadEnc →
    let i := s.hid.k
    let src := s.srcBase.toNat + i
    let dst := s.dstBase.toNat + i
    readErr s src = false → writeErr s dst = false →
    let c := readByte s src ^^^ Config.ks s.cfg.aeadPrim (keyBytes s) (nonceBytes s) i
    let ct := s.hid.ct ++ [c]
    let last := decide (i + 1 = s.len.toNat)
    ∃ t, exec .aeadEnc s = .next t ∧
      (∀ x, memRead t.mem x = if x = dst then c else memRead s.mem x) ∧
      t.hid = { s.hid with k := i + 1, ct := ct } ∧ t.outLen.toNat = i + 1 ∧
      t.tag = (if last then packTag (Config.tagF s.cfg.aeadPrim (keyBytes s) (nonceBytes s) ct) else s.tag) ∧
      t.status = { s.status with busy := !last, done := last } ∧
      t.intStatus = { s.intStatus with done := s.intStatus.done || last }

/-- The engine step of AEAD_DEC in AUTH_PASS with no bus error (R208): the byte is read and accumulated, no byte is
written, and after the last byte a tag mismatch ends the command with AUTH, a match begins WRITE_PASS at byte 0 with no
byte in H.ct, which holds the bytes of the current pass (R75; when it is emptied is an inference, log 23). -/
def Obligations.AeadDecAuthStep : Prop :=
  ∀ s : State, Inv s → s.status.busy = true → s.hid.op = .aeadDec → s.hid.phase = .authPass →
    let i := s.hid.k
    let src := s.srcBase.toNat + i
    readErr s src = false →
    let ct := s.hid.ct ++ [readByte s src]
    let good := decide (Config.tagF s.cfg.aeadPrim (keyBytes s) (nonceBytes s) ct = tagBytes s)
    (i + 1 < s.len.toNat → exec .aeadDec s = .next { s with hid := { s.hid with k := i + 1, ct := ct } }) ∧
    (i + 1 = s.len.toNat → good = true →
      exec .aeadDec s = .next { s with hid := { s.hid with k := 0, ct := [], phase := .writePass } }) ∧
    (i + 1 = s.len.toNat → good = false → ∃ h, exec .aeadDec s = .next (failedWith .auth 0 h s))

/-- The engine step of AEAD_DEC in WRITE_PASS with no bus error (R208): byte i of the source, read again, XOR KS, is
stored at byte i of the destination, every other byte of memory is as before, and the command completes at the last
byte. H.ct holds the i bytes read in this pass before the step, and takes the one read (R75, log 23). -/
def Obligations.AeadDecWriteStep : Prop :=
  ∀ s : State, Inv s → s.status.busy = true → s.hid.op = .aeadDec → s.hid.phase = .writePass →
    let i := s.hid.k
    let src := s.srcBase.toNat + i
    let dst := s.dstBase.toNat + i
    readErr s src = false → writeErr s dst = false →
    let b := readByte s src
    let p := b ^^^ Config.ks s.cfg.aeadPrim (keyBytes s) (nonceBytes s) i
    let last := decide (i + 1 = s.len.toNat)
    s.hid.ct.length = i ∧
    ∃ t, exec .aeadDec s = .next t ∧
      (∀ x, memRead t.mem x = if x = dst then p else memRead s.mem x) ∧
      t.hid = { s.hid with k := i + 1, ct := s.hid.ct ++ [b] } ∧ t.outLen.toNat = i + 1 ∧
      t.status = { s.status with busy := !last, done := last } ∧
      t.intStatus = { s.intStatus with done := s.intStatus.done || last }

/-- The frame of AEAD_ENC and AEAD_DEC, start step and engine step, in every state (R149, R187, R206, R208): the
registers they do not write, AEAD_DEC never writing TAG or IVU, and every byte of memory but DST_BASE + k. -/
def Obligations.AeadFrame : Prop :=
  ∀ (i : Instr) (s t : State), i = .aeadEnc ∨ i = .aeadDec → exec i s = .next t →
    KeepsInputs s t ∧ t.capBits = s.capBits ∧ t.capBytes = s.capBytes ∧ t.status.fits = s.status.fits ∧
    t.hid.cur = s.hid.cur ∧ t.hid.acc = s.hid.acc ∧ t.prog = s.prog ∧ t.intStatus.prog = s.intStatus.prog ∧
    (i = .aeadDec → t.tag = s.tag ∧ t.status.ivu = s.status.ivu) ∧
    (i = .aeadEnc → t.status.done = false → t.tag = s.tag) ∧
    (s.status.busy = true → t.bitsDone = s.bitsDone ∧ t.pixDone = s.pixDone ∧ t.progCount = s.progCount ∧
      t.status.ivu = s.status.ivu ∧ t.hid.op = s.hid.op) ∧
    (s.status.busy = false → t.mem = s.mem ∧ t.tag = s.tag ∧ t.bitsDone = 0 ∧ t.pixDone = 0 ∧ t.progCount = 0) ∧
    ∀ x, x ≠ (byteAddr s.dstBase s.hid.k).toNat → memRead t.mem x = memRead s.mem x

/-- A bus error in an engine step of an AEAD command (R206, R208, R336), the whole next state: no byte of memory, TAG or
OUT_LEN changes. -/
def Obligations.AeadBusError : Prop :=
  ∀ s : State, s.status.busy = true →
    let src := byteAddr s.srcBase s.hid.k
    let dst := byteAddr s.dstBase s.hid.k
    (readErr s src.toNat = true →
      (∃ h, exec .aeadEnc s = .next (failedWith .bus src h s)) ∧
      (s.hid.phase ≠ .run → ∃ h, exec .aeadDec s = .next (failedWith .bus src h s))) ∧
    (readErr s src.toNat = false → writeErr s dst.toNat = true →
      (∃ h, exec .aeadEnc s = .next (failedWith .bus dst h s)) ∧
      (s.hid.phase = .writePass → ∃ h, exec .aeadDec s = .next (failedWith .bus dst h s)))

/-- Dec of what Enc gives is the plaintext, for every primitive, key, nonce and plaintext (R201, R202). -/
def Obligations.DecryptInvertsEncrypt : Prop :=
  ∀ (p : AeadPrim) (K : Key) (nn : Nonce) (P C : List Byte) (T : Tag),
    aeadEncrypt p K nn P = (C, T) → C.length = P.length ∧ aeadDecrypt p K nn C T = some P

/-- R209: a step of AEAD_DEC, start or engine, changes memory only in WRITE_PASS, and WRITE_PASS is entered only by the
AUTH_PASS step that reads the last ciphertext byte and finds TAGF of all LEN of them to be the expected tag. -/
def Obligations.NoWriteBeforeVerification : Prop :=
  ∀ s t : State, Inv s → (s.status.busy = true → s.hid.op = .aeadDec) → exec .aeadDec s = .next t →
    (t.mem ≠ s.mem → s.status.busy = true ∧ s.hid.phase = .writePass) ∧
    (t.status.busy = true → t.hid.phase = .writePass →
      s.status.busy = true ∧ (s.hid.phase = .writePass ∨
        s.hid.phase = .authPass ∧
          let C := s.hid.ct ++ [readByte s (s.srcBase.toNat + s.hid.k)]
          C.length = s.len.toNat ∧ Config.tagF s.cfg.aeadPrim (keyBytes s) (nonceBytes s) C = tagBytes s))

/-! ## Progress, completion and errors (40_host_interface.md sections 4 and 5, 60_exceptions.md) -/

/-- The emissions of one engine step (R182 to R187): strictly increasing, above the previous emission and at most 100,
counted by PROG_COUNT, recorded in PROGRESS and PROG_I; a scan that completes ends at 100, emitted once; the other
commands make none. -/
def Obligations.EmissionsOfAStep : Prop :=
  ∀ s t : State, Inv s → s.status.busy = true → s.prog = [] → exec s.hid.op s = .next t →
    let vs := t.prog.map BitVec.toNat
    vs.Pairwise (· < ·) ∧ (∀ v ∈ vs, s.progress.toNat < v ∧ v ≤ 100) ∧
    t.progCount.toNat = s.progCount.toNat + vs.length ∧
    t.intStatus.prog = (s.intStatus.prog || !vs.isEmpty) ∧
    (t.status.err = false → t.progress.toNat = vs.getLastD s.progress.toNat) ∧
    (s.hid.op = .embed ∨ s.hid.op = .extract → t.status.done = true → vs.getLast? = some 100) ∧
    (s.hid.op = .aeadEnc ∨ s.hid.op = .aeadDec → vs = [])

/-- What every command's failure leaves, at start or in a step (R181, R333, R338): BUSY 0, ERR 1, DONE 0, PROGRESS 0,
ERR_I 1, an error code, ERR_ADDR 0 but for BUS; no operand register, INT_EN or enable changes. -/
def Obligations.FailureRecord : Prop :=
  ∀ (i : Instr) (s t : State), Inv s → (s.status.busy = true → i = s.hid.op) → exec i s = .next t →
    t.status.err = true →
    t.status.busy = false ∧ t.status.done = false ∧ t.error ≠ .none ∧ t.progress = 0 ∧ t.intStatus.err = true ∧
    t.intStatus.done = s.intStatus.done ∧ (t.error ≠ .bus → t.errAddr = 0) ∧ KeepsInputs s t ∧ t.tag = s.tag ∧
    (s.status.busy = true → t.error = .bus ∨ t.error = .auth) ∧ (s.status.busy = false → t.prog = s.prog)

/-- What every command's success leaves (R180, R188): BUSY 0, DONE 1, ERR 0, DONE_I 1, ERROR 0, ERR_ADDR 0. -/
def Obligations.CompletionRecord : Prop :=
  ∀ (i : Instr) (s t : State), Inv s → (s.status.busy = true → i = s.hid.op) → exec i s = .next t →
    t.status.done = true →
    t.status.busy = false ∧ t.status.err = false ∧ t.error = .none ∧ t.errAddr = 0 ∧ t.intStatus.done = true ∧
    t.intStatus.err = s.intStatus.err

/-! ## Whole commands -/

/-- A whole EMBED (R273 to R277): from an idle block with the CMD write next and no other action, after the start step
and REQBITS engine steps the command has completed; the first REQBITS channel bytes carry the container's bits in their
LSBs and keep their other bits, and every other byte of memory is unchanged. -/
def Obligations.EmbedWritesContainer : Prop :=
  ∀ s : State, Inv s → s.status.busy = false → s.rstN = true → s.inbox = [cmdWrite 0x00000002] → EmbedReady s →
    ReadsOkay s s.srcBase (lenBytes s) → ReadsOkay s s.imgBase (8 * lenBytes s) →
    WritesOkay s s.imgBase (8 * lenBytes s) →
    let req := 8 * lenBytes s
    let container := memBytes s.mem s.srcBase.toNat (lenBytes s)
    ∃ t, StepsTo (1 + req) s t ∧ t.status.busy = false ∧ t.status.done = true ∧ t.status.err = false ∧
      t.error = .none ∧
      (∀ k, k < req → memRead t.mem (s.imgBase.toNat + k) =
        (memRead s.mem (s.imgBase.toNat + k) &&& 0xFE) ||| (if (bits container).getD k false then 1 else 0)) ∧
      (∀ x, x < s.imgBase.toNat ∨ s.imgBase.toNat + req ≤ x → memRead t.mem x = memRead s.mem x) ∧
      t.bitsDone.toNat = req ∧ t.pixDone.toNat = (req - 1) / 3 + 1 ∧ t.progress.toNat = 100 ∧ t.outLen = 0 ∧
      t.inbox = [] ∧ Inv t

/-- A whole EXTRACT (R303, R305, R308): after the start step and 3N engine steps the command has completed; the
destination holds the packed LSBs of all 3N channels, and every other byte of memory, the image among them, is
unchanged. -/
def Obligations.ExtractReadsImage : Prop :=
  ∀ s : State, Inv s → s.status.busy = false → s.rstN = true → s.inbox = [cmdWrite 0x00000003] → ExtractReady s →
    let n := 3 * (width s * height s)
    ReadsOkay s s.imgBase n → WritesOkay s s.dstBase (n / 8) →
    ∃ t, StepsTo (1 + n) s t ∧ t.status.busy = false ∧ t.status.done = true ∧ t.status.err = false ∧
      t.error = .none ∧
      memBytes t.mem s.dstBase.toNat (n / 8) = bytes ((memBytes s.mem s.imgBase.toNat n).map fun b => b.getLsbD 0) ∧
      (∀ x, x < s.dstBase.toNat ∨ s.dstBase.toNat + n / 8 ≤ x → memRead t.mem x = memRead s.mem x) ∧
      t.bitsDone.toNat = n ∧ t.pixDone.toNat = width s * height s ∧ t.outLen.toNat = n / 8 ∧
      t.progress.toNat = 100 ∧ t.inbox = [] ∧ Inv t

/-- The round trip of R310: an EMBED, then an EXTRACT of the same image with no other write between, gives back the
container, and after it the packed LSBs of the untouched channels. -/
def Obligations.ExtractReturnsContainer : Prop :=
  ∀ s : State, Inv s → s.status.busy = false → s.rstN = true → s.inbox = [cmdWrite 0x00000002] →
    EmbedReady s → ExtractReady s →
    let n := 3 * (width s * height s)
    let req := 8 * lenBytes s
    ReadsOkay s s.srcBase (lenBytes s) → ReadsOkay s s.imgBase n → WritesOkay s s.imgBase req →
    WritesOkay s s.dstBase (n / 8) →
    ∃ t u, StepsTo (1 + req) s t ∧ t.status.done = true ∧
      StepsTo (1 + n) { t with inbox := [cmdWrite 0x00000003] } u ∧ u.status.done = true ∧
      memBytes u.mem s.dstBase.toNat (n / 8) =
        memBytes s.mem s.srcBase.toNat (lenBytes s) ++
          bytes ((memBytes s.mem (s.imgBase.toNat + req) (n - req)).map fun b => b.getLsbD 0)

/-- The emissions of a whole EXTRACT of at least 100 pixels are exactly 1, 2, …, 100, and PROG_COUNT ends at 100
(R186, R306). -/
def Obligations.ExtractEmitsOneToHundred : Prop :=
  ∀ s : State, Inv s → s.status.busy = false → s.rstN = true → s.inbox = [cmdWrite 0x00000003] → ExtractReady s →
    let n := 3 * (width s * height s)
    ReadsOkay s s.imgBase n → WritesOkay s s.dstBase (n / 8) → 100 ≤ width s * height s →
    emissions (1 + n) s = (List.range 100).map (· + 1) ∧ ∃ t, StepsTo (1 + n) s t ∧ t.progCount.toNat = 100

/-- A whole AEAD_ENC (R206, R201), exactly in place too: after the start step and LEN engine steps the destination and
TAG hold Enc of the source's bytes under the registers' key and nonce, IVU is 1, and every other byte of memory is
unchanged. -/
def Obligations.AeadEncEncrypts : Prop :=
  ∀ s : State, Inv s → s.status.busy = false → s.rstN = true → s.inbox = [cmdWrite 0x00000010] → AeadReady s →
    s.status.ivu = false → ReadsOkay s s.srcBase (lenBytes s) → WritesOkay s s.dstBase (lenBytes s) →
    let n := lenBytes s
    ∃ t, StepsTo (1 + n) s t ∧ t.status.busy = false ∧ t.status.done = true ∧ t.status.err = false ∧
      (memBytes t.mem s.dstBase.toNat n, tagBytes t) =
        aeadEncrypt s.cfg.aeadPrim (keyBytes s) (nonceBytes s) (memBytes s.mem s.srcBase.toNat n) ∧
      (∀ x, x < s.dstBase.toNat ∨ s.dstBase.toNat + n ≤ x → memRead t.mem x = memRead s.mem x) ∧
      t.outLen.toNat = n ∧ t.status.ivu = true ∧ t.inbox = [] ∧ Inv t

/-- A whole AEAD_DEC (R208, R209, R201): if Dec fails, the command ends with AUTH after LEN engine steps, OUT_LEN 0 and
memory unchanged; if Dec gives P, it completes after 2 * LEN engine steps with P at the destination and every other
byte of memory unchanged. -/
def Obligations.AeadDecDecrypts : Prop :=
  ∀ s : State, Inv s → s.status.busy = false → s.rstN = true → s.inbox = [cmdWrite 0x00000011] → AeadReady s →
    ReadsOkay s s.srcBase (lenBytes s) → WritesOkay s s.dstBase (lenBytes s) →
    let n := lenBytes s
    let dec := aeadDecrypt s.cfg.aeadPrim (keyBytes s) (nonceBytes s) (memBytes s.mem s.srcBase.toNat n) (tagBytes s)
    (dec = none →
      ∃ t, StepsTo (1 + n) s t ∧ t.status.busy = false ∧ t.status.err = true ∧ t.error = .auth ∧ t.outLen = 0 ∧
        t.mem = s.mem) ∧
    (∀ P, dec = some P →
      ∃ t, StepsTo (1 + 2 * n) s t ∧ t.status.busy = false ∧ t.status.done = true ∧ t.status.err = false ∧
        memBytes t.mem s.dstBase.toNat n = P ∧
        (∀ x, x < s.dstBase.toNat ∨ s.dstBase.toNat + n ≤ x → memRead t.mem x = memRead s.mem x) ∧
        t.outLen.toNat = n ∧ t.tag = s.tag ∧ t.status.ivu = s.status.ivu)

/-! ## Invariants -/

/-- The machine right after reset meets the invariant. Its hidden values and its empty memory are the model's choice
(log 3, log 5). -/
def Obligations.ResetHasInvariant : Prop := Inv State.reset

/-- Every step keeps the invariant, from every state that has it: memory stays canonical, the flags of R37 exclude each
other, the counters keep their bounds, an executing command's checks hold and its cursor is in range, and while rst_n = 0
every register holds its reset value, the hidden ones those of log 5. -/
def Obligations.StepKeepsInvariant : Prop := ∀ s t : State, Inv s → step s = .next t → Inv t

/-- No step of a state with the invariant stops: every action and every engine step answers a next state. -/
def Obligations.StepNeverStops : Prop := ∀ s : State, Inv s → ∃ t, step s = .next t

/-- The INTERNAL branch of EMBED is unreachable (R277): no step of a state with the invariant reports INTERNAL that was
not there before. -/
def Obligations.InternalUnreachable : Prop :=
  ∀ s t : State, Inv s → step s = .next t → s.error ≠ .internal → t.error ≠ .internal

/-- No operand of a running command can change (R142, R174): a step from a busy state to a busy state leaves DIM,
IMG_BASE, SRC_BASE, DST_BASE, LEN, KEY and IV alone, whatever the host does in it, and TAG too unless AEAD_ENC wrote
it. -/
def Obligations.OperandsConstantWhileBusy : Prop :=
  ∀ s t : State, s.status.busy = true → step s = .next t → t.status.busy = true →
    t.dim = s.dim ∧ t.imgBase = s.imgBase ∧ t.srcBase = s.srcBase ∧ t.dstBase = s.dstBase ∧ t.len = s.len ∧
    t.key = s.key ∧ t.iv = s.iv ∧ (s.hid.op ≠ .aeadEnc → t.tag = s.tag)

/-- Every executing command ends (R188, R189): left to the engine, within the engine steps its operands allow, at a step
after which BUSY is 0 and exactly one of DONE and ERR is 1. -/
def Obligations.CommandsEnd : Prop :=
  ∀ s : State, Inv s → s.status.busy = true → s.inbox = [] →
    ∃ n t, n ≤ workLeft s ∧ StepsTo n s t ∧ t.status.busy = false ∧ (t.status.done = !t.status.err)
end

