-- ==== Sys2Proof/Laws/State.lean ====
section
/-! SUPPORT. One lemma per field per named update of State, true by definition and for simp, so that no proof unfolds a
record update. -/

namespace Sys2Proof.Machine

/-! ## clearOutputs -/

@[simp] theorem clearOutputs_cfg (s : State) : (clearOutputs s).cfg = s.cfg := rfl
@[simp] theorem clearOutputs_status (s : State) : (clearOutputs s).status = s.status := rfl
@[simp] theorem clearOutputs_error (s : State) : (clearOutputs s).error = s.error := rfl
@[simp] theorem clearOutputs_errAddr (s : State) : (clearOutputs s).errAddr = s.errAddr := rfl
@[simp] theorem clearOutputs_intEn (s : State) : (clearOutputs s).intEn = s.intEn := rfl
@[simp] theorem clearOutputs_intStatus (s : State) : (clearOutputs s).intStatus = s.intStatus := rfl
@[simp] theorem clearOutputs_dim (s : State) : (clearOutputs s).dim = s.dim := rfl
@[simp] theorem clearOutputs_imgBase (s : State) : (clearOutputs s).imgBase = s.imgBase := rfl
@[simp] theorem clearOutputs_srcBase (s : State) : (clearOutputs s).srcBase = s.srcBase := rfl
@[simp] theorem clearOutputs_dstBase (s : State) : (clearOutputs s).dstBase = s.dstBase := rfl
@[simp] theorem clearOutputs_len (s : State) : (clearOutputs s).len = s.len := rfl
@[simp] theorem clearOutputs_capBits (s : State) : (clearOutputs s).capBits = s.capBits := rfl
@[simp] theorem clearOutputs_capBytes (s : State) : (clearOutputs s).capBytes = s.capBytes := rfl
@[simp] theorem clearOutputs_progress (s : State) : (clearOutputs s).progress = s.progress := rfl
@[simp] theorem clearOutputs_progCount (s : State) : (clearOutputs s).progCount = s.progCount := rfl
@[simp] theorem clearOutputs_bitsDone (s : State) : (clearOutputs s).bitsDone = s.bitsDone := rfl
@[simp] theorem clearOutputs_pixDone (s : State) : (clearOutputs s).pixDone = s.pixDone := rfl
@[simp] theorem clearOutputs_outLen (s : State) : (clearOutputs s).outLen = s.outLen := rfl
@[simp] theorem clearOutputs_key (s : State) : (clearOutputs s).key = s.key := rfl
@[simp] theorem clearOutputs_iv (s : State) : (clearOutputs s).iv = s.iv := rfl
@[simp] theorem clearOutputs_tag (s : State) : (clearOutputs s).tag = s.tag := rfl
@[simp] theorem clearOutputs_hid (s : State) : (clearOutputs s).hid = s.hid := rfl
@[simp] theorem clearOutputs_rstN (s : State) : (clearOutputs s).rstN = s.rstN := rfl
@[simp] theorem clearOutputs_resp (s : State) : (clearOutputs s).resp = none := rfl
@[simp] theorem clearOutputs_prog (s : State) : (clearOutputs s).prog = [] := rfl
@[simp] theorem clearOutputs_mem (s : State) : (clearOutputs s).mem = s.mem := rfl
@[simp] theorem clearOutputs_windows (s : State) : (clearOutputs s).windows = s.windows := rfl
@[simp] theorem clearOutputs_inbox (s : State) : (clearOutputs s).inbox = s.inbox := rfl
@[simp] theorem clearOutputs_racing (s : State) : (clearOutputs s).racing = s.racing := rfl
@[simp] theorem clearOutputs_free (s : State) : (clearOutputs s).free = s.free := rfl

/-! ## clearCommand -/

@[simp] theorem clearCommand_cfg (s : State) : (clearCommand s).cfg = s.cfg := rfl
@[simp] theorem clearCommand_status (s : State) :
    (clearCommand s).status = { s.status with done := false, err := false } := rfl
@[simp] theorem clearCommand_error (s : State) : (clearCommand s).error = .none := rfl
@[simp] theorem clearCommand_errAddr (s : State) : (clearCommand s).errAddr = 0 := rfl
@[simp] theorem clearCommand_intEn (s : State) : (clearCommand s).intEn = s.intEn := rfl
@[simp] theorem clearCommand_intStatus (s : State) : (clearCommand s).intStatus = s.intStatus := rfl
@[simp] theorem clearCommand_dim (s : State) : (clearCommand s).dim = s.dim := rfl
@[simp] theorem clearCommand_imgBase (s : State) : (clearCommand s).imgBase = s.imgBase := rfl
@[simp] theorem clearCommand_srcBase (s : State) : (clearCommand s).srcBase = s.srcBase := rfl
@[simp] theorem clearCommand_dstBase (s : State) : (clearCommand s).dstBase = s.dstBase := rfl
@[simp] theorem clearCommand_len (s : State) : (clearCommand s).len = s.len := rfl
@[simp] theorem clearCommand_capBits (s : State) : (clearCommand s).capBits = s.capBits := rfl
@[simp] theorem clearCommand_capBytes (s : State) : (clearCommand s).capBytes = s.capBytes := rfl
@[simp] theorem clearCommand_progress (s : State) : (clearCommand s).progress = 0 := rfl
@[simp] theorem clearCommand_progCount (s : State) : (clearCommand s).progCount = 0 := rfl
@[simp] theorem clearCommand_bitsDone (s : State) : (clearCommand s).bitsDone = 0 := rfl
@[simp] theorem clearCommand_pixDone (s : State) : (clearCommand s).pixDone = 0 := rfl
@[simp] theorem clearCommand_outLen (s : State) : (clearCommand s).outLen = 0 := rfl
@[simp] theorem clearCommand_key (s : State) : (clearCommand s).key = s.key := rfl
@[simp] theorem clearCommand_iv (s : State) : (clearCommand s).iv = s.iv := rfl
@[simp] theorem clearCommand_tag (s : State) : (clearCommand s).tag = s.tag := rfl
@[simp] theorem clearCommand_hid (s : State) :
    (clearCommand s).hid = { s.hid with k := 0, phase := .run, ct := [] } := rfl
@[simp] theorem clearCommand_rstN (s : State) : (clearCommand s).rstN = s.rstN := rfl
@[simp] theorem clearCommand_resp (s : State) : (clearCommand s).resp = s.resp := rfl
@[simp] theorem clearCommand_prog (s : State) : (clearCommand s).prog = s.prog := rfl
@[simp] theorem clearCommand_mem (s : State) : (clearCommand s).mem = s.mem := rfl
@[simp] theorem clearCommand_windows (s : State) : (clearCommand s).windows = s.windows := rfl
@[simp] theorem clearCommand_inbox (s : State) : (clearCommand s).inbox = s.inbox := rfl
@[simp] theorem clearCommand_racing (s : State) : (clearCommand s).racing = s.racing := rfl
@[simp] theorem clearCommand_free (s : State) : (clearCommand s).free = s.free := rfl

/-! ## beginCommand -/

@[simp] theorem beginCommand_cfg (i : Instr) (s : State) : (beginCommand i s).cfg = s.cfg := rfl
@[simp] theorem beginCommand_status (i : Instr) (s : State) :
    (beginCommand i s).status = { s.status with busy := true } := rfl
@[simp] theorem beginCommand_error (i : Instr) (s : State) : (beginCommand i s).error = s.error := rfl
@[simp] theorem beginCommand_errAddr (i : Instr) (s : State) : (beginCommand i s).errAddr = s.errAddr := rfl
@[simp] theorem beginCommand_intEn (i : Instr) (s : State) : (beginCommand i s).intEn = s.intEn := rfl
@[simp] theorem beginCommand_intStatus (i : Instr) (s : State) : (beginCommand i s).intStatus = s.intStatus := rfl
@[simp] theorem beginCommand_dim (i : Instr) (s : State) : (beginCommand i s).dim = s.dim := rfl
@[simp] theorem beginCommand_imgBase (i : Instr) (s : State) : (beginCommand i s).imgBase = s.imgBase := rfl
@[simp] theorem beginCommand_srcBase (i : Instr) (s : State) : (beginCommand i s).srcBase = s.srcBase := rfl
@[simp] theorem beginCommand_dstBase (i : Instr) (s : State) : (beginCommand i s).dstBase = s.dstBase := rfl
@[simp] theorem beginCommand_len (i : Instr) (s : State) : (beginCommand i s).len = s.len := rfl
@[simp] theorem beginCommand_capBits (i : Instr) (s : State) : (beginCommand i s).capBits = s.capBits := rfl
@[simp] theorem beginCommand_capBytes (i : Instr) (s : State) : (beginCommand i s).capBytes = s.capBytes := rfl
@[simp] theorem beginCommand_progress (i : Instr) (s : State) : (beginCommand i s).progress = s.progress := rfl
@[simp] theorem beginCommand_progCount (i : Instr) (s : State) : (beginCommand i s).progCount = s.progCount := rfl
@[simp] theorem beginCommand_bitsDone (i : Instr) (s : State) : (beginCommand i s).bitsDone = s.bitsDone := rfl
@[simp] theorem beginCommand_pixDone (i : Instr) (s : State) : (beginCommand i s).pixDone = s.pixDone := rfl
@[simp] theorem beginCommand_outLen (i : Instr) (s : State) : (beginCommand i s).outLen = s.outLen := rfl
@[simp] theorem beginCommand_key (i : Instr) (s : State) : (beginCommand i s).key = s.key := rfl
@[simp] theorem beginCommand_iv (i : Instr) (s : State) : (beginCommand i s).iv = s.iv := rfl
@[simp] theorem beginCommand_tag (i : Instr) (s : State) : (beginCommand i s).tag = s.tag := rfl
@[simp] theorem beginCommand_hid (i : Instr) (s : State) : (beginCommand i s).hid = { s.hid with op := i } := rfl
@[simp] theorem beginCommand_rstN (i : Instr) (s : State) : (beginCommand i s).rstN = s.rstN := rfl
@[simp] theorem beginCommand_resp (i : Instr) (s : State) : (beginCommand i s).resp = s.resp := rfl
@[simp] theorem beginCommand_prog (i : Instr) (s : State) : (beginCommand i s).prog = s.prog := rfl
@[simp] theorem beginCommand_mem (i : Instr) (s : State) : (beginCommand i s).mem = s.mem := rfl
@[simp] theorem beginCommand_windows (i : Instr) (s : State) : (beginCommand i s).windows = s.windows := rfl
@[simp] theorem beginCommand_inbox (i : Instr) (s : State) : (beginCommand i s).inbox = s.inbox := rfl
@[simp] theorem beginCommand_racing (i : Instr) (s : State) : (beginCommand i s).racing = s.racing := rfl
@[simp] theorem beginCommand_free (i : Instr) (s : State) : (beginCommand i s).free = s.free := rfl

/-! ## complete -/

@[simp] theorem complete_cfg (s : State) : (complete s).cfg = s.cfg := rfl
@[simp] theorem complete_status (s : State) : (complete s).status = { s.status with busy := false, done := true } := rfl
@[simp] theorem complete_error (s : State) : (complete s).error = s.error := rfl
@[simp] theorem complete_errAddr (s : State) : (complete s).errAddr = s.errAddr := rfl
@[simp] theorem complete_intEn (s : State) : (complete s).intEn = s.intEn := rfl
@[simp] theorem complete_intStatus (s : State) : (complete s).intStatus = { s.intStatus with done := true } := rfl
@[simp] theorem complete_dim (s : State) : (complete s).dim = s.dim := rfl
@[simp] theorem complete_imgBase (s : State) : (complete s).imgBase = s.imgBase := rfl
@[simp] theorem complete_srcBase (s : State) : (complete s).srcBase = s.srcBase := rfl
@[simp] theorem complete_dstBase (s : State) : (complete s).dstBase = s.dstBase := rfl
@[simp] theorem complete_len (s : State) : (complete s).len = s.len := rfl
@[simp] theorem complete_capBits (s : State) : (complete s).capBits = s.capBits := rfl
@[simp] theorem complete_capBytes (s : State) : (complete s).capBytes = s.capBytes := rfl
@[simp] theorem complete_progress (s : State) : (complete s).progress = s.progress := rfl
@[simp] theorem complete_progCount (s : State) : (complete s).progCount = s.progCount := rfl
@[simp] theorem complete_bitsDone (s : State) : (complete s).bitsDone = s.bitsDone := rfl
@[simp] theorem complete_pixDone (s : State) : (complete s).pixDone = s.pixDone := rfl
@[simp] theorem complete_outLen (s : State) : (complete s).outLen = s.outLen := rfl
@[simp] theorem complete_key (s : State) : (complete s).key = s.key := rfl
@[simp] theorem complete_iv (s : State) : (complete s).iv = s.iv := rfl
@[simp] theorem complete_tag (s : State) : (complete s).tag = s.tag := rfl
@[simp] theorem complete_hid (s : State) : (complete s).hid = s.hid := rfl
@[simp] theorem complete_rstN (s : State) : (complete s).rstN = s.rstN := rfl
@[simp] theorem complete_resp (s : State) : (complete s).resp = s.resp := rfl
@[simp] theorem complete_prog (s : State) : (complete s).prog = s.prog := rfl
@[simp] theorem complete_mem (s : State) : (complete s).mem = s.mem := rfl
@[simp] theorem complete_windows (s : State) : (complete s).windows = s.windows := rfl
@[simp] theorem complete_inbox (s : State) : (complete s).inbox = s.inbox := rfl
@[simp] theorem complete_racing (s : State) : (complete s).racing = s.racing := rfl
@[simp] theorem complete_free (s : State) : (complete s).free = s.free := rfl

/-! ## failAt -/

@[simp] theorem failAt_cfg (c : ErrCode) (a : Word) (s : State) : (failAt c a s).cfg = s.cfg := rfl
@[simp] theorem failAt_status (c : ErrCode) (a : Word) (s : State) :
    (failAt c a s).status = { s.status with busy := false, err := true } := rfl
@[simp] theorem failAt_error (c : ErrCode) (a : Word) (s : State) : (failAt c a s).error = c := rfl
@[simp] theorem failAt_errAddr (c : ErrCode) (a : Word) (s : State) :
    (failAt c a s).errAddr = (if c = .bus then a else 0) := rfl
@[simp] theorem failAt_intEn (c : ErrCode) (a : Word) (s : State) : (failAt c a s).intEn = s.intEn := rfl
@[simp] theorem failAt_intStatus (c : ErrCode) (a : Word) (s : State) :
    (failAt c a s).intStatus = { s.intStatus with err := true } := rfl
@[simp] theorem failAt_dim (c : ErrCode) (a : Word) (s : State) : (failAt c a s).dim = s.dim := rfl
@[simp] theorem failAt_imgBase (c : ErrCode) (a : Word) (s : State) : (failAt c a s).imgBase = s.imgBase := rfl
@[simp] theorem failAt_srcBase (c : ErrCode) (a : Word) (s : State) : (failAt c a s).srcBase = s.srcBase := rfl
@[simp] theorem failAt_dstBase (c : ErrCode) (a : Word) (s : State) : (failAt c a s).dstBase = s.dstBase := rfl
@[simp] theorem failAt_len (c : ErrCode) (a : Word) (s : State) : (failAt c a s).len = s.len := rfl
@[simp] theorem failAt_capBits (c : ErrCode) (a : Word) (s : State) : (failAt c a s).capBits = s.capBits := rfl
@[simp] theorem failAt_capBytes (c : ErrCode) (a : Word) (s : State) : (failAt c a s).capBytes = s.capBytes := rfl
@[simp] theorem failAt_progress (c : ErrCode) (a : Word) (s : State) : (failAt c a s).progress = 0 := rfl
@[simp] theorem failAt_progCount (c : ErrCode) (a : Word) (s : State) : (failAt c a s).progCount = s.progCount := rfl
@[simp] theorem failAt_bitsDone (c : ErrCode) (a : Word) (s : State) : (failAt c a s).bitsDone = s.bitsDone := rfl
@[simp] theorem failAt_pixDone (c : ErrCode) (a : Word) (s : State) : (failAt c a s).pixDone = s.pixDone := rfl
@[simp] theorem failAt_outLen (c : ErrCode) (a : Word) (s : State) : (failAt c a s).outLen = s.outLen := rfl
@[simp] theorem failAt_key (c : ErrCode) (a : Word) (s : State) : (failAt c a s).key = s.key := rfl
@[simp] theorem failAt_iv (c : ErrCode) (a : Word) (s : State) : (failAt c a s).iv = s.iv := rfl
@[simp] theorem failAt_tag (c : ErrCode) (a : Word) (s : State) : (failAt c a s).tag = s.tag := rfl
@[simp] theorem failAt_hid (c : ErrCode) (a : Word) (s : State) : (failAt c a s).hid = s.hid := rfl
@[simp] theorem failAt_rstN (c : ErrCode) (a : Word) (s : State) : (failAt c a s).rstN = s.rstN := rfl
@[simp] theorem failAt_resp (c : ErrCode) (a : Word) (s : State) : (failAt c a s).resp = s.resp := rfl
@[simp] theorem failAt_prog (c : ErrCode) (a : Word) (s : State) : (failAt c a s).prog = s.prog := rfl
@[simp] theorem failAt_mem (c : ErrCode) (a : Word) (s : State) : (failAt c a s).mem = s.mem := rfl
@[simp] theorem failAt_windows (c : ErrCode) (a : Word) (s : State) : (failAt c a s).windows = s.windows := rfl
@[simp] theorem failAt_inbox (c : ErrCode) (a : Word) (s : State) : (failAt c a s).inbox = s.inbox := rfl
@[simp] theorem failAt_racing (c : ErrCode) (a : Word) (s : State) : (failAt c a s).racing = s.racing := rfl
@[simp] theorem failAt_free (c : ErrCode) (a : Word) (s : State) : (failAt c a s).free = s.free := rfl

/-! ## emit -/

@[simp] theorem emit_cfg (v : Nat) (s : State) : (emit v s).cfg = s.cfg := rfl
@[simp] theorem emit_status (v : Nat) (s : State) : (emit v s).status = s.status := rfl
@[simp] theorem emit_error (v : Nat) (s : State) : (emit v s).error = s.error := rfl
@[simp] theorem emit_errAddr (v : Nat) (s : State) : (emit v s).errAddr = s.errAddr := rfl
@[simp] theorem emit_intEn (v : Nat) (s : State) : (emit v s).intEn = s.intEn := rfl
@[simp] theorem emit_intStatus (v : Nat) (s : State) : (emit v s).intStatus = { s.intStatus with prog := true } := rfl
@[simp] theorem emit_dim (v : Nat) (s : State) : (emit v s).dim = s.dim := rfl
@[simp] theorem emit_imgBase (v : Nat) (s : State) : (emit v s).imgBase = s.imgBase := rfl
@[simp] theorem emit_srcBase (v : Nat) (s : State) : (emit v s).srcBase = s.srcBase := rfl
@[simp] theorem emit_dstBase (v : Nat) (s : State) : (emit v s).dstBase = s.dstBase := rfl
@[simp] theorem emit_len (v : Nat) (s : State) : (emit v s).len = s.len := rfl
@[simp] theorem emit_capBits (v : Nat) (s : State) : (emit v s).capBits = s.capBits := rfl
@[simp] theorem emit_capBytes (v : Nat) (s : State) : (emit v s).capBytes = s.capBytes := rfl
@[simp] theorem emit_progress (v : Nat) (s : State) : (emit v s).progress = BitVec.ofNat 7 v := rfl
@[simp] theorem emit_progCount (v : Nat) (s : State) : (emit v s).progCount = s.progCount + 1 := rfl
@[simp] theorem emit_bitsDone (v : Nat) (s : State) : (emit v s).bitsDone = s.bitsDone := rfl
@[simp] theorem emit_pixDone (v : Nat) (s : State) : (emit v s).pixDone = s.pixDone := rfl
@[simp] theorem emit_outLen (v : Nat) (s : State) : (emit v s).outLen = s.outLen := rfl
@[simp] theorem emit_key (v : Nat) (s : State) : (emit v s).key = s.key := rfl
@[simp] theorem emit_iv (v : Nat) (s : State) : (emit v s).iv = s.iv := rfl
@[simp] theorem emit_tag (v : Nat) (s : State) : (emit v s).tag = s.tag := rfl
@[simp] theorem emit_hid (v : Nat) (s : State) : (emit v s).hid = s.hid := rfl
@[simp] theorem emit_rstN (v : Nat) (s : State) : (emit v s).rstN = s.rstN := rfl
@[simp] theorem emit_resp (v : Nat) (s : State) : (emit v s).resp = s.resp := rfl
@[simp] theorem emit_prog (v : Nat) (s : State) : (emit v s).prog = s.prog ++ [BitVec.ofNat 7 v] := rfl
@[simp] theorem emit_mem (v : Nat) (s : State) : (emit v s).mem = s.mem := rfl
@[simp] theorem emit_windows (v : Nat) (s : State) : (emit v s).windows = s.windows := rfl
@[simp] theorem emit_inbox (v : Nat) (s : State) : (emit v s).inbox = s.inbox := rfl
@[simp] theorem emit_racing (v : Nat) (s : State) : (emit v s).racing = s.racing := rfl
@[simp] theorem emit_free (v : Nat) (s : State) : (emit v s).free = s.free := rfl

/-! ## setCursor -/

@[simp] theorem setCursor_cfg (k : Nat) (s : State) : (setCursor k s).cfg = s.cfg := rfl
@[simp] theorem setCursor_status (k : Nat) (s : State) : (setCursor k s).status = s.status := rfl
@[simp] theorem setCursor_error (k : Nat) (s : State) : (setCursor k s).error = s.error := rfl
@[simp] theorem setCursor_errAddr (k : Nat) (s : State) : (setCursor k s).errAddr = s.errAddr := rfl
@[simp] theorem setCursor_intEn (k : Nat) (s : State) : (setCursor k s).intEn = s.intEn := rfl
@[simp] theorem setCursor_intStatus (k : Nat) (s : State) : (setCursor k s).intStatus = s.intStatus := rfl
@[simp] theorem setCursor_dim (k : Nat) (s : State) : (setCursor k s).dim = s.dim := rfl
@[simp] theorem setCursor_imgBase (k : Nat) (s : State) : (setCursor k s).imgBase = s.imgBase := rfl
@[simp] theorem setCursor_srcBase (k : Nat) (s : State) : (setCursor k s).srcBase = s.srcBase := rfl
@[simp] theorem setCursor_dstBase (k : Nat) (s : State) : (setCursor k s).dstBase = s.dstBase := rfl
@[simp] theorem setCursor_len (k : Nat) (s : State) : (setCursor k s).len = s.len := rfl
@[simp] theorem setCursor_capBits (k : Nat) (s : State) : (setCursor k s).capBits = s.capBits := rfl
@[simp] theorem setCursor_capBytes (k : Nat) (s : State) : (setCursor k s).capBytes = s.capBytes := rfl
@[simp] theorem setCursor_progress (k : Nat) (s : State) : (setCursor k s).progress = s.progress := rfl
@[simp] theorem setCursor_progCount (k : Nat) (s : State) : (setCursor k s).progCount = s.progCount := rfl
@[simp] theorem setCursor_bitsDone (k : Nat) (s : State) : (setCursor k s).bitsDone = BitVec.ofNat 34 k := rfl
@[simp] theorem setCursor_pixDone (k : Nat) (s : State) : (setCursor k s).pixDone = s.pixDone := rfl
@[simp] theorem setCursor_outLen (k : Nat) (s : State) : (setCursor k s).outLen = s.outLen := rfl
@[simp] theorem setCursor_key (k : Nat) (s : State) : (setCursor k s).key = s.key := rfl
@[simp] theorem setCursor_iv (k : Nat) (s : State) : (setCursor k s).iv = s.iv := rfl
@[simp] theorem setCursor_tag (k : Nat) (s : State) : (setCursor k s).tag = s.tag := rfl
@[simp] theorem setCursor_hid (k : Nat) (s : State) : (setCursor k s).hid = { s.hid with k := k } := rfl
@[simp] theorem setCursor_rstN (k : Nat) (s : State) : (setCursor k s).rstN = s.rstN := rfl
@[simp] theorem setCursor_resp (k : Nat) (s : State) : (setCursor k s).resp = s.resp := rfl
@[simp] theorem setCursor_prog (k : Nat) (s : State) : (setCursor k s).prog = s.prog := rfl
@[simp] theorem setCursor_mem (k : Nat) (s : State) : (setCursor k s).mem = s.mem := rfl
@[simp] theorem setCursor_windows (k : Nat) (s : State) : (setCursor k s).windows = s.windows := rfl
@[simp] theorem setCursor_inbox (k : Nat) (s : State) : (setCursor k s).inbox = s.inbox := rfl
@[simp] theorem setCursor_racing (k : Nat) (s : State) : (setCursor k s).racing = s.racing := rfl
@[simp] theorem setCursor_free (k : Nat) (s : State) : (setCursor k s).free = s.free := rfl

/-! ## writeFits -/

@[simp] theorem writeFits_cfg (s : State) : (writeFits s).cfg = s.cfg := rfl
@[simp] theorem writeFits_status (s : State) :
    (writeFits s).status = { s.status with fits := !dimIsZero s && fitsLen s } := rfl
@[simp] theorem writeFits_error (s : State) : (writeFits s).error = s.error := rfl
@[simp] theorem writeFits_errAddr (s : State) : (writeFits s).errAddr = s.errAddr := rfl
@[simp] theorem writeFits_intEn (s : State) : (writeFits s).intEn = s.intEn := rfl
@[simp] theorem writeFits_intStatus (s : State) : (writeFits s).intStatus = s.intStatus := rfl
@[simp] theorem writeFits_dim (s : State) : (writeFits s).dim = s.dim := rfl
@[simp] theorem writeFits_imgBase (s : State) : (writeFits s).imgBase = s.imgBase := rfl
@[simp] theorem writeFits_srcBase (s : State) : (writeFits s).srcBase = s.srcBase := rfl
@[simp] theorem writeFits_dstBase (s : State) : (writeFits s).dstBase = s.dstBase := rfl
@[simp] theorem writeFits_len (s : State) : (writeFits s).len = s.len := rfl
@[simp] theorem writeFits_capBits (s : State) : (writeFits s).capBits = s.capBits := rfl
@[simp] theorem writeFits_capBytes (s : State) : (writeFits s).capBytes = s.capBytes := rfl
@[simp] theorem writeFits_progress (s : State) : (writeFits s).progress = s.progress := rfl
@[simp] theorem writeFits_progCount (s : State) : (writeFits s).progCount = s.progCount := rfl
@[simp] theorem writeFits_bitsDone (s : State) : (writeFits s).bitsDone = s.bitsDone := rfl
@[simp] theorem writeFits_pixDone (s : State) : (writeFits s).pixDone = s.pixDone := rfl
@[simp] theorem writeFits_outLen (s : State) : (writeFits s).outLen = s.outLen := rfl
@[simp] theorem writeFits_key (s : State) : (writeFits s).key = s.key := rfl
@[simp] theorem writeFits_iv (s : State) : (writeFits s).iv = s.iv := rfl
@[simp] theorem writeFits_tag (s : State) : (writeFits s).tag = s.tag := rfl
@[simp] theorem writeFits_hid (s : State) : (writeFits s).hid = s.hid := rfl
@[simp] theorem writeFits_rstN (s : State) : (writeFits s).rstN = s.rstN := rfl
@[simp] theorem writeFits_resp (s : State) : (writeFits s).resp = s.resp := rfl
@[simp] theorem writeFits_prog (s : State) : (writeFits s).prog = s.prog := rfl
@[simp] theorem writeFits_mem (s : State) : (writeFits s).mem = s.mem := rfl
@[simp] theorem writeFits_windows (s : State) : (writeFits s).windows = s.windows := rfl
@[simp] theorem writeFits_inbox (s : State) : (writeFits s).inbox = s.inbox := rfl
@[simp] theorem writeFits_racing (s : State) : (writeFits s).racing = s.racing := rfl
@[simp] theorem writeFits_free (s : State) : (writeFits s).free = s.free := rfl

/-! ## setOvr -/

@[simp] theorem setOvr_cfg (s : State) : (setOvr s).cfg = s.cfg := rfl
@[simp] theorem setOvr_status (s : State) : (setOvr s).status = { s.status with ovr := true } := rfl
@[simp] theorem setOvr_error (s : State) : (setOvr s).error = s.error := rfl
@[simp] theorem setOvr_errAddr (s : State) : (setOvr s).errAddr = s.errAddr := rfl
@[simp] theorem setOvr_intEn (s : State) : (setOvr s).intEn = s.intEn := rfl
@[simp] theorem setOvr_intStatus (s : State) : (setOvr s).intStatus = s.intStatus := rfl
@[simp] theorem setOvr_dim (s : State) : (setOvr s).dim = s.dim := rfl
@[simp] theorem setOvr_imgBase (s : State) : (setOvr s).imgBase = s.imgBase := rfl
@[simp] theorem setOvr_srcBase (s : State) : (setOvr s).srcBase = s.srcBase := rfl
@[simp] theorem setOvr_dstBase (s : State) : (setOvr s).dstBase = s.dstBase := rfl
@[simp] theorem setOvr_len (s : State) : (setOvr s).len = s.len := rfl
@[simp] theorem setOvr_capBits (s : State) : (setOvr s).capBits = s.capBits := rfl
@[simp] theorem setOvr_capBytes (s : State) : (setOvr s).capBytes = s.capBytes := rfl
@[simp] theorem setOvr_progress (s : State) : (setOvr s).progress = s.progress := rfl
@[simp] theorem setOvr_progCount (s : State) : (setOvr s).progCount = s.progCount := rfl
@[simp] theorem setOvr_bitsDone (s : State) : (setOvr s).bitsDone = s.bitsDone := rfl
@[simp] theorem setOvr_pixDone (s : State) : (setOvr s).pixDone = s.pixDone := rfl
@[simp] theorem setOvr_outLen (s : State) : (setOvr s).outLen = s.outLen := rfl
@[simp] theorem setOvr_key (s : State) : (setOvr s).key = s.key := rfl
@[simp] theorem setOvr_iv (s : State) : (setOvr s).iv = s.iv := rfl
@[simp] theorem setOvr_tag (s : State) : (setOvr s).tag = s.tag := rfl
@[simp] theorem setOvr_hid (s : State) : (setOvr s).hid = s.hid := rfl
@[simp] theorem setOvr_rstN (s : State) : (setOvr s).rstN = s.rstN := rfl
@[simp] theorem setOvr_resp (s : State) : (setOvr s).resp = s.resp := rfl
@[simp] theorem setOvr_prog (s : State) : (setOvr s).prog = s.prog := rfl
@[simp] theorem setOvr_mem (s : State) : (setOvr s).mem = s.mem := rfl
@[simp] theorem setOvr_windows (s : State) : (setOvr s).windows = s.windows := rfl
@[simp] theorem setOvr_inbox (s : State) : (setOvr s).inbox = s.inbox := rfl
@[simp] theorem setOvr_racing (s : State) : (setOvr s).racing = s.racing := rfl
@[simp] theorem setOvr_free (s : State) : (setOvr s).free = s.free := rfl

/-! ## clearIvu -/

@[simp] theorem clearIvu_cfg (s : State) : (clearIvu s).cfg = s.cfg := rfl
@[simp] theorem clearIvu_status (s : State) : (clearIvu s).status = { s.status with ivu := false } := rfl
@[simp] theorem clearIvu_error (s : State) : (clearIvu s).error = s.error := rfl
@[simp] theorem clearIvu_errAddr (s : State) : (clearIvu s).errAddr = s.errAddr := rfl
@[simp] theorem clearIvu_intEn (s : State) : (clearIvu s).intEn = s.intEn := rfl
@[simp] theorem clearIvu_intStatus (s : State) : (clearIvu s).intStatus = s.intStatus := rfl
@[simp] theorem clearIvu_dim (s : State) : (clearIvu s).dim = s.dim := rfl
@[simp] theorem clearIvu_imgBase (s : State) : (clearIvu s).imgBase = s.imgBase := rfl
@[simp] theorem clearIvu_srcBase (s : State) : (clearIvu s).srcBase = s.srcBase := rfl
@[simp] theorem clearIvu_dstBase (s : State) : (clearIvu s).dstBase = s.dstBase := rfl
@[simp] theorem clearIvu_len (s : State) : (clearIvu s).len = s.len := rfl
@[simp] theorem clearIvu_capBits (s : State) : (clearIvu s).capBits = s.capBits := rfl
@[simp] theorem clearIvu_capBytes (s : State) : (clearIvu s).capBytes = s.capBytes := rfl
@[simp] theorem clearIvu_progress (s : State) : (clearIvu s).progress = s.progress := rfl
@[simp] theorem clearIvu_progCount (s : State) : (clearIvu s).progCount = s.progCount := rfl
@[simp] theorem clearIvu_bitsDone (s : State) : (clearIvu s).bitsDone = s.bitsDone := rfl
@[simp] theorem clearIvu_pixDone (s : State) : (clearIvu s).pixDone = s.pixDone := rfl
@[simp] theorem clearIvu_outLen (s : State) : (clearIvu s).outLen = s.outLen := rfl
@[simp] theorem clearIvu_key (s : State) : (clearIvu s).key = s.key := rfl
@[simp] theorem clearIvu_iv (s : State) : (clearIvu s).iv = s.iv := rfl
@[simp] theorem clearIvu_tag (s : State) : (clearIvu s).tag = s.tag := rfl
@[simp] theorem clearIvu_hid (s : State) : (clearIvu s).hid = s.hid := rfl
@[simp] theorem clearIvu_rstN (s : State) : (clearIvu s).rstN = s.rstN := rfl
@[simp] theorem clearIvu_resp (s : State) : (clearIvu s).resp = s.resp := rfl
@[simp] theorem clearIvu_prog (s : State) : (clearIvu s).prog = s.prog := rfl
@[simp] theorem clearIvu_mem (s : State) : (clearIvu s).mem = s.mem := rfl
@[simp] theorem clearIvu_windows (s : State) : (clearIvu s).windows = s.windows := rfl
@[simp] theorem clearIvu_inbox (s : State) : (clearIvu s).inbox = s.inbox := rfl
@[simp] theorem clearIvu_racing (s : State) : (clearIvu s).racing = s.racing := rfl
@[simp] theorem clearIvu_free (s : State) : (clearIvu s).free = s.free := rfl

/-! ## endOfCommand -/

@[simp] theorem endOfCommand_cfg (s : State) : (endOfCommand s).cfg = s.cfg := rfl
@[simp] theorem endOfCommand_status (s : State) : (endOfCommand s).status = s.status := rfl
@[simp] theorem endOfCommand_error (s : State) : (endOfCommand s).error = s.error := rfl
@[simp] theorem endOfCommand_errAddr (s : State) : (endOfCommand s).errAddr = s.errAddr := rfl
@[simp] theorem endOfCommand_intEn (s : State) : (endOfCommand s).intEn = s.intEn := rfl
@[simp] theorem endOfCommand_intStatus (s : State) : (endOfCommand s).intStatus = s.intStatus := rfl
@[simp] theorem endOfCommand_dim (s : State) : (endOfCommand s).dim = s.dim := rfl
@[simp] theorem endOfCommand_imgBase (s : State) : (endOfCommand s).imgBase = s.imgBase := rfl
@[simp] theorem endOfCommand_srcBase (s : State) : (endOfCommand s).srcBase = s.srcBase := rfl
@[simp] theorem endOfCommand_dstBase (s : State) : (endOfCommand s).dstBase = s.dstBase := rfl
@[simp] theorem endOfCommand_len (s : State) : (endOfCommand s).len = s.len := rfl
@[simp] theorem endOfCommand_capBits (s : State) : (endOfCommand s).capBits = s.capBits := rfl
@[simp] theorem endOfCommand_capBytes (s : State) : (endOfCommand s).capBytes = s.capBytes := rfl
@[simp] theorem endOfCommand_progress (s : State) : (endOfCommand s).progress = s.progress := rfl
@[simp] theorem endOfCommand_progCount (s : State) : (endOfCommand s).progCount = s.progCount := rfl
@[simp] theorem endOfCommand_bitsDone (s : State) : (endOfCommand s).bitsDone = s.bitsDone := rfl
@[simp] theorem endOfCommand_pixDone (s : State) : (endOfCommand s).pixDone = s.pixDone := rfl
@[simp] theorem endOfCommand_outLen (s : State) : (endOfCommand s).outLen = s.outLen := rfl
@[simp] theorem endOfCommand_key (s : State) : (endOfCommand s).key = s.key := rfl
@[simp] theorem endOfCommand_iv (s : State) : (endOfCommand s).iv = s.iv := rfl
@[simp] theorem endOfCommand_tag (s : State) : (endOfCommand s).tag = s.tag := rfl
@[simp] theorem endOfCommand_hid (s : State) : (endOfCommand s).hid = Config.freeHidden s.free := rfl
@[simp] theorem endOfCommand_rstN (s : State) : (endOfCommand s).rstN = s.rstN := rfl
@[simp] theorem endOfCommand_resp (s : State) : (endOfCommand s).resp = s.resp := rfl
@[simp] theorem endOfCommand_prog (s : State) : (endOfCommand s).prog = s.prog := rfl
@[simp] theorem endOfCommand_mem (s : State) : (endOfCommand s).mem = landStores s.hid.op s s.racing 0 s.mem := rfl
@[simp] theorem endOfCommand_windows (s : State) : (endOfCommand s).windows = s.windows := rfl
@[simp] theorem endOfCommand_inbox (s : State) : (endOfCommand s).inbox = s.inbox := rfl
@[simp] theorem endOfCommand_racing (s : State) : (endOfCommand s).racing = [] := rfl
@[simp] theorem endOfCommand_free (s : State) : (endOfCommand s).free = s.free + 1 := rfl

/-! ## writeCapacity: the fields it leaves alone -/

@[simp] theorem writeCapacity_cfg (s : State) : (writeCapacity s).cfg = s.cfg := by
  simp only [writeCapacity]; split <;> rfl
@[simp] theorem writeCapacity_status (s : State) : (writeCapacity s).status = s.status := by
  simp only [writeCapacity]; split <;> rfl
@[simp] theorem writeCapacity_error (s : State) : (writeCapacity s).error = s.error := by
  simp only [writeCapacity]; split <;> rfl
@[simp] theorem writeCapacity_errAddr (s : State) : (writeCapacity s).errAddr = s.errAddr := by
  simp only [writeCapacity]; split <;> rfl
@[simp] theorem writeCapacity_intEn (s : State) : (writeCapacity s).intEn = s.intEn := by
  simp only [writeCapacity]; split <;> rfl
@[simp] theorem writeCapacity_intStatus (s : State) : (writeCapacity s).intStatus = s.intStatus := by
  simp only [writeCapacity]; split <;> rfl
@[simp] theorem writeCapacity_dim (s : State) : (writeCapacity s).dim = s.dim := by
  simp only [writeCapacity]; split <;> rfl
@[simp] theorem writeCapacity_imgBase (s : State) : (writeCapacity s).imgBase = s.imgBase := by
  simp only [writeCapacity]; split <;> rfl
@[simp] theorem writeCapacity_srcBase (s : State) : (writeCapacity s).srcBase = s.srcBase := by
  simp only [writeCapacity]; split <;> rfl
@[simp] theorem writeCapacity_dstBase (s : State) : (writeCapacity s).dstBase = s.dstBase := by
  simp only [writeCapacity]; split <;> rfl
@[simp] theorem writeCapacity_len (s : State) : (writeCapacity s).len = s.len := by
  simp only [writeCapacity]; split <;> rfl
@[simp] theorem writeCapacity_progress (s : State) : (writeCapacity s).progress = s.progress := by
  simp only [writeCapacity]; split <;> rfl
@[simp] theorem writeCapacity_progCount (s : State) : (writeCapacity s).progCount = s.progCount := by
  simp only [writeCapacity]; split <;> rfl
@[simp] theorem writeCapacity_bitsDone (s : State) : (writeCapacity s).bitsDone = s.bitsDone := by
  simp only [writeCapacity]; split <;> rfl
@[simp] theorem writeCapacity_pixDone (s : State) : (writeCapacity s).pixDone = s.pixDone := by
  simp only [writeCapacity]; split <;> rfl
@[simp] theorem writeCapacity_outLen (s : State) : (writeCapacity s).outLen = s.outLen := by
  simp only [writeCapacity]; split <;> rfl
@[simp] theorem writeCapacity_key (s : State) : (writeCapacity s).key = s.key := by
  simp only [writeCapacity]; split <;> rfl
@[simp] theorem writeCapacity_iv (s : State) : (writeCapacity s).iv = s.iv := by
  simp only [writeCapacity]; split <;> rfl
@[simp] theorem writeCapacity_tag (s : State) : (writeCapacity s).tag = s.tag := by
  simp only [writeCapacity]; split <;> rfl
@[simp] theorem writeCapacity_hid (s : State) : (writeCapacity s).hid = s.hid := by
  simp only [writeCapacity]; split <;> rfl
@[simp] theorem writeCapacity_rstN (s : State) : (writeCapacity s).rstN = s.rstN := by
  simp only [writeCapacity]; split <;> rfl
@[simp] theorem writeCapacity_resp (s : State) : (writeCapacity s).resp = s.resp := by
  simp only [writeCapacity]; split <;> rfl
@[simp] theorem writeCapacity_prog (s : State) : (writeCapacity s).prog = s.prog := by
  simp only [writeCapacity]; split <;> rfl
@[simp] theorem writeCapacity_mem (s : State) : (writeCapacity s).mem = s.mem := by
  simp only [writeCapacity]; split <;> rfl
@[simp] theorem writeCapacity_windows (s : State) : (writeCapacity s).windows = s.windows := by
  simp only [writeCapacity]; split <;> rfl
@[simp] theorem writeCapacity_inbox (s : State) : (writeCapacity s).inbox = s.inbox := by
  simp only [writeCapacity]; split <;> rfl
@[simp] theorem writeCapacity_racing (s : State) : (writeCapacity s).racing = s.racing := by
  simp only [writeCapacity]; split <;> rfl
@[simp] theorem writeCapacity_free (s : State) : (writeCapacity s).free = s.free := by
  simp only [writeCapacity]; split <;> rfl

/-! ## pixelCheck: the fields it leaves alone -/

@[simp] theorem pixelCheck_cfg (t : Nat) (s : State) : (pixelCheck t s).cfg = s.cfg := by
  simp only [pixelCheck]; split <;> rfl
@[simp] theorem pixelCheck_status (t : Nat) (s : State) : (pixelCheck t s).status = s.status := by
  simp only [pixelCheck]; split <;> rfl
@[simp] theorem pixelCheck_error (t : Nat) (s : State) : (pixelCheck t s).error = s.error := by
  simp only [pixelCheck]; split <;> rfl
@[simp] theorem pixelCheck_errAddr (t : Nat) (s : State) : (pixelCheck t s).errAddr = s.errAddr := by
  simp only [pixelCheck]; split <;> rfl
@[simp] theorem pixelCheck_intEn (t : Nat) (s : State) : (pixelCheck t s).intEn = s.intEn := by
  simp only [pixelCheck]; split <;> rfl
@[simp] theorem pixelCheck_dim (t : Nat) (s : State) : (pixelCheck t s).dim = s.dim := by
  simp only [pixelCheck]; split <;> rfl
@[simp] theorem pixelCheck_imgBase (t : Nat) (s : State) : (pixelCheck t s).imgBase = s.imgBase := by
  simp only [pixelCheck]; split <;> rfl
@[simp] theorem pixelCheck_srcBase (t : Nat) (s : State) : (pixelCheck t s).srcBase = s.srcBase := by
  simp only [pixelCheck]; split <;> rfl
@[simp] theorem pixelCheck_dstBase (t : Nat) (s : State) : (pixelCheck t s).dstBase = s.dstBase := by
  simp only [pixelCheck]; split <;> rfl
@[simp] theorem pixelCheck_len (t : Nat) (s : State) : (pixelCheck t s).len = s.len := by
  simp only [pixelCheck]; split <;> rfl
@[simp] theorem pixelCheck_capBits (t : Nat) (s : State) : (pixelCheck t s).capBits = s.capBits := by
  simp only [pixelCheck]; split <;> rfl
@[simp] theorem pixelCheck_capBytes (t : Nat) (s : State) : (pixelCheck t s).capBytes = s.capBytes := by
  simp only [pixelCheck]; split <;> rfl
@[simp] theorem pixelCheck_bitsDone (t : Nat) (s : State) : (pixelCheck t s).bitsDone = s.bitsDone := by
  simp only [pixelCheck]; split <;> rfl
@[simp] theorem pixelCheck_outLen (t : Nat) (s : State) : (pixelCheck t s).outLen = s.outLen := by
  simp only [pixelCheck]; split <;> rfl
@[simp] theorem pixelCheck_key (t : Nat) (s : State) : (pixelCheck t s).key = s.key := by
  simp only [pixelCheck]; split <;> rfl
@[simp] theorem pixelCheck_iv (t : Nat) (s : State) : (pixelCheck t s).iv = s.iv := by
  simp only [pixelCheck]; split <;> rfl
@[simp] theorem pixelCheck_tag (t : Nat) (s : State) : (pixelCheck t s).tag = s.tag := by
  simp only [pixelCheck]; split <;> rfl
@[simp] theorem pixelCheck_hid (t : Nat) (s : State) : (pixelCheck t s).hid = s.hid := by
  simp only [pixelCheck]; split <;> rfl
@[simp] theorem pixelCheck_rstN (t : Nat) (s : State) : (pixelCheck t s).rstN = s.rstN := by
  simp only [pixelCheck]; split <;> rfl
@[simp] theorem pixelCheck_resp (t : Nat) (s : State) : (pixelCheck t s).resp = s.resp := by
  simp only [pixelCheck]; split <;> rfl
@[simp] theorem pixelCheck_mem (t : Nat) (s : State) : (pixelCheck t s).mem = s.mem := by
  simp only [pixelCheck]; split <;> rfl
@[simp] theorem pixelCheck_windows (t : Nat) (s : State) : (pixelCheck t s).windows = s.windows := by
  simp only [pixelCheck]; split <;> rfl
@[simp] theorem pixelCheck_inbox (t : Nat) (s : State) : (pixelCheck t s).inbox = s.inbox := by
  simp only [pixelCheck]; split <;> rfl
@[simp] theorem pixelCheck_racing (t : Nat) (s : State) : (pixelCheck t s).racing = s.racing := by
  simp only [pixelCheck]; split <;> rfl
@[simp] theorem pixelCheck_free (t : Nat) (s : State) : (pixelCheck t s).free = s.free := by
  simp only [pixelCheck]; split <;> rfl

/-! ## finalEmission: the fields it leaves alone -/

@[simp] theorem finalEmission_cfg (s : State) : (finalEmission s).cfg = s.cfg := by
  simp only [finalEmission]; split <;> rfl
@[simp] theorem finalEmission_status (s : State) : (finalEmission s).status = s.status := by
  simp only [finalEmission]; split <;> rfl
@[simp] theorem finalEmission_error (s : State) : (finalEmission s).error = s.error := by
  simp only [finalEmission]; split <;> rfl
@[simp] theorem finalEmission_errAddr (s : State) : (finalEmission s).errAddr = s.errAddr := by
  simp only [finalEmission]; split <;> rfl
@[simp] theorem finalEmission_intEn (s : State) : (finalEmission s).intEn = s.intEn := by
  simp only [finalEmission]; split <;> rfl
@[simp] theorem finalEmission_dim (s : State) : (finalEmission s).dim = s.dim := by
  simp only [finalEmission]; split <;> rfl
@[simp] theorem finalEmission_imgBase (s : State) : (finalEmission s).imgBase = s.imgBase := by
  simp only [finalEmission]; split <;> rfl
@[simp] theorem finalEmission_srcBase (s : State) : (finalEmission s).srcBase = s.srcBase := by
  simp only [finalEmission]; split <;> rfl
@[simp] theorem finalEmission_dstBase (s : State) : (finalEmission s).dstBase = s.dstBase := by
  simp only [finalEmission]; split <;> rfl
@[simp] theorem finalEmission_len (s : State) : (finalEmission s).len = s.len := by
  simp only [finalEmission]; split <;> rfl
@[simp] theorem finalEmission_capBits (s : State) : (finalEmission s).capBits = s.capBits := by
  simp only [finalEmission]; split <;> rfl
@[simp] theorem finalEmission_capBytes (s : State) : (finalEmission s).capBytes = s.capBytes := by
  simp only [finalEmission]; split <;> rfl
@[simp] theorem finalEmission_bitsDone (s : State) : (finalEmission s).bitsDone = s.bitsDone := by
  simp only [finalEmission]; split <;> rfl
@[simp] theorem finalEmission_pixDone (s : State) : (finalEmission s).pixDone = s.pixDone := by
  simp only [finalEmission]; split <;> rfl
@[simp] theorem finalEmission_outLen (s : State) : (finalEmission s).outLen = s.outLen := by
  simp only [finalEmission]; split <;> rfl
@[simp] theorem finalEmission_key (s : State) : (finalEmission s).key = s.key := by
  simp only [finalEmission]; split <;> rfl
@[simp] theorem finalEmission_iv (s : State) : (finalEmission s).iv = s.iv := by
  simp only [finalEmission]; split <;> rfl
@[simp] theorem finalEmission_tag (s : State) : (finalEmission s).tag = s.tag := by
  simp only [finalEmission]; split <;> rfl
@[simp] theorem finalEmission_hid (s : State) : (finalEmission s).hid = s.hid := by
  simp only [finalEmission]; split <;> rfl
@[simp] theorem finalEmission_rstN (s : State) : (finalEmission s).rstN = s.rstN := by
  simp only [finalEmission]; split <;> rfl
@[simp] theorem finalEmission_resp (s : State) : (finalEmission s).resp = s.resp := by
  simp only [finalEmission]; split <;> rfl
@[simp] theorem finalEmission_mem (s : State) : (finalEmission s).mem = s.mem := by
  simp only [finalEmission]; split <;> rfl
@[simp] theorem finalEmission_windows (s : State) : (finalEmission s).windows = s.windows := by
  simp only [finalEmission]; split <;> rfl
@[simp] theorem finalEmission_inbox (s : State) : (finalEmission s).inbox = s.inbox := by
  simp only [finalEmission]; split <;> rfl
@[simp] theorem finalEmission_racing (s : State) : (finalEmission s).racing = s.racing := by
  simp only [finalEmission]; split <;> rfl
@[simp] theorem finalEmission_free (s : State) : (finalEmission s).free = s.free := by
  simp only [finalEmission]; split <;> rfl

end Sys2Proof.Machine
end

