-- ==== Sys2Proof/Laws/Checks.lean ====
section
/-! SUPPORT. The start checks as arithmetic: each command's check answers the first failing condition of R335, and passes
exactly on the operands that Safety.lean calls ready. The operands are read from registers that command start leaves
alone. -/

namespace Sys2Proof.Machine

/-! ## Sizes -/

theorem width_eq (s : State) : width s = s.dim.toNat % 65536 := by
  simp [width, BitVec.extractLsb'_toNat]

theorem height_eq (s : State) : height s = s.dim.toNat / 65536 := by
  have := s.dim.isLt
  simp [height, BitVec.extractLsb'_toNat, Nat.shiftRight_eq_div_pow]
  omega

theorem width_lt (s : State) : width s < 65536 := (s.dim.extractLsb' 0 16).isLt

theorem height_lt (s : State) : height s < 65536 := (s.dim.extractLsb' 16 16).isLt

theorem lenBytes_lt (s : State) : lenBytes s < 2 ^ 32 := s.len.isLt

/-- The largest image of R231. -/
theorem pixels_le (s : State) : pixels s ≤ 65535 * 65535 :=
  Nat.mul_le_mul (Nat.le_of_lt_succ (width_lt s)) (Nat.le_of_lt_succ (height_lt s))

theorem capacityBits_le (s : State) : capacityBits s ≤ 12884508675 := by
  have := pixels_le s
  simp only [capacityBits, Config.channels]
  omega

theorem dimIsZero_false {s : State} : dimIsZero s = false ↔ width s ≠ 0 ∧ height s ≠ 0 := by
  simp [dimIsZero]

theorem dimIsZero_true {s : State} : dimIsZero s = true ↔ width s = 0 ∨ height s = 0 := by
  simp [dimIsZero]

/-- A nonzero image has a pixel. -/
theorem pixels_pos {s : State} (h : dimIsZero s = false) : 0 < pixels s := by
  rw [dimIsZero_false] at h
  exact Nat.mul_pos (Nat.pos_of_ne_zero h.1) (Nat.pos_of_ne_zero h.2)

theorem pixels_pos_of_width {s : State} (hw : width s ≠ 0) (hh : height s ≠ 0) : 0 < pixels s :=
  pixels_pos (dimIsZero_false.2 ⟨hw, hh⟩)

theorem fitsLen_true {s : State} : fitsLen s = true ↔ 8 * lenBytes s ≤ 3 * (width s * height s) := by
  simp only [fitsLen, decide_eq_true_eq]
  rfl

theorem fitsLen_false {s : State} : fitsLen s = false ↔ 3 * (width s * height s) < 8 * lenBytes s := by
  rw [← Bool.not_eq_true, fitsLen_true, Nat.not_le]

/-! ## Regions -/

theorem inRange_iff {base : Word} {n : Nat} : inRange base n = true ↔ base.toNat + n ≤ 2 ^ 32 := by
  simp only [inRange, decide_eq_true_eq]
  omega

theorem inRange_eq_wraps {base : Word} {n : Nat} : (!inRange base n) = wraps base n := by
  rw [Bool.eq_iff_iff]
  simp only [inRange, wraps, Bool.not_eq_true', decide_eq_false_iff_not, decide_eq_true_eq]
  omega

theorem overlaps_false {a b : Word} {n m : Nat} :
    overlaps a n b m = false ↔ b.toNat + m ≤ a.toNat ∨ a.toNat + n ≤ b.toNat := by
  simp only [overlaps, Bool.and_eq_false_iff, decide_eq_false_iff_not, Nat.not_lt]

theorem overlaps_eq_meet {a b : Word} {n m : Nat} (hn : 0 < n) (hm : 0 < m) :
    overlaps a n b m = meet a.toNat n b.toNat m := by
  rw [Bool.eq_iff_iff]
  simp only [overlaps, meet, Bool.and_eq_true, decide_eq_true_eq]
  omega

/-! ## Each command's checks -/

/-- What a start check reports: its code, or NONE. -/
theorem embedCheck_first (s : State) : (embedCheck s).getD .none = firstFailing (checksInOrder .embed s) := by
  simp only [embedCheck, checksInOrder, firstFailing]
  cases hd : dimIsZero s
  · have hp := pixels_pos hd
    have hd' := hd
    simp only [dimIsZero] at hd'
    simp only [hd', Bool.false_eq_true, if_false]
    by_cases hl : lenBytes s = 0
    · simp [hl]
    have hfit : (!fitsLen s) = decide (3 * (width s * height s) < 8 * lenBytes s) := by
      rw [Bool.eq_iff_iff, Bool.not_eq_true', fitsLen_false, decide_eq_true_eq]
    have hc : 0 < 3 * (width s * height s) := by simp only [pixels] at hp; omega
    have hl' : 0 < lenBytes s := by omega
    simp only [hl, if_false, beq_iff_eq, hfit, capacityBits, Config.channels, pixels, inRange_eq_wraps,
      overlaps_eq_meet hc hl']
    repeat' split
    all_goals rfl
  · have hd' := hd
    simp only [dimIsZero] at hd'
    simp only [hd', if_true, Option.getD_some]

theorem extractCheck_first (s : State) : (extractCheck s).getD .none = firstFailing (checksInOrder .extract s) := by
  simp only [extractCheck, checksInOrder, firstFailing]
  cases hd : dimIsZero s
  · have hp := pixels_pos hd
    have hd' := hd
    simp only [dimIsZero] at hd'
    simp only [hd', Bool.false_eq_true, if_false]
    have hc : 0 < 3 * (width s * height s) := by simp only [pixels] at hp; omega
    simp only [capacityBytes, capacityBits, Config.channels, pixels, decide_eq_true_eq]
    by_cases hs : 3 * (width s * height s) / 8 < s.cfg.hdrLen.toNat + 1
    · simp [hs]
    have hb : 0 < 3 * (width s * height s) / 8 := by omega
    simp only [hs, if_false, inRange_eq_wraps, overlaps_eq_meet hc hb]
    repeat' split
    all_goals rfl
  · have hd' := hd
    simp only [dimIsZero] at hd'
    simp only [hd', if_true, Option.getD_some]

theorem aeadEncCheck_first (s : State) : (aeadEncCheck s).getD .none = firstFailing (checksInOrder .aeadEnc s) := by
  simp only [aeadEncCheck, aeadRegionCheck, aeadOverlap, checksInOrder, firstFailing]
  by_cases hl : lenBytes s = 0
  · cases s.cfg.hasAead <;> simp [hl]
  have hl' : 0 < lenBytes s := by omega
  simp only [hl, beq_iff_eq, inRange_eq_wraps, overlaps_eq_meet hl' hl']
  repeat' split
  all_goals rfl

theorem aeadDecCheck_first (s : State) : (aeadDecCheck s).getD .none = firstFailing (checksInOrder .aeadDec s) := by
  simp only [aeadDecCheck, aeadRegionCheck, aeadOverlap, checksInOrder, firstFailing]
  by_cases hl : lenBytes s = 0
  · cases s.cfg.hasAead <;> simp [hl]
  have hl' : 0 < lenBytes s := by omega
  simp only [hl, beq_iff_eq, inRange_eq_wraps, overlaps_eq_meet hl' hl']
  repeat' split
  all_goals rfl

/-- EMBED's checks pass exactly on ready operands. -/
theorem embedCheck_none (s : State) : embedCheck s = none ↔ EmbedReady s := by
  constructor
  · intro h
    simp only [embedCheck] at h
    split at h; · cases h
    rename_i h1
    split at h; · cases h
    rename_i h2
    split at h; · cases h
    rename_i h3
    split at h; · cases h
    rename_i h4
    split at h; · cases h
    rename_i h5
    have h1 := dimIsZero_false.1 (by simpa using h1)
    have hp := pixels_pos_of_width h1.1 h1.2
    have h3 := fitsLen_true.1 (by simpa using h3)
    simp only [Bool.or_eq_true, not_or, Bool.not_eq_true, Bool.not_eq_false'] at h4
    have h5 := overlaps_false.1 (by simpa using h5)
    have hc : 0 < capacityBits s := by simp only [capacityBits, Config.channels]; omega
    rw [inRange_iff, inRange_iff] at h4
    simp only [capacityBits, Config.channels, pixels] at *
    exact ⟨h1.1, h1.2, h2, h3, h4.1, h4.2, by omega⟩
  · rintro ⟨hw, hh, hl, hc, hi, hs, ha⟩
    have hp := pixels_pos_of_width hw hh
    have hc' : 0 < capacityBits s := by simp only [capacityBits, Config.channels]; omega
    have h1 : inRange s.imgBase (capacityBits s) = true := inRange_iff.2 hi
    have h2 : inRange s.srcBase (lenBytes s) = true := inRange_iff.2 hs
    have h3 : overlaps s.imgBase (capacityBits s) s.srcBase (lenBytes s) = false :=
      overlaps_false.2 (by simp only [capacityBits, Config.channels, pixels]; omega)
    have h4 : fitsLen s = true := fitsLen_true.2 hc
    simp [embedCheck, dimIsZero_false.2 ⟨hw, hh⟩, hl, h1, h2, h3, h4]

/-- EXTRACT's checks pass exactly on ready operands. -/
theorem extractCheck_none (s : State) : extractCheck s = none ↔ ExtractReady s := by
  constructor
  · intro h
    simp only [extractCheck] at h
    split at h; · cases h
    rename_i h1
    split at h; · cases h
    rename_i h2
    split at h; · cases h
    rename_i h4
    split at h; · cases h
    rename_i h5
    have h1 := dimIsZero_false.1 (by simpa using h1)
    have hp := pixels_pos_of_width h1.1 h1.2
    simp only [Bool.or_eq_true, not_or, Bool.not_eq_true, Bool.not_eq_false'] at h4
    have h5 := overlaps_false.1 (by simpa using h5)
    have hc : 0 < capacityBits s := by simp only [capacityBits, Config.channels]; omega
    rw [inRange_iff, inRange_iff] at h4
    simp only [capacityBytes, capacityBits, Config.channels, pixels] at *
    exact ⟨h1.1, h1.2, by omega, h4.1, h4.2, by omega⟩
  · rintro ⟨hw, hh, hl, hi, hs, ha⟩
    have hp := pixels_pos_of_width hw hh
    have hc' : 0 < capacityBits s := by simp only [capacityBits, Config.channels]; omega
    have h0 : ¬ capacityBytes s < s.cfg.hdrLen.toNat + 1 := by
      simp only [capacityBytes, capacityBits, Config.channels, pixels]; omega
    have h1 : inRange s.imgBase (capacityBits s) = true := inRange_iff.2 hi
    have h2 : inRange s.dstBase (capacityBytes s) = true := inRange_iff.2 hs
    have h3 : overlaps s.imgBase (capacityBits s) s.dstBase (capacityBytes s) = false :=
      overlaps_false.2 (by simp only [capacityBytes, capacityBits, Config.channels, pixels]; omega)
    simp [extractCheck, dimIsZero_false.2 ⟨hw, hh⟩, h0, h1, h2, h3]

/-- The checks both AEAD commands share pass exactly on ready operands. -/
theorem aeadDecCheck_none (s : State) : aeadDecCheck s = none ↔ AeadReady s := by
  constructor
  · intro h
    simp only [aeadDecCheck, aeadRegionCheck] at h
    split at h; · cases h
    rename_i h1
    split at h; · cases h
    rename_i h2
    split at h; · cases h
    rename_i h4
    split at h; · cases h
    rename_i h5
    simp only [Bool.or_eq_true, not_or, Bool.not_eq_true, Bool.not_eq_false'] at h4
    rw [inRange_iff, inRange_iff] at h4
    simp only [aeadOverlap, Bool.and_eq_true, not_and, Bool.not_eq_true, bne_eq_false_iff_eq] at h5
    refine ⟨by simpa using h1, h2, h4.1, h4.2, ?_⟩
    cases ho : overlaps s.srcBase (lenBytes s) s.dstBase (lenBytes s)
    · have := overlaps_false.1 ho
      omega
    · exact .inl (h5 ho)
  · rintro ⟨hp, hl, hs, hd, ha⟩
    have h1 : inRange s.srcBase (lenBytes s) = true := inRange_iff.2 hs
    have h2 : inRange s.dstBase (lenBytes s) = true := inRange_iff.2 hd
    have h3 : aeadOverlap s = false := by
      simp only [aeadOverlap, Bool.and_eq_false_iff, bne_eq_false_iff_eq]
      rcases ha with ha | ha
      · exact .inr ha
      · exact .inl (overlaps_false.2 (by omega))
    simp [aeadDecCheck, aeadRegionCheck, hp, hl, h1, h2, h3]

theorem aeadEncCheck_none (s : State) : aeadEncCheck s = none ↔ AeadReady s ∧ s.status.ivu = false := by
  rw [← aeadDecCheck_none]
  simp only [aeadEncCheck, aeadDecCheck]
  cases s.cfg.hasAead <;> cases s.status.ivu <;> by_cases h : lenBytes s = 0 <;> simp [h]

/-! ## Regions -/

theorem Region.holds_iff {r : Region} {a : Nat} : r.holds a = true ↔ Within r.base r.size a := by
  simp [Region.holds, Within]

/-- The regions of a command are the one it only reads and the one it writes (R107). -/
theorem inRegions_iff {i : Instr} {s : State} {a : Nat} :
    inRegions i s a = true ↔ ReadBy i s a ∨ WrittenBy i s a := by
  cases i <;>
    simp only [inRegions, regions, List.any_cons, List.any_nil, Bool.or_false, Bool.or_eq_true, Region.holds_iff, ReadBy,
      WrittenBy, Bool.false_eq_true, or_self]
  · exact or_comm
  · exact Iff.rfl

theorem inWritten_iff {i : Instr} {s : State} {a : Nat} : inWritten i s a = true ↔ WrittenBy i s a := by
  cases i <;>
    simp only [inWritten, regions, List.any_cons, List.any_nil, Bool.or_false, Bool.or_eq_true, Bool.and_eq_true,
      Region.holds_iff, WrittenBy, Bool.false_eq_true, true_and, false_and, false_or, or_false] <;>
    exact Iff.rfl

/-! ## Command start leaves the operands alone -/

@[simp] theorem embedCheck_start (s : State) :
    embedCheck (writeFits (writeCapacity (clearCommand s))) = embedCheck s := by
  simp only [writeCapacity]
  split <;> rfl

@[simp] theorem extractCheck_start (s : State) : extractCheck (writeCapacity (clearCommand s)) = extractCheck s := by
  simp only [writeCapacity]
  split <;> rfl

@[simp] theorem aeadEncCheck_start (s : State) : aeadEncCheck (clearCommand s) = aeadEncCheck s := rfl

@[simp] theorem aeadDecCheck_start (s : State) : aeadDecCheck (clearCommand s) = aeadDecCheck s := rfl

end Sys2Proof.Machine
end

