-- ==== Sys2Proof/Laws/Memory.lean ====
section
/-! SUPPORT. The laws of memory: a read after a write, the canonical form is kept, and equal reads mean equal memories. -/

namespace Sys2Proof.Machine

theorem memRead_memCons (a x : Nat) (v : Byte) (m : Memory) (h : v = unlistedByte → memRead m a = v) :
    memRead (memCons a v m) x = if x = a then v else memRead m x := by
  unfold memCons
  split
  · rename_i hv
    split
    · subst_vars; exact h rfl
    · rfl
  · simp only [memRead, eq_comm]

/-- A list in canonical form from `lo` on reads 0 below `lo`. -/
theorem memRead_below {lo : Nat} {m : Memory} (h : memWfFrom lo m = true) {x : Nat} (hx : x < lo) :
    memRead m x = unlistedByte := by
  induction m generalizing lo with
  | nil => rfl
  | cons c rest ih =>
    obtain ⟨b, w⟩ := c
    simp only [memWfFrom, Bool.and_eq_true, decide_eq_true_eq] at h
    rw [memRead, if_neg (by omega)]
    exact ih h.2 (by omega)

theorem memWfFrom_mono {lo hi : Nat} {m : Memory} (h : memWfFrom hi m = true) (hle : lo ≤ hi) :
    memWfFrom lo m = true := by
  cases m with
  | nil => rfl
  | cons c rest =>
    obtain ⟨b, w⟩ := c
    simp only [memWfFrom, Bool.and_eq_true, decide_eq_true_eq] at h ⊢
    exact ⟨⟨⟨by omega, h.1.1.2⟩, h.1.2⟩, h.2⟩

/-- A write leaves every other byte alone. -/
theorem memRead_memWrite_ne (m : Memory) {a x : Nat} (v : Byte) (hx : x ≠ a) :
    memRead (memWrite m a v) x = memRead m x := by
  have cons_ne : ∀ m' : Memory, memRead (memCons a v m') x = memRead m' x := by
    intro m'
    unfold memCons
    split
    · rfl
    · rw [memRead, if_neg (by omega)]
  induction m with
  | nil => rw [memWrite, cons_ne]
  | cons c rest ih =>
    obtain ⟨b, w⟩ := c
    rw [memWrite]
    split
    · rw [cons_ne]
    split
    · rw [cons_ne, memRead, if_neg (by omega)]
    · rw [memRead, memRead, ih]

/-- A read of the byte just written gives the value written. -/
theorem memRead_memWrite_same {lo : Nat} {m : Memory} (h : memWfFrom lo m = true) (a : Nat) (v : Byte) :
    memRead (memWrite m a v) a = v := by
  induction m generalizing lo with
  | nil => rw [memWrite, memRead_memCons _ _ _ _ (fun hv => hv ▸ rfl), if_pos rfl]
  | cons c rest ih =>
    obtain ⟨b, w⟩ := c
    have h' := h
    simp only [memWfFrom, Bool.and_eq_true, decide_eq_true_eq] at h
    rw [memWrite]
    split
    · rename_i hab
      have hlow : memRead ((b, w) :: rest) a = unlistedByte := by
        rw [memRead, if_neg (by omega)]
        exact memRead_below h.2 (by omega)
      rw [memRead_memCons _ _ _ _ (fun hv => hv ▸ hlow), if_pos rfl]
    split
    · rename_i hab
      have hlow : memRead rest a = unlistedByte := memRead_below h.2 (by omega)
      rw [memRead_memCons _ _ _ _ (fun hv => hv ▸ hlow), if_pos rfl]
    · rw [memRead, if_neg (by omega)]
      exact ih h.2

/-- Reading after one write, at any address. -/
theorem memRead_memWrite {m : Memory} (h : Memory.wf m = true) (a x : Nat) (v : Byte) :
    memRead (memWrite m a v) x = if x = a then v else memRead m x := by
  split
  · subst_vars; exact memRead_memWrite_same h _ v
  · exact memRead_memWrite_ne m v ‹_›

theorem memWfFrom_memCons {lo a : Nat} {v : Byte} {m : Memory} (h : memWfFrom (a + 1) m = true) (hlo : lo ≤ a)
    (ha : a < 2 ^ 32) : memWfFrom lo (memCons a v m) = true := by
  unfold memCons
  split
  · exact memWfFrom_mono h (by omega)
  · rename_i hv
    simp only [memWfFrom, Bool.and_eq_true, decide_eq_true_eq, bne_iff_ne]
    exact ⟨⟨⟨hlo, ha⟩, hv⟩, h⟩

/-- A write inside the address space keeps the canonical form. -/
theorem memWrite_wfFrom {lo : Nat} {m : Memory} (h : memWfFrom lo m = true) {a : Nat} (hlo : lo ≤ a) (ha : a < 2 ^ 32)
    (v : Byte) : memWfFrom lo (memWrite m a v) = true := by
  induction m generalizing lo with
  | nil => exact memWfFrom_memCons rfl hlo ha
  | cons c rest ih =>
    obtain ⟨b, w⟩ := c
    have h' := h
    simp only [memWfFrom, Bool.and_eq_true, decide_eq_true_eq] at h
    rw [memWrite]
    split
    · refine memWfFrom_memCons ?_ hlo ha
      simp only [memWfFrom, Bool.and_eq_true, decide_eq_true_eq]
      exact ⟨⟨⟨by omega, h.1.1.2⟩, h.1.2⟩, h.2⟩
    split
    · refine memWfFrom_memCons ?_ hlo ha
      rename_i hab
      rw [hab]
      exact h.2
    · simp only [memWfFrom, Bool.and_eq_true, decide_eq_true_eq]
      exact ⟨h.1, ih h.2 (by omega)⟩

theorem memWrite_wf {m : Memory} (h : Memory.wf m = true) {a : Nat} (ha : a < 2 ^ 32) (v : Byte) :
    Memory.wf (memWrite m a v) = true := memWrite_wfFrom h (Nat.zero_le a) ha v

theorem mem_ext_from {lo : Nat} {m n : Memory} (hm : memWfFrom lo m = true) (hn : memWfFrom lo n = true)
    (h : ∀ a, memRead m a = memRead n a) : m = n := by
  induction m generalizing lo n with
  | nil =>
    cases n with
    | nil => rfl
    | cons c rest =>
      obtain ⟨b, w⟩ := c
      simp only [memWfFrom, Bool.and_eq_true, decide_eq_true_eq, bne_iff_ne] at hn
      have := h b
      rw [memRead, memRead, if_pos rfl] at this
      exact absurd this.symm hn.1.2
  | cons c rest ih =>
    obtain ⟨b, w⟩ := c
    simp only [memWfFrom, Bool.and_eq_true, decide_eq_true_eq, bne_iff_ne] at hm
    cases n with
    | nil =>
      have := h b
      rw [memRead, memRead, if_pos rfl] at this
      exact absurd this hm.1.2
    | cons c' rest' =>
      obtain ⟨b', w'⟩ := c'
      simp only [memWfFrom, Bool.and_eq_true, decide_eq_true_eq, bne_iff_ne] at hn
      have hb : b = b' := by
        rcases Nat.lt_trichotomy b b' with hlt | heq | hgt
        · have := h b
          rw [memRead, if_pos rfl, memRead, if_neg (by omega), memRead_below hn.2 (by omega)] at this
          exact absurd this hm.1.2
        · exact heq
        · have := h b'
          rw [memRead, if_neg (by omega), memRead_below hm.2 (by omega), memRead, if_pos rfl] at this
          exact absurd this.symm hn.1.2
      subst hb
      have hw : w = w' := by
        have := h b
        rwa [memRead, if_pos rfl, memRead, if_pos rfl] at this
      subst hw
      have : rest = rest' := by
        refine ih hm.2 hn.2 fun a => ?_
        have ha := h a
        rw [memRead, memRead] at ha
        split at ha
        · rw [memRead_below hm.2 (by omega), memRead_below hn.2 (by omega)]
        · exact ha
      rw [this]

/-- Memories in canonical form that read the same at every address are the same data. -/
theorem mem_ext {m n : Memory} (hm : Memory.wf m = true) (hn : Memory.wf n = true)
    (h : ∀ a, memRead m a = memRead n a) : m = n := mem_ext_from hm hn h

end Sys2Proof.Machine
end

