-- ==== Sys2Proof/Laws/Ops.lean ====
section
/-! SUPPORT. One law per shared operation of Machine/Ops.lean: the bus, racing stores, and the end of a command. -/

namespace Sys2Proof.Machine

/-! ## Addresses and the bus -/

/-- An address below 2^32 does not wrap. -/
theorem byteAddr_toNat {base : Word} {i : Nat} (h : base.toNat + i < 2 ^ 32) :
    (byteAddr base i).toNat = base.toNat + i := by
  simp only [byteAddr, BitVec.toNat_add, BitVec.toNat_ofNat]
  omega

theorem busRead_okay {s : State} {a : Word} (h : readErr s a.toNat = false) :
    busRead s a = some (readByte s a.toNat) := by
  rw [busRead, h]; rfl

theorem busRead_error {s : State} {a : Word} (h : readErr s a.toNat = true) : busRead s a = none := by
  rw [busRead, h]; rfl

theorem busWrite_okay {s : State} {a : Word} {v : Byte} (h : writeErr s a.toNat = false) :
    busWrite s a v = some { s with mem := memWrite s.mem a.toNat v } := by
  rw [busWrite, h]; rfl

theorem busWrite_error {s : State} {a : Word} {v : Byte} (h : writeErr s a.toNat = true) : busWrite s a v = none := by
  rw [busWrite, h]; rfl

/-- A bus write that answers OKAY changes memory alone. -/
theorem busWrite_some {s t : State} {a : Word} {v : Byte} (h : busWrite s a v = some t) :
    writeErr s a.toNat = false ∧ t = { s with mem := memWrite s.mem a.toNat v } := by
  rw [busWrite] at h
  split at h
  · cases h
  · rename_i hw
    exact ⟨by simpa using hw, (Option.some.inj h).symm⟩

/-- With no racing store, the engine reads memory. -/
theorem readByte_quiet {s : State} (h : s.racing = []) (a : Nat) : readByte s a = memRead s.mem a := by
  simp [readByte, racingAt, h]

/-! ## Racing stores -/

theorem mem_racingAt {s : State} {a : Nat} {v : Byte} : v ∈ racingAt s a ↔ (a, v) ∈ s.racing := by
  simp [racingAt]

/-- All that a read by the engine can give: the byte in memory, or a byte that the host stored there in a race. -/
theorem readByte_cases (s : State) (a : Nat) : readByte s a = memRead s.mem a ∨ (a, readByte s a) ∈ s.racing := by
  rw [← mem_racingAt]
  simp only [readByte]
  split
  · exact .inl rfl
  · rw [List.getD_eq_getElem?_getD, List.getElem?_eq_getElem (by simpa using Nat.mod_lt _ (Nat.succ_pos _))]
    exact (List.mem_cons.1 (List.getElem_mem _)).imp id id

/-- A host store while the block is idle, or outside the command's regions, is in memory at once. -/
theorem hostStore_memory {a : Word} {v : Byte} {s : State}
    (h : s.status.busy = false ∨ inRegions s.hid.op s a.toNat = false) :
    hostStore a v s = { s with mem := memWrite s.mem a.toNat v } := by
  rw [hostStore, if_neg]
  rcases h with h | h <;> simp [h]

/-- A host store into the running command's regions is set aside. -/
theorem hostStore_races {a : Word} {v : Byte} {s : State} (hb : s.status.busy = true)
    (h : inRegions s.hid.op s a.toNat = true) :
    hostStore a v s = { s with racing := s.racing ++ [(a.toNat, v)] } := by
  rw [hostStore, if_pos (by simp [hb, h])]

/-- Racing stores change no byte that the host has not stored to. -/
theorem landStores_frame (i : Instr) (s : State) (cs : List Host.Cell) (n : Nat) (m : Memory) (a : Nat)
    (h : ∀ v, (a, v) ∉ cs) : memRead (landStores i s cs n m) a = memRead m a := by
  induction cs generalizing n m with
  | nil => rfl
  | cons c rest ih =>
    obtain ⟨b, v⟩ := c
    rw [landStores, ih]
    · split
      · exact memRead_memWrite_ne _ _ (fun hab => h v (by simp [hab]))
      · rfl
    · intro w hw; exact h w (List.mem_cons_of_mem _ hw)

/-- Racing stores to addresses of the space keep memory canonical. -/
theorem landStores_wf (i : Instr) (s : State) (cs : List Host.Cell) (n : Nat) (m : Memory)
    (hcs : ∀ c ∈ cs, c.1 < 2 ^ 32) (hm : Memory.wf m = true) : Memory.wf (landStores i s cs n m) = true := by
  induction cs generalizing n m with
  | nil => exact hm
  | cons c rest ih =>
    obtain ⟨b, v⟩ := c
    rw [landStores]
    refine ih _ _ (fun c hc => hcs c (List.mem_cons_of_mem _ hc)) ?_
    split
    · exact memWrite_wf hm (hcs _ List.mem_cons_self) v
    · exact hm

/-- All that a byte can be once the racing stores have landed: what it was, or a byte stored there. -/
theorem landStores_cases (i : Instr) (s : State) {cs : List Host.Cell} {m : Memory} (hm : Memory.wf m = true)
    (hcs : ∀ c ∈ cs, c.1 < 2 ^ 32) (n a : Nat) :
    memRead (landStores i s cs n m) a = memRead m a ∨ (a, memRead (landStores i s cs n m) a) ∈ cs := by
  induction cs generalizing n m with
  | nil => exact .inl rfl
  | cons c rest ih =>
    obtain ⟨b, v⟩ := c
    have hrest : ∀ c ∈ rest, c.1 < 2 ^ 32 := fun c hc => hcs c (List.mem_cons_of_mem _ hc)
    simp only [landStores]
    split
    · rcases ih (memWrite_wf hm (hcs _ List.mem_cons_self) v) hrest (n + 1) with h | h
      · rw [h, memRead_memWrite hm]
        split
        · exact .inr (by simp [*])
        · exact .inl rfl
      · exact .inr (List.mem_cons_of_mem _ h)
    · exact (ih hm hrest (n + 1)).imp id (List.mem_cons_of_mem _)

/-- Where the command does not write, the last racing store stands in the end. -/
theorem landStores_last (i : Instr) (s : State) {a : Nat} {v : Byte} {later : List Host.Cell} (hl : ∀ w, (a, w) ∉ later)
    (ha : inWritten i s a = false) (earlier : List Host.Cell) {m : Memory} (hm : Memory.wf m = true)
    (hcs : ∀ c ∈ earlier, c.1 < 2 ^ 32) (n : Nat) :
    memRead (landStores i s (earlier ++ (a, v) :: later) n m) a = v := by
  induction earlier generalizing n m with
  | nil =>
    rw [List.nil_append, landStores, landStores_frame _ _ _ _ _ _ hl]
    simp only [ha, Bool.not_false, Bool.true_or, if_true]
    exact memRead_memWrite_same hm _ _
  | cons c rest ih =>
    obtain ⟨b, w⟩ := c
    have hrest : ∀ c ∈ rest, c.1 < 2 ^ 32 := fun c hc => hcs c (List.mem_cons_of_mem _ hc)
    rw [List.cons_append, landStores]
    split
    · exact ih (memWrite_wf hm (hcs _ List.mem_cons_self) w) hrest _
    · exact ih hm hrest _

/-! ## After a command's step -/

/-- A step that ends a command, with no racing store: the hidden state becomes open, and nothing else. -/
theorem afterExec_idle {s : State} (h : s.status.busy = false) (hr : s.racing = []) :
    afterExec s = { s with hid := Config.freeHidden s.free, free := s.free + 1 } := by
  unfold afterExec endOfCommand
  simp [h, hr, landStores]

/-- A step of a command that goes on, with no racing store, is exec's. -/
theorem afterExec_busy {s : State} (h : s.status.busy = true) (hr : s.racing = []) : afterExec s = s := by
  unfold afterExec
  simp [h, hr]

end Sys2Proof.Machine
end

