-- ==== Sys2Proof/Laws/Aead.lean ====
section
/-! SUPPORT. The AEAD commands: every outcome of their engine steps. -/

namespace Sys2Proof.Machine

/-- Byte `j` of a word made of four bytes (R113, R205). -/
theorem wordByte_wordOfBytes (b0 b1 b2 b3 : Byte) :
    wordByte (wordOfBytes b0 b1 b2 b3) 0 = b0 ∧ wordByte (wordOfBytes b0 b1 b2 b3) 1 = b1 ∧
    wordByte (wordOfBytes b0 b1 b2 b3) 2 = b2 ∧ wordByte (wordOfBytes b0 b1 b2 b3) 3 = b3 := by
  simp only [wordByte, wordOfBytes]
  refine ⟨?_, ?_, ?_, ?_⟩ <;>
    (apply BitVec.eq_of_getLsbD_eq
     intro i hi
     simp only [BitVec.getLsbD_extractLsb', BitVec.getLsbD_append, hi, decide_true, Bool.true_and]
     repeat (split <;> try omega)
     congr 1 <;> omega)

/-- The tag that TAG0 to TAG3 hold is the one packed into them (R205). -/
theorem tagBytes_packTag {s : State} {t : Tag} (h : s.tag = packTag t) : tagBytes s = t := by
  apply Vector.ext
  intro n hn
  simp only [tagBytes, h, packTag, Vector.getElem_ofFn]
  have e := wordByte_wordOfBytes (t[4 * (n / 4)]'(by omega)) (t[4 * (n / 4) + 1]'(by omega))
    (t[4 * (n / 4) + 2]'(by omega)) (t[4 * (n / 4) + 3]'(by omega))
  have h : n % 4 = 0 ∨ n % 4 = 1 ∨ n % 4 = 2 ∨ n % 4 = 3 := by omega
  rcases h with h | h | h | h <;> rw [h]
  · rw [e.1]; congr 1; omega
  · rw [e.2.1]; congr 1; omega
  · rw [e.2.2.1]; congr 1; omega
  · rw [e.2.2.2]; congr 1; omega

/-- AEAD_ENC's state once byte H.k has been read, encrypted and written (R206). -/
def encByteDone (s : State) : State :=
  let c := readByte s (byteAddr s.srcBase s.hid.k).toNat ^^^ ksByte s s.hid.k
  { s with
    mem := memWrite s.mem (byteAddr s.dstBase s.hid.k).toNat c
    hid := { s.hid with ct := s.hid.ct ++ [c], k := s.hid.k + 1 }
    outLen := BitVec.ofNat 32 (s.hid.k + 1) }

/-- AEAD_DEC's state once byte H.k has been read again, decrypted and written (R208). -/
def decByteDone (s : State) : State :=
  { s with
    mem := memWrite s.mem (byteAddr s.dstBase s.hid.k).toNat
      (readByte s (byteAddr s.srcBase s.hid.k).toNat ^^^ ksByte s s.hid.k)
    hid := { s.hid with ct := s.hid.ct ++ [readByte s (byteAddr s.srcBase s.hid.k).toNat], k := s.hid.k + 1 }
    outLen := BitVec.ofNat 32 (s.hid.k + 1) }

/-- AEAD_DEC's state once byte H.k has been read and accumulated (R208). -/
def authByteDone (s : State) : State :=
  { s with hid := { s.hid with
      ct := s.hid.ct ++ [readByte s (byteAddr s.srcBase s.hid.k).toNat], k := s.hid.k + 1 } }

theorem aeadEncStep_okay {s : State} (hr : readErr s (byteAddr s.srcBase s.hid.k).toNat = false)
    (hw : writeErr s (byteAddr s.dstBase s.hid.k).toNat = false) :
    aeadEncStep s =
      if s.hid.k + 1 = lenBytes s then
        complete { encByteDone s with tag := packTag (tagOf s (encByteDone s).hid.ct) }
      else encByteDone s := by
  simp only [aeadEncStep, busRead_okay hr, busWrite_okay hw]
  rfl

theorem aeadEncStep_readErr {s : State} (hr : readErr s (byteAddr s.srcBase s.hid.k).toNat = true) :
    aeadEncStep s = failAt .bus (byteAddr s.srcBase s.hid.k) s := by
  simp only [aeadEncStep, busRead_error hr]

theorem aeadEncStep_writeErr {s : State} (hr : readErr s (byteAddr s.srcBase s.hid.k).toNat = false)
    (hw : writeErr s (byteAddr s.dstBase s.hid.k).toNat = true) :
    aeadEncStep s = failAt .bus (byteAddr s.dstBase s.hid.k) s := by
  simp only [aeadEncStep, busRead_okay hr, busWrite_error hw]

/-- Every outcome of an engine step of AEAD_ENC. -/
theorem aeadEncStep_cases (s : State) :
    (∃ a, aeadEncStep s = failAt .bus a s) ∨
    (writeErr s (byteAddr s.dstBase s.hid.k).toNat = false ∧
      aeadEncStep s =
        if s.hid.k + 1 = lenBytes s then
          complete { encByteDone s with tag := packTag (tagOf s (encByteDone s).hid.ct) }
        else encByteDone s) := by
  cases hr : readErr s (byteAddr s.srcBase s.hid.k).toNat
  · cases hw : writeErr s (byteAddr s.dstBase s.hid.k).toNat
    · exact .inr ⟨rfl, aeadEncStep_okay hr hw⟩
    · exact .inl ⟨_, aeadEncStep_writeErr hr hw⟩
  · exact .inl ⟨_, aeadEncStep_readErr hr⟩

theorem aeadAuthStep_okay {s : State} (hr : readErr s (byteAddr s.srcBase s.hid.k).toNat = false) :
    aeadAuthStep s =
      if s.hid.k + 1 = lenBytes s then
        if tagOf s (authByteDone s).hid.ct ≠ tagBytes s then fail .auth (authByteDone s)
        else { authByteDone s with hid := { (authByteDone s).hid with phase := .writePass, k := 0, ct := [] } }
      else authByteDone s := by
  simp only [aeadAuthStep, busRead_okay hr]
  rfl

theorem aeadAuthStep_readErr {s : State} (hr : readErr s (byteAddr s.srcBase s.hid.k).toNat = true) :
    aeadAuthStep s = failAt .bus (byteAddr s.srcBase s.hid.k) s := by
  simp only [aeadAuthStep, busRead_error hr]

/-- Every outcome of an engine step of AEAD_DEC in AUTH_PASS. -/
theorem aeadAuthStep_cases (s : State) :
    (∃ a, aeadAuthStep s = failAt .bus a s) ∨
    aeadAuthStep s =
      if s.hid.k + 1 = lenBytes s then
        if tagOf s (authByteDone s).hid.ct ≠ tagBytes s then fail .auth (authByteDone s)
        else { authByteDone s with hid := { (authByteDone s).hid with phase := .writePass, k := 0, ct := [] } }
      else authByteDone s := by
  cases hr : readErr s (byteAddr s.srcBase s.hid.k).toNat
  · exact .inr (aeadAuthStep_okay hr)
  · exact .inl ⟨_, aeadAuthStep_readErr hr⟩

theorem aeadWriteStep_okay {s : State} (hr : readErr s (byteAddr s.srcBase s.hid.k).toNat = false)
    (hw : writeErr s (byteAddr s.dstBase s.hid.k).toNat = false) :
    aeadWriteStep s = if s.hid.k + 1 = lenBytes s then complete (decByteDone s) else decByteDone s := by
  simp only [aeadWriteStep, busRead_okay hr, busWrite_okay hw]
  rfl

theorem aeadWriteStep_readErr {s : State} (hr : readErr s (byteAddr s.srcBase s.hid.k).toNat = true) :
    aeadWriteStep s = failAt .bus (byteAddr s.srcBase s.hid.k) s := by
  simp only [aeadWriteStep, busRead_error hr]

theorem aeadWriteStep_writeErr {s : State} (hr : readErr s (byteAddr s.srcBase s.hid.k).toNat = false)
    (hw : writeErr s (byteAddr s.dstBase s.hid.k).toNat = true) :
    aeadWriteStep s = failAt .bus (byteAddr s.dstBase s.hid.k) s := by
  simp only [aeadWriteStep, busRead_okay hr, busWrite_error hw]

/-- Every outcome of an engine step of AEAD_DEC in WRITE_PASS. -/
theorem aeadWriteStep_cases (s : State) :
    (∃ a, aeadWriteStep s = failAt .bus a s) ∨
    (writeErr s (byteAddr s.dstBase s.hid.k).toNat = false ∧
      aeadWriteStep s = if s.hid.k + 1 = lenBytes s then complete (decByteDone s) else decByteDone s) := by
  cases hr : readErr s (byteAddr s.srcBase s.hid.k).toNat
  · cases hw : writeErr s (byteAddr s.dstBase s.hid.k).toNat
    · exact .inr ⟨rfl, aeadWriteStep_okay hr hw⟩
    · exact .inl ⟨_, aeadWriteStep_writeErr hr hw⟩
  · exact .inl ⟨_, aeadWriteStep_readErr hr⟩

end Sys2Proof.Machine
end

