-- ==== Sys2Proof/Laws/BitPacker.lean ====
section
/-! SUPPORT. The bit packer, one byte at a time, and the list of bytes that a region of memory holds. -/

namespace Sys2Proof.Machine

theorem byteBits_length (b : Byte) : (byteBits b).length = 8 := rfl

/-- Bit `k` of a byte, counted from the first (R251). -/
theorem byteBits_getElem (b : Byte) (k : Nat) (h : k < 8) : (byteBits b)[k]? = some (b.getLsbD (7 - k)) := by
  have : k = 0 ∨ k = 1 ∨ k = 2 ∨ k = 3 ∨ k = 4 ∨ k = 5 ∨ k = 6 ∨ k = 7 := by omega
  rcases this with rfl | rfl | rfl | rfl | rfl | rfl | rfl | rfl <;> rfl

theorem bits_cons (b : Byte) (rest : List Byte) : bits (b :: rest) = byteBits b ++ bits rest := rfl

/-- A byte is the sum of its bits' weights (R252). -/
theorem byteOfBits_toNat (b0 b1 b2 b3 b4 b5 b6 b7 : Bool) :
    (byteOfBits b0 b1 b2 b3 b4 b5 b6 b7).toNat =
      b0.toNat * 128 + b1.toNat * 64 + b2.toNat * 32 + b3.toNat * 16 + b4.toNat * 8 + b5.toNat * 4 + b6.toNat * 2 +
        b7.toNat := by
  revert b0 b1 b2 b3 b4 b5 b6 b7; decide +kernel

theorem byteOfBits_byteBits (b : Byte) :
    byteOfBits (b.getLsbD 7) (b.getLsbD 6) (b.getLsbD 5) (b.getLsbD 4) (b.getLsbD 3) (b.getLsbD 2) (b.getLsbD 1)
      (b.getLsbD 0) = b := by
  revert b; decide +kernel

theorem byteBits_byteOfBits (b0 b1 b2 b3 b4 b5 b6 b7 : Bool) :
    byteBits (byteOfBits b0 b1 b2 b3 b4 b5 b6 b7) = [b0, b1, b2, b3, b4, b5, b6, b7] := by
  revert b0 b1 b2 b3 b4 b5 b6 b7; decide +kernel

/-- Fewer than eight bits make no byte (R252). -/
theorem bytes_short (b : List Bool) (h : b.length < 8) : bytes b = [] := by
  unfold bytes
  split
  · simp at h; omega
  · rfl

/-- R274, as a choice by the bit. -/
theorem withLsb_eq : ∀ (b : Byte) (v : Bool), withLsb b v = (b &&& 0xFE) ||| (if v then 1 else 0) := by decide +kernel

/-- R302's shift, as arithmetic. -/
theorem shiftIn_eq (acc : Byte) (k : Nat) (bit : Bool) :
    shiftIn acc k bit =
      if k % 8 = 0 then (if bit then 1 else 0) else BitVec.ofNat 8 (2 * acc.toNat) ||| (if bit then 1 else 0) := by
  have h : ∀ (acc : Byte) (bit : Bool),
      ((BitVec.ofBool bit).setWidth 8 = if bit then (1 : Byte) else 0) ∧
      ((acc <<< 1) ||| (BitVec.ofBool bit).setWidth 8) = BitVec.ofNat 8 (2 * acc.toNat) ||| (if bit then 1 else 0) := by
    decide +kernel
  rw [shiftIn, (h acc bit).2, (h acc bit).1]

theorem memBytes_length (m : Memory) (a n : Nat) : (memBytes m a n).length = n := by simp [memBytes]

theorem memBytes_getD (m : Memory) (a n i : Nat) (h : i < n) : (memBytes m a n).getD i 0 = memRead m (a + i) := by
  simp [memBytes, List.getD_eq_getElem?_getD, h]

end Sys2Proof.Machine
end

