-- ==== Sys2Proof/Laws/Capacity.lean ====
section
/-! SUPPORT. The capacity planner: what writeCapacity and writeFits write, and the start step of CAPQ. -/

namespace Sys2Proof.Machine

theorem dimIsZero_congr {s t : State} (h : t.dim = s.dim) : dimIsZero t = dimIsZero s := by
  simp only [dimIsZero, width, height, h]

theorem fitsLen_congr {s t : State} (h : t.dim = s.dim) (hl : t.len = s.len) : fitsLen t = fitsLen s := by
  have h1 : requiredBits t = requiredBits s := by simp only [requiredBits, lenBytes, hl]
  have h2 : capacityBits t = capacityBits s := by simp only [capacityBits, pixels, width, height, h]
  rw [fitsLen, h1, h2, fitsLen]

theorem writeCapacity_ok {s : State} (h : dimIsZero s = false) :
    writeCapacity s = { s with
      capBits := BitVec.ofNat 34 (capacityBits s), capBytes := BitVec.ofNat 32 (capacityBytes s) } := by
  rw [writeCapacity, h]; rfl

theorem writeCapacity_zero {s : State} (h : dimIsZero s = true) :
    writeCapacity s = { s with capBits := 0, capBytes := 0 } := by
  rw [writeCapacity, h]; rfl

/-- The capacity registers are exact (R230, R231): no value of DIM overflows them. -/
theorem writeCapacity_exact {s : State} (h : dimIsZero s = false) :
    (writeCapacity s).capBits.toNat = capacityBits s ∧ (writeCapacity s).capBytes.toNat = capacityBytes s := by
  have := capacityBits_le s
  rw [writeCapacity_ok h]
  simp only [BitVec.toNat_ofNat, capacityBytes]
  omega

/-- CAP_BYTES is floor(CAP_BITS / 8) whatever DIM is. -/
theorem writeCapacity_ratio (s : State) : (writeCapacity s).capBytes.toNat = (writeCapacity s).capBits.toNat / 8 := by
  cases h : dimIsZero s
  · rw [(writeCapacity_exact h).1, (writeCapacity_exact h).2, capacityBytes]
  · simp [writeCapacity_zero h]

theorem capqStart_ok {s : State} (h : dimIsZero s = false) :
    capqStart s = complete (writeFits (writeCapacity (clearCommand s))) := by
  have h1 : dimIsZero (writeFits (writeCapacity (clearCommand s))) = false :=
    (dimIsZero_congr (s := s) (by simp)).trans h
  rw [capqStart, h1]; rfl

theorem capqStart_zero {s : State} (h : dimIsZero s = true) :
    capqStart s = fail .dim (writeFits (writeCapacity (clearCommand s))) := by
  have h1 : dimIsZero (writeFits (writeCapacity (clearCommand s))) = true :=
    (dimIsZero_congr (s := s) (by simp)).trans h
  rw [capqStart, h1]; rfl

theorem writeFits_as {s : State} {v : Bool} (h : (!dimIsZero s && fitsLen s) = v) :
    writeFits s = { s with status := { s.status with fits := v } } := by
  rw [writeFits, h]

/-- The start of a command that computes its capacity with nonzero dimensions. -/
theorem start_ok {s : State} (h : dimIsZero s = false) :
    writeFits (writeCapacity (clearCommand s)) = { startedFrom s with
      capBits := BitVec.ofNat 34 (capacityBits s)
      capBytes := BitVec.ofNat 32 (capacityBytes s)
      status := { (startedFrom s).status with fits := fitsLen s } } := by
  rw [writeCapacity_ok (s := clearCommand s) h, writeFits_as (v := fitsLen s)]
  · rfl
  · show (!dimIsZero s && fitsLen s) = fitsLen s
    rw [h]
    rfl

theorem start_zero {s : State} (h : dimIsZero s = true) :
    writeFits (writeCapacity (clearCommand s)) = { startedFrom s with
      capBits := 0, capBytes := 0, status := { (startedFrom s).status with fits := false } } := by
  rw [writeCapacity_zero (s := clearCommand s) h, writeFits_as (v := false)]
  · rfl
  · show (!dimIsZero s && fitsLen s) = false
    rw [h]
    rfl

end Sys2Proof.Machine
end

