-- ==== Sys2Proof/Laws/Progress.lean ====
section
/-! SUPPORT. The progress policy: what a step emits, as one list of values, composed from the pixel-completion check and
the final emission. -/

namespace Sys2Proof.Machine

/-! ## Percentages -/

theorem percent_mono {t u n : Nat} (h : t ≤ u) : percent t n ≤ percent u n :=
  Nat.div_le_div_right (Nat.mul_le_mul_left 100 h)

theorem percent_le {t n : Nat} (h : t ≤ n) : percent t n ≤ 100 := by
  refine Nat.div_le_of_le_mul ?_
  rw [Nat.mul_comm n]
  exact Nat.mul_le_mul_left 100 h

/-- The percentage is below 100 until the last pixel. -/
theorem percent_lt {t n : Nat} (h : t < n) : percent t n < 100 := by
  refine (Nat.div_lt_iff_lt_mul (by omega)).2 ?_
  omega

@[simp] theorem percent_zero (n : Nat) : percent 0 n = 0 := by simp [percent]

theorem percent_self {n : Nat} (h : 0 < n) : percent n n = 100 := Nat.mul_div_cancel 100 h

/-- With at least 100 pixels, one more pixel moves the percentage by at most 1. -/
theorem percent_succ {t n : Nat} (h : 100 ≤ n) : percent (t + 1) n ≤ percent t n + 1 := by
  unfold percent
  have h1 : 100 * (t + 1) ≤ 100 * t + n := by omega
  calc 100 * (t + 1) / n ≤ (100 * t + n) / n := Nat.div_le_div_right h1
    _ = 100 * t / n + 1 := Nat.add_div_right _ (by omega)

/-! ## Emissions -/

/-- From `s` to `t` the progress port carried exactly the values `vs`, oldest first (R183, R185). -/
structure Emits (s t : State) (vs : List Nat) : Prop where
  port    : t.prog = s.prog ++ vs.map (BitVec.ofNat 7)
  count   : t.progCount = s.progCount + BitVec.ofNat 8 vs.length
  pending : t.intStatus.prog = (s.intStatus.prog || !vs.isEmpty)
  latest  : t.progress.toNat = vs.getLastD s.progress.toNat
  rising  : (s.progress.toNat :: vs).Pairwise (· < ·)
  bounded : ∀ v ∈ vs, v ≤ 100

theorem Emits.none {s t : State} (h1 : t.prog = s.prog) (h2 : t.progCount = s.progCount)
    (h3 : t.intStatus.prog = s.intStatus.prog) (h4 : t.progress = s.progress) : Emits s t [] :=
  ⟨by simp [h1], by simp [h2], by simp [h3], by simp [h4], by simp, by simp⟩

/-- What `t` becomes without touching the progress outputs carries the same emissions. -/
theorem Emits.congr {s t u : State} {vs : List Nat} (h : Emits s t vs) (h1 : u.prog = t.prog)
    (h2 : u.progCount = t.progCount) (h3 : u.intStatus.prog = t.intStatus.prog) (h4 : u.progress = t.progress) :
    Emits s u vs :=
  ⟨h1.trans h.port, h2.trans h.count, h3.trans h.pending, by rw [h4]; exact h.latest, h.rising, h.bounded⟩

/-- Emissions from a state that differs from `s` outside the progress outputs. -/
theorem Emits.of {s s' t : State} {vs : List Nat} (h : Emits s' t vs) (h1 : s'.prog = s.prog)
    (h2 : s'.progCount = s.progCount) (h3 : s'.intStatus.prog = s.intStatus.prog) (h4 : s'.progress = s.progress) :
    Emits s t vs :=
  ⟨h1 ▸ h.port, h2 ▸ h.count, h3 ▸ h.pending, h4 ▸ h.latest, h4 ▸ h.rising, h.bounded⟩

theorem emits_emit {s : State} {v : Nat} (h : s.progress.toNat < v) (hv : v ≤ 100) : Emits s (emit v s) [v] := by
  refine ⟨by simp, by simp, by simp, ?_, by simp [h], by simp [hv]⟩
  simp only [emit_progress, BitVec.toNat_ofNat, List.getLastD_cons, List.getLastD_nil]
  omega

theorem Emits.trans {s t u : State} {vs ws : List Nat} (h : Emits s t vs) (k : Emits t u ws) :
    Emits s u (vs ++ ws) := by
  refine ⟨?_, ?_, ?_, ?_, ?_, ?_⟩
  · rw [k.port, h.port, List.map_append, List.append_assoc]
  · rw [k.count, h.count, List.length_append, BitVec.add_assoc, BitVec.ofNat_add]
  · rw [k.pending, h.pending]
    cases vs <;> cases ws <;> simp
  · rw [k.latest, h.latest]
    cases ws using List.reverseRecOn with
    | nil => simp
    | append_singleton ws w => simp [← List.append_assoc]
  · have h1 := h.rising
    have h2 := k.rising
    rw [h.latest] at h2
    rw [List.pairwise_cons] at h1 h2 ⊢
    rw [List.pairwise_append]
    have key : ∀ v ∈ s.progress.toNat :: vs, v ≤ vs.getLastD s.progress.toNat := by
      cases vs using List.reverseRecOn with
      | nil => simp
      | append_singleton vs w =>
        have h3 := (List.pairwise_append.1 h1.2).2.2
        intro v hv
        simp only [List.getLastD_concat]
        rcases List.mem_cons.1 hv with rfl | hv
        · exact Nat.le_of_lt (h1.1 w (by simp))
        · rcases List.mem_append.1 hv with hv | hv
          · exact Nat.le_of_lt (h3 v hv w (by simp))
          · simp at hv; omega
    refine ⟨fun v hv => ?_, h1.2, h2.2, fun v hv w hw => ?_⟩
    · rcases List.mem_append.1 hv with hv | hv
      · exact h1.1 v hv
      · exact Nat.lt_of_le_of_lt (key _ List.mem_cons_self) (h2.1 v hv)
    · exact Nat.lt_of_le_of_lt (key v (List.mem_cons_of_mem _ hv)) (h2.1 w hw)
  · intro v hv
    rcases List.mem_append.1 hv with hv | hv
    · exact h.bounded v hv
    · exact k.bounded v hv

/-- The pixel-completion check emits the percentage if it rises. -/
theorem emits_pixelCheck {t : Nat} {s : State} (h : percent t (pixels s) ≤ 100) :
    Emits s (pixelCheck t s) (if s.progress.toNat < percent t (pixels s) then [percent t (pixels s)] else []) := by
  unfold pixelCheck
  by_cases hc : s.progress.toNat < percent t (pixels s)
  · simp only [gt_iff_lt, hc, if_true]
    exact (emits_emit (s := { s with pixDone := BitVec.ofNat 32 t }) hc h).of rfl rfl rfl rfl
  · simp only [gt_iff_lt, hc, if_false]
    exact Emits.none rfl rfl rfl rfl

@[simp] theorem pixelCheck_pixDone (t : Nat) (s : State) : (pixelCheck t s).pixDone = BitVec.ofNat 32 t := by
  simp only [pixelCheck]; split <;> rfl

@[simp] theorem pixelCheck_intDone (t : Nat) (s : State) : (pixelCheck t s).intStatus.done = s.intStatus.done := by
  simp only [pixelCheck]; split <;> rfl

@[simp] theorem pixelCheck_intErr (t : Nat) (s : State) : (pixelCheck t s).intStatus.err = s.intStatus.err := by
  simp only [pixelCheck]; split <;> rfl

@[simp] theorem finalEmission_intDone (s : State) : (finalEmission s).intStatus.done = s.intStatus.done := by
  simp only [finalEmission]; split <;> rfl

@[simp] theorem finalEmission_intErr (s : State) : (finalEmission s).intStatus.err = s.intStatus.err := by
  simp only [finalEmission]; split <;> rfl

/-- The final emission brings PROGRESS to 100. -/
theorem emits_finalEmission (s : State) :
    Emits s (finalEmission s) (if s.progress.toNat < 100 then [100] else []) := by
  unfold finalEmission
  split
  · exact emits_emit ‹_› (Nat.le_refl _)
  · exact Emits.none rfl rfl rfl rfl

/-- At most 100 values fit between PROGRESS and 100 (R186). -/
theorem Emits.length_le {s t : State} {vs : List Nat} (h : Emits s t vs) :
    s.progress.toNat + vs.length ≤ vs.getLastD s.progress.toNat := by
  have key : ∀ (a : Nat) (vs : List Nat), (a :: vs).Pairwise (· < ·) → a + vs.length ≤ vs.getLastD a := by
    intro a vs
    induction vs generalizing a with
    | nil => intro _; simp
    | cons b rest ih =>
      intro hp
      rw [List.pairwise_cons] at hp
      have h1 := hp.1 b List.mem_cons_self
      have h2 := ih b hp.2
      simp only [List.getLastD_cons, List.length_cons]
      omega
  exact key _ _ h.rising

end Sys2Proof.Machine
end

