-- ==== Sys2Proof/Laws/Embed.lean ====
section
/-! SUPPORT. EMBED: every outcome of its engine step, and what the end of the step does to the counters. -/

namespace Sys2Proof.Machine

/-! ## The accesses -/

/-- An engine step of EMBED with no bus error writes one channel byte and goes to its tail. -/
theorem embedStep_okay {s : State} {cur : Byte} (hc : embedCur s.hid.k s = some cur)
    (hr : readErr s (byteAddr s.imgBase s.hid.k).toNat = false)
    (hw : writeErr s (byteAddr s.imgBase s.hid.k).toNat = false) :
    embedStep s = embedTail s.hid.k { s with
      hid := { s.hid with cur := cur }
      mem := memWrite s.mem (byteAddr s.imgBase s.hid.k).toNat
        (withLsb (readByte s (byteAddr s.imgBase s.hid.k).toNat) (currentBit cur s.hid.k)) } := by
  have h1 : busRead { s with hid := { s.hid with cur := cur } } (byteAddr s.imgBase s.hid.k) =
      some (readByte s (byteAddr s.imgBase s.hid.k).toNat) := busRead_okay hr
  have h2 : ∀ v, busWrite { s with hid := { s.hid with cur := cur } } (byteAddr s.imgBase s.hid.k) v =
      some { s with
        hid := { s.hid with cur := cur }, mem := memWrite s.mem (byteAddr s.imgBase s.hid.k).toNat v } :=
    fun v => busWrite_okay hw
  simp only [embedStep, hc, h1, h2]

theorem embedCur_read {s : State} {k : Nat} (hk : k % 8 = 0)
    (h : readErr s (byteAddr s.srcBase (k / 8)).toNat = false) :
    embedCur k s = some (readByte s (byteAddr s.srcBase (k / 8)).toNat) := by
  rw [embedCur, if_pos hk, busRead_okay h]

theorem embedCur_held {s : State} {k : Nat} (hk : k % 8 ≠ 0) : embedCur k s = some s.hid.cur := by
  rw [embedCur, if_neg hk]

/-- Every outcome of an engine step of EMBED: a bus error, which changes neither memory nor a counter, or one channel
byte written. -/
theorem embedStep_cases (s : State) :
    (∃ a cur, embedStep s = failAt .bus a { s with hid := { s.hid with cur := cur } }) ∨
    ∃ cur, embedCur s.hid.k s = some cur ∧ writeErr s (byteAddr s.imgBase s.hid.k).toNat = false ∧
      embedStep s = embedTail s.hid.k { s with
        hid := { s.hid with cur := cur }
        mem := memWrite s.mem (byteAddr s.imgBase s.hid.k).toNat
          (withLsb (readByte s (byteAddr s.imgBase s.hid.k).toNat) (currentBit cur s.hid.k)) } := by
  cases hc : embedCur s.hid.k s with
  | none => exact .inl ⟨byteAddr s.srcBase (s.hid.k / 8), s.hid.cur, by simp only [embedStep, hc]⟩
  | some cur =>
    cases hr : readErr s (byteAddr s.imgBase s.hid.k).toNat
    · cases hw : writeErr s (byteAddr s.imgBase s.hid.k).toNat
      · exact .inr ⟨cur, rfl, rfl, embedStep_okay hc hr hw⟩
      · refine .inl ⟨byteAddr s.imgBase s.hid.k, cur, ?_⟩
        have h1 : busRead { s with hid := { s.hid with cur := cur } } (byteAddr s.imgBase s.hid.k) =
            some (readByte s (byteAddr s.imgBase s.hid.k).toNat) := busRead_okay hr
        have h2 : ∀ v, busWrite { s with hid := { s.hid with cur := cur } } (byteAddr s.imgBase s.hid.k) v = none :=
          fun v => busWrite_error hw
        simp only [embedStep, hc, h1, h2]
    · refine .inl ⟨byteAddr s.imgBase s.hid.k, cur, ?_⟩
      have h1 : busRead { s with hid := { s.hid with cur := cur } } (byteAddr s.imgBase s.hid.k) = none :=
        busRead_error hr
      simp only [embedStep, hc, h1]

/-! ## The tail -/

/-- The tail of the last channel of the container. -/
theorem embedTail_last {s : State} {k : Nat} (h : k + 1 = requiredBits s) :
    embedTail k s = complete (finalEmission (pixelCheck (k / 3 + 1) (setCursor (k + 1) s))) := by
  simp only [embedTail, ← h, or_true, if_true]

/-- The tail of a channel that is neither the container's last nor the image's. -/
theorem embedTail_more {s : State} {k : Nat} (h : k + 1 ≠ requiredBits s) (hc : k + 1 ≠ capacityBits s) :
    embedTail k s =
      if (k + 1) % 3 = 0 then pixelCheck (k / 3 + 1) (setCursor (k + 1) s) else setCursor (k + 1) s := by
  simp only [embedTail, h, hc, or_false, if_false]

/-- The tail changes the cursor, the counters, the progress outputs and the end flags, and nothing else. -/
theorem embedTail_shape (k : Nat) (s : State) : ∃ b d f e ea p c i x q,
    embedTail k s = { setCursor (k + 1) s with
      status := { s.status with busy := b, done := d, err := f }
      error := e, errAddr := ea, progress := p, progCount := c, intStatus := i, pixDone := x, prog := q } := by
  simp only [embedTail, finalEmission, pixelCheck, emit, fail, failAt, complete]
  repeat' split
  all_goals exact ⟨_, _, _, _, _, _, _, _, _, _, rfl⟩

/-- The emissions of the tail; the last channel's end at 100. -/
theorem emits_embedTail {s : State} {k : Nat} (hk : k < requiredBits s) (hc : requiredBits s ≤ capacityBits s)
    (hp : s.progress.toNat = percent (k / 3) (pixels s)) :
    ∃ vs, Emits s (embedTail k s) vs ∧ (k + 1 = requiredBits s → vs.getLast? = some 100) ∧
      (k + 1 ≠ requiredBits s → (embedTail k s).progress.toNat = percent ((k + 1) / 3) (pixels s)) := by
  have hcap : capacityBits s = 3 * pixels s := rfl
  have hle : percent (k / 3 + 1) (pixels s) ≤ 100 := percent_le (by omega)
  have h1 : Emits s (pixelCheck (k / 3 + 1) (setCursor (k + 1) s)) _ :=
    (emits_pixelCheck (t := k / 3 + 1) (s := setCursor (k + 1) s) hle).of rfl rfl rfl rfl
  by_cases hl : k + 1 = requiredBits s
  · rw [embedTail_last hl]
    have h2 := h1.trans (emits_finalEmission (pixelCheck (k / 3 + 1) (setCursor (k + 1) s)))
    refine ⟨_, h2.congr rfl rfl rfl rfl, fun _ => ?_, fun h => absurd hl h⟩
    have h3 := h1.latest
    have h4 : percent (k / 3) (pixels s) < 100 := percent_lt (by omega)
    simp only [setCursor_progress, show pixels (setCursor (k + 1) s) = pixels s from rfl] at h3 ⊢
    by_cases hx : s.progress.toNat < percent (k / 3 + 1) (pixels s)
    · simp only [hx, if_true, List.getLastD_cons, List.getLastD_nil] at h3 ⊢
      rw [h3]
      by_cases hy : percent (k / 3 + 1) (pixels s) < 100
      · simp [hy]
      · simp [hy]; omega
    · simp only [hx, if_false, List.getLastD_nil] at h3 ⊢
      rw [h3, if_pos (by omega)]
      rfl
  · have hne : k + 1 ≠ capacityBits s := by omega
    rw [embedTail_more hl hne]
    by_cases hm : (k + 1) % 3 = 0
    · rw [if_pos hm]
      refine ⟨_, h1, fun h => absurd h hl, fun _ => ?_⟩
      rw [h1.latest, show (k + 1) / 3 = k / 3 + 1 by omega]
      have h5 : percent (k / 3) (pixels s) ≤ percent (k / 3 + 1) (pixels s) := percent_mono (by omega)
      simp only [setCursor_progress, show pixels (setCursor (k + 1) s) = pixels s from rfl]
      split
      · rfl
      · simp only [List.getLastD_nil]; omega
    · rw [if_neg hm]
      refine ⟨[], Emits.none rfl rfl rfl rfl, fun h => absurd h hl, fun _ => ?_⟩
      rw [show (k + 1) / 3 = k / 3 by omega]
      exact hp

/-- The tail's counters and flags. -/
theorem embedTail_counters {s : State} {k : Nat} (hk : k < requiredBits s) (hc : requiredBits s ≤ capacityBits s)
    (hx : s.pixDone.toNat = k / 3) :
    (embedTail k s).bitsDone.toNat = k + 1 ∧
    (embedTail k s).pixDone.toNat = (if (k + 1) % 3 = 0 ∨ k + 1 = requiredBits s then k / 3 + 1 else k / 3) ∧
    (embedTail k s).hid = { s.hid with k := k + 1 } ∧
    (embedTail k s).status =
      (if k + 1 = requiredBits s then { s.status with busy := false, done := true } else s.status) ∧
    (embedTail k s).intStatus.done = (s.intStatus.done || decide (k + 1 = requiredBits s)) ∧
    (embedTail k s).intStatus.err = s.intStatus.err ∧ (embedTail k s).error = s.error ∧
    (embedTail k s).errAddr = s.errAddr := by
  have hle := capacityBits_le s
  by_cases hl : k + 1 = requiredBits s
  · rw [embedTail_last hl]
    simp only [hl, or_true, if_true, decide_true, Bool.or_true]
    simp only [complete_bitsDone, complete_pixDone, complete_hid, complete_status, complete_intStatus, complete_error,
      complete_errAddr, finalEmission_bitsDone, finalEmission_pixDone, finalEmission_hid, finalEmission_status,
      finalEmission_error, finalEmission_errAddr, finalEmission_intErr, pixelCheck_bitsDone, pixelCheck_pixDone,
      pixelCheck_hid, pixelCheck_status, pixelCheck_error, pixelCheck_errAddr, pixelCheck_intErr, setCursor_bitsDone,
      setCursor_hid, setCursor_status, setCursor_error, setCursor_errAddr, setCursor_intStatus, BitVec.toNat_ofNat]
    refine ⟨by omega, by omega, ?_⟩
    simp
  · have hne : k + 1 ≠ capacityBits s := by omega
    rw [embedTail_more hl hne]
    by_cases hm : (k + 1) % 3 = 0
    · simp only [hm, hl, or_false, if_true, if_false, decide_false, Bool.or_false, pixelCheck_bitsDone,
        pixelCheck_pixDone, pixelCheck_hid, pixelCheck_status, pixelCheck_error, pixelCheck_errAddr, pixelCheck_intErr,
        pixelCheck_intDone, setCursor_bitsDone, setCursor_hid, setCursor_status, setCursor_error, setCursor_errAddr,
        setCursor_intStatus, BitVec.toNat_ofNat]
      refine ⟨by omega, by omega, trivial, trivial, trivial, trivial, trivial, trivial⟩
    · simp only [hm, hl, or_false, if_false, decide_false, Bool.or_false, setCursor_bitsDone, setCursor_pixDone,
        setCursor_hid, setCursor_status, setCursor_error, setCursor_errAddr, setCursor_intStatus, BitVec.toNat_ofNat]
      refine ⟨by omega, hx, trivial, trivial, trivial, trivial, trivial, trivial⟩

end Sys2Proof.Machine
end

