-- ==== Sys2Proof/Laws/Extract.lean ====
section
/-! SUPPORT. EXTRACT: every outcome of its engine step, and what the end of the step does to the counters. -/

namespace Sys2Proof.Machine

/-- The state of an EXTRACT step once channel H.k has been read and the cursor has advanced (R302). -/
def extractRead (s : State) : State :=
  setCursor (s.hid.k + 1) { s with
    hid := { s.hid with
      acc := shiftIn s.hid.acc s.hid.k (lsb (readByte s (byteAddr s.imgBase s.hid.k).toNat)) } }

/-! ## The accesses -/

theorem extractStep_read {s : State} (hr : readErr s (byteAddr s.imgBase s.hid.k).toNat = false) :
    extractStep s =
      if (s.hid.k + 1) % 8 = 0 then
        match busWrite (extractRead s) (byteAddr s.dstBase ((s.hid.k + 1) / 8 - 1)) (extractRead s).hid.acc with
        | none => failAt .bus (byteAddr s.dstBase ((s.hid.k + 1) / 8 - 1)) (extractRead s)
        | some s2 => extractTail s.hid.k { s2 with outLen := BitVec.ofNat 32 ((s.hid.k + 1) / 8 - 1 + 1) }
      else extractTail s.hid.k (extractRead s) := by
  simp only [extractStep, busRead_okay hr]
  rfl

/-- A channel that completes no destination byte. -/
theorem extractStep_plain {s : State} (hr : readErr s (byteAddr s.imgBase s.hid.k).toNat = false)
    (h8 : (s.hid.k + 1) % 8 ≠ 0) : extractStep s = extractTail s.hid.k (extractRead s) := by
  rw [extractStep_read hr, if_neg h8]

/-- A channel that completes a destination byte. -/
theorem extractStep_store {s : State} (hr : readErr s (byteAddr s.imgBase s.hid.k).toNat = false)
    (h8 : (s.hid.k + 1) % 8 = 0)
    (hw : writeErr s (byteAddr s.dstBase ((s.hid.k + 1) / 8 - 1)).toNat = false) :
    extractStep s = extractTail s.hid.k { extractRead s with
      mem := memWrite s.mem (byteAddr s.dstBase ((s.hid.k + 1) / 8 - 1)).toNat (extractRead s).hid.acc
      outLen := BitVec.ofNat 32 ((s.hid.k + 1) / 8 - 1 + 1) } := by
  have h2 : busWrite (extractRead s) (byteAddr s.dstBase ((s.hid.k + 1) / 8 - 1)) (extractRead s).hid.acc =
      some { extractRead s with
        mem := memWrite s.mem (byteAddr s.dstBase ((s.hid.k + 1) / 8 - 1)).toNat (extractRead s).hid.acc } :=
    busWrite_okay hw
  rw [extractStep_read hr, if_pos h8, h2]

/-- Every outcome of an engine step of EXTRACT: a bus error, which does not change memory, or one channel read, with or
without a destination byte written. -/
theorem extractStep_cases (s : State) :
    extractStep s = failAt .bus (byteAddr s.imgBase s.hid.k) s ∨
    ((s.hid.k + 1) % 8 ≠ 0 ∧ extractStep s = extractTail s.hid.k (extractRead s)) ∨
    ((s.hid.k + 1) % 8 = 0 ∧
      extractStep s = failAt .bus (byteAddr s.dstBase ((s.hid.k + 1) / 8 - 1)) (extractRead s)) ∨
    ((s.hid.k + 1) % 8 = 0 ∧ writeErr s (byteAddr s.dstBase ((s.hid.k + 1) / 8 - 1)).toNat = false ∧
      extractStep s = extractTail s.hid.k { extractRead s with
        mem := memWrite s.mem (byteAddr s.dstBase ((s.hid.k + 1) / 8 - 1)).toNat (extractRead s).hid.acc
        outLen := BitVec.ofNat 32 ((s.hid.k + 1) / 8 - 1 + 1) }) := by
  cases hr : readErr s (byteAddr s.imgBase s.hid.k).toNat
  · by_cases h8 : (s.hid.k + 1) % 8 = 0
    · cases hw : writeErr s (byteAddr s.dstBase ((s.hid.k + 1) / 8 - 1)).toNat
      · exact .inr (.inr (.inr ⟨h8, rfl, extractStep_store hr h8 hw⟩))
      · refine .inr (.inr (.inl ⟨h8, ?_⟩))
        have h2 : busWrite (extractRead s) (byteAddr s.dstBase ((s.hid.k + 1) / 8 - 1)) (extractRead s).hid.acc = none :=
          busWrite_error hw
        rw [extractStep_read hr, if_pos h8, h2]
    · exact .inr (.inl ⟨h8, extractStep_plain hr h8⟩)
  · exact .inl (by simp only [extractStep, busRead_error hr])

/-! ## The tail -/

/-- The tail of the last channel. The image has whole pixels, so the pixel is complete. -/
theorem extractTail_last {s : State} {k : Nat} (h : k + 1 = capacityBits s) :
    extractTail k s = complete (finalEmission (pixelCheck ((k + 1) / 3) s)) := by
  have h3 : (k + 1) % 3 = 0 := by
    rw [h]; exact Nat.mul_mod_right 3 (pixels s)
  simp only [extractTail, h3, if_true, ← h]

theorem extractTail_more {s : State} {k : Nat} (h : k + 1 ≠ capacityBits s) :
    extractTail k s = if (k + 1) % 3 = 0 then pixelCheck ((k + 1) / 3) s else s := by
  simp only [extractTail, h, if_false]

/-- The tail changes the counters, the progress outputs and the end flags, and nothing else. -/
theorem extractTail_shape (k : Nat) (s : State) : ∃ b d p c i x q,
    extractTail k s = { s with
      status := { s.status with busy := b, done := d }
      progress := p, progCount := c, intStatus := i, pixDone := x, prog := q } := by
  simp only [extractTail, finalEmission, pixelCheck, emit, complete]
  repeat' split
  all_goals exact ⟨_, _, _, _, _, _, _, rfl⟩

/-- The emissions of the tail; the last channel's end at 100. -/
theorem emits_extractTail {s : State} {k : Nat} (hk : k < capacityBits s)
    (hp : s.progress.toNat = percent (k / 3) (pixels s)) :
    Emits s (extractTail k s)
      (if percent (k / 3) (pixels s) < percent ((k + 1) / 3) (pixels s) then [percent ((k + 1) / 3) (pixels s)]
        else []) ∧
    (k + 1 = capacityBits s → percent (k / 3) (pixels s) < 100 ∧ percent ((k + 1) / 3) (pixels s) = 100) ∧
    (extractTail k s).progress.toNat = percent ((k + 1) / 3) (pixels s) := by
  have hcap : capacityBits s = 3 * pixels s := rfl
  have hle : percent ((k + 1) / 3) (pixels s) ≤ 100 := percent_le (by omega)
  have hmono : percent (k / 3) (pixels s) ≤ percent ((k + 1) / 3) (pixels s) := percent_mono (by omega)
  have h1 := emits_pixelCheck (s := s) hle
  rw [hp] at h1
  have hval : (pixelCheck ((k + 1) / 3) s).progress.toNat = percent ((k + 1) / 3) (pixels s) := by
    rw [h1.latest]
    split
    · rfl
    · rw [List.getLastD_nil, hp]; omega
  by_cases hl : k + 1 = capacityBits s
  · have h100 : percent ((k + 1) / 3) (pixels s) = 100 := by
      rw [show (k + 1) / 3 = pixels s by omega]
      exact percent_self (by omega)
    have hlt : percent (k / 3) (pixels s) < 100 := percent_lt (by omega)
    rw [extractTail_last hl]
    have h2 : finalEmission (pixelCheck ((k + 1) / 3) s) = pixelCheck ((k + 1) / 3) s := by
      rw [finalEmission, if_neg (by rw [hval, h100]; omega)]
    rw [h2]
    exact ⟨h1.congr rfl rfl rfl rfl, fun _ => ⟨hlt, h100⟩, hval⟩
  · rw [extractTail_more hl]
    by_cases hm : (k + 1) % 3 = 0
    · rw [if_pos hm]
      exact ⟨h1, fun h => absurd h hl, hval⟩
    · rw [if_neg hm, show (k + 1) / 3 = k / 3 by omega, if_neg (by omega)]
      exact ⟨Emits.none rfl rfl rfl rfl, fun h => absurd h hl, hp⟩

/-- The tail's counters and flags. -/
theorem extractTail_counters {s : State} {k : Nat} (hk : k < capacityBits s) (hx : s.pixDone.toNat = k / 3) :
    (extractTail k s).pixDone.toNat = (k + 1) / 3 ∧
    (extractTail k s).status =
      (if k + 1 = capacityBits s then { s.status with busy := false, done := true } else s.status) ∧
    (extractTail k s).intStatus.done = (s.intStatus.done || decide (k + 1 = capacityBits s)) ∧
    (extractTail k s).intStatus.err = s.intStatus.err := by
  have hle := capacityBits_le s
  by_cases hl : k + 1 = capacityBits s
  · rw [extractTail_last hl]
    simp only [hl, if_true, decide_true, Bool.or_true, complete_pixDone, complete_status, complete_intStatus,
      finalEmission_pixDone, finalEmission_status, finalEmission_intErr, pixelCheck_pixDone, pixelCheck_status,
      pixelCheck_intErr, BitVec.toNat_ofNat]
    refine ⟨by omega, ?_⟩
    simp
  · rw [extractTail_more hl]
    by_cases hm : (k + 1) % 3 = 0
    · simp only [hm, hl, if_true, if_false, decide_false, Bool.or_false, pixelCheck_pixDone, pixelCheck_status,
        pixelCheck_intErr, pixelCheck_intDone, BitVec.toNat_ofNat]
      refine ⟨by omega, ?_⟩
      simp
    · simp only [hm, hl, if_false, decide_false, Bool.or_false]
      refine ⟨by omega, ?_⟩
      simp

end Sys2Proof.Machine
end

