-- ==== Sys2Proof/Laws/Inv.lean ====
section
/-! SUPPORT. What the invariant says of an executing command, one lemma per command, and the order of KeepsInputs. -/

namespace Sys2Proof.Machine

theorem Inv.embedRuns {s : State} (h : Inv s) (hb : s.status.busy = true) (ho : s.hid.op = .embed) : EmbedRuns s := by
  have := h.running hb
  rwa [Running, ho] at this

theorem Inv.extractRuns {s : State} (h : Inv s) (hb : s.status.busy = true) (ho : s.hid.op = .extract) :
    ExtractRuns s := by
  have := h.running hb
  rwa [Running, ho] at this

theorem Inv.aeadEncRuns {s : State} (h : Inv s) (hb : s.status.busy = true) (ho : s.hid.op = .aeadEnc) :
    AeadEncRuns s := by
  have := h.running hb
  rwa [Running, ho] at this

theorem Inv.aeadDecRuns {s : State} (h : Inv s) (hb : s.status.busy = true) (ho : s.hid.op = .aeadDec) :
    AeadDecRuns s := by
  have := h.running hb
  rwa [Running, ho] at this

/-- CAPQ is never under way. -/
theorem Inv.notCapq {s : State} (h : Inv s) (hb : s.status.busy = true) : s.hid.op ≠ .capq := by
  intro ho
  have := h.running hb
  rwa [Running, ho] at this

/-- No error stands while a command executes. -/
theorem Inv.noError {s : State} (h : Inv s) (hb : s.status.busy = true) : s.error = .none := by
  by_contra he
  have h1 := h.errorCode.1 he
  have h2 := h.busyFlags hb
  simp [h1] at h2

theorem Inv.noErrAddr {s : State} (h : Inv s) (hb : s.status.busy = true) : s.errAddr = 0 := by
  by_contra he
  have h1 := h.errAddr he
  rw [h.noError hb] at h1
  cases h1

/-- A command executes only out of reset. -/
theorem Inv.outOfReset {s : State} (h : Inv s) (hb : s.status.busy = true) : s.rstN = true := by
  cases hr : s.rstN
  · have h1 := h.reset hr
    rw [AtReset] at h1
    rw [h1] at hb
    exact absurd (show false = true from hb) (by decide)
  · rfl

/-! ## What the parts of the invariant depend on -/

/-- The fields that Running reads are the same in `s` and `t`. -/
structure SameRun (s t : State) : Prop where
  cfg       : t.cfg = s.cfg
  dim       : t.dim = s.dim
  imgBase   : t.imgBase = s.imgBase
  srcBase   : t.srcBase = s.srcBase
  dstBase   : t.dstBase = s.dstBase
  len       : t.len = s.len
  key       : t.key = s.key
  iv        : t.iv = s.iv
  tag       : t.tag = s.tag
  hid       : t.hid = s.hid
  capBits   : t.capBits = s.capBits
  bitsDone  : t.bitsDone = s.bitsDone
  pixDone   : t.pixDone = s.pixDone
  progress  : t.progress = s.progress
  progCount : t.progCount = s.progCount
  outLen    : t.outLen = s.outLen
  fits      : t.status.fits = s.status.fits
  ivu       : t.status.ivu = s.status.ivu

theorem Running.congr {s t : State} (h : SameRun s t) (k : Running s) : Running t := by
  obtain ⟨h1, h2, h3, h4, h5, h6, h7, h8, h9, h10, h11, h12, h13, h14, h15, h16, h17, h18⟩ := h
  have hw : width t = width s := by simp only [width, h2]
  have hh : height t = height s := by simp only [height, h2]
  have hp : pixels t = pixels s := by simp only [pixels, hw, hh]
  have hc : capacityBits t = capacityBits s := by simp only [capacityBits, hp]
  have hl : lenBytes t = lenBytes s := by simp only [lenBytes, h6]
  have hr : requiredBits t = requiredBits s := by simp only [requiredBits, hl]
  have hd : dimIsZero t = dimIsZero s := by simp only [dimIsZero, hw, hh]
  have hf : fitsLen t = fitsLen s := by simp only [fitsLen, hr, hc]
  have hb : capacityBytes t = capacityBytes s := by simp only [capacityBytes, hc]
  have hreg : aeadRegionCheck t = aeadRegionCheck s := by
    rw [aeadRegionCheck, aeadOverlap, h4, h5, hl]
    rfl
  have scan : ScanCounters s → ScanCounters t := fun ⟨a, b, c, d, e⟩ => by
    refine ⟨?_, ?_, ?_, ?_, ?_⟩ <;> simp only [h10, h11, h12, h13, h14, h15, hc, hp] <;> assumption
  have noScan : NoScan s → NoScan t := fun ⟨a, b, c, d⟩ => by
    refine ⟨?_, ?_, ?_, ?_⟩ <;> simp only [h12, h13, h14, h15] <;> assumption
  unfold Running at k ⊢
  rw [h10]
  cases ho : s.hid.op <;> rw [ho] at k
  · exact k
  · obtain ⟨a, b, c, d, e⟩ := k
    refine ⟨?_, by rw [h10, hr]; exact b, scan c, by rw [h17]; exact d, by rw [h16]; exact e⟩
    rw [← a]
    simp only [embedCheck, hd, hl, hf, hc, h3, h4]
  · obtain ⟨a, b, c, d⟩ := k
    refine ⟨?_, by rw [h10, hc]; exact b, scan c, by rw [h16, h10]; exact d⟩
    rw [← a]
    simp only [extractCheck, hd, hb, hc, h1, h3, h5]
  · obtain ⟨a, b, c, d, e, f, g⟩ := k
    exact ⟨by rw [h1]; exact a, by rw [hreg]; exact b, by rw [h10, hl]; exact c, noScan d, by rw [h18]; exact e,
      by rw [h16, h10]; exact f, by rw [h10]; exact g⟩
  · obtain ⟨a, b, c, d, e, f, g⟩ := k
    refine ⟨?_, by rw [h10, hl]; exact b, noScan c, by rw [h10]; exact d, by rw [h10]; exact e,
      by rw [h10, h16]; exact f, by rw [h10, h16]; exact g⟩
    rw [← a]
    simp only [aeadDecCheck, hl, h1, hreg]

theorem status_runs {st : Status} (hb : st.busy = true) (hd : st.done = false) :
    st = { st with busy := true, done := false } := by
  cases st; simp_all

theorem KeepsInputs.refl (s : State) : KeepsInputs s s :=
  ⟨rfl, rfl, rfl, rfl, rfl, rfl, rfl, rfl, rfl, rfl, rfl, rfl, rfl, rfl, rfl, rfl⟩

theorem KeepsInputs.trans {s t u : State} (h : KeepsInputs s t) (k : KeepsInputs t u) : KeepsInputs s u :=
  ⟨k.cfg.trans h.cfg, k.dim.trans h.dim, k.imgBase.trans h.imgBase, k.srcBase.trans h.srcBase,
    k.dstBase.trans h.dstBase, k.len.trans h.len, k.key.trans h.key, k.iv.trans h.iv, k.intEn.trans h.intEn,
    k.ovr.trans h.ovr, k.rstN.trans h.rstN, k.resp.trans h.resp, k.windows.trans h.windows, k.inbox.trans h.inbox,
    k.racing.trans h.racing, k.free.trans h.free⟩

end Sys2Proof.Machine
end

