-- ==== Sys2Proof/Laws/Exec.lean ====
section
/-! SUPPORT. What one execution of a command can do, whichever command it is: what it leaves alone, that it does not stop,
what it emits, and the invariant it keeps. -/

namespace Sys2Proof.Machine

/-! ## No command touches its inputs -/

theorem keeps_failAt (c : ErrCode) (a : Word) (s : State) : KeepsInputs s (failAt c a s) :=
  ⟨rfl, rfl, rfl, rfl, rfl, rfl, rfl, rfl, rfl, rfl, rfl, rfl, rfl, rfl, rfl, rfl⟩

theorem keeps_start (s : State) : KeepsInputs s (writeCapacity (clearCommand s)) := by
  rw [writeCapacity]
  split <;> exact ⟨rfl, rfl, rfl, rfl, rfl, rfl, rfl, rfl, rfl, rfl, rfl, rfl, rfl, rfl, rfl, rfl⟩

theorem keeps_writeFits (s : State) : KeepsInputs s (writeFits s) :=
  ⟨rfl, rfl, rfl, rfl, rfl, rfl, rfl, rfl, rfl, rfl, rfl, rfl, rfl, rfl, rfl, rfl⟩

theorem keeps_beginCommand (i : Instr) (s : State) : KeepsInputs s (beginCommand i s) :=
  ⟨rfl, rfl, rfl, rfl, rfl, rfl, rfl, rfl, rfl, rfl, rfl, rfl, rfl, rfl, rfl, rfl⟩

theorem keeps_complete (s : State) : KeepsInputs s (complete s) :=
  ⟨rfl, rfl, rfl, rfl, rfl, rfl, rfl, rfl, rfl, rfl, rfl, rfl, rfl, rfl, rfl, rfl⟩

theorem keeps_embedTail (k : Nat) (s : State) : KeepsInputs s (embedTail k s) := by
  obtain ⟨_, _, _, _, _, _, _, _, _, _, h⟩ := embedTail_shape k s
  rw [h]
  exact ⟨rfl, rfl, rfl, rfl, rfl, rfl, rfl, rfl, rfl, rfl, rfl, rfl, rfl, rfl, rfl, rfl⟩

theorem keeps_extractTail (k : Nat) (s : State) : KeepsInputs s (extractTail k s) := by
  obtain ⟨_, _, _, _, _, _, _, h⟩ := extractTail_shape k s
  rw [h]
  exact ⟨rfl, rfl, rfl, rfl, rfl, rfl, rfl, rfl, rfl, rfl, rfl, rfl, rfl, rfl, rfl, rfl⟩

/-- No command, in its start step or in an engine step, changes its parameters, operands, enables or surroundings. -/
theorem exec_keeps {i : Instr} {s t : State} (h : exec i s = .next t) : KeepsInputs s t := by
  cases i with
  | capq =>
    simp only [exec, execCapq] at h
    split at h
    · cases h
    · cases h
      rw [capqStart]
      split
      · exact ((keeps_start s).trans (keeps_writeFits _)).trans (keeps_failAt _ _ _)
      · exact ((keeps_start s).trans (keeps_writeFits _)).trans (keeps_complete _)
  | embed =>
    simp only [exec, execEmbed, Host.Outcome.next.injEq] at h
    subst h
    split
    · rcases embedStep_cases s with ⟨a, cur, he⟩ | ⟨cur, hc, hw, he⟩ <;> rw [he]
      · exact ⟨rfl, rfl, rfl, rfl, rfl, rfl, rfl, rfl, rfl, rfl, rfl, rfl, rfl, rfl, rfl, rfl⟩
      · refine KeepsInputs.trans ?_ (keeps_embedTail _ _)
        exact ⟨rfl, rfl, rfl, rfl, rfl, rfl, rfl, rfl, rfl, rfl, rfl, rfl, rfl, rfl, rfl, rfl⟩
    · rw [embedStart]
      split
      · exact ((keeps_start s).trans (keeps_writeFits _)).trans (keeps_failAt _ _ _)
      · exact ((keeps_start s).trans (keeps_writeFits _)).trans (keeps_beginCommand _ _)
  | extract =>
    simp only [exec, execExtract, Host.Outcome.next.injEq] at h
    subst h
    split
    · rcases extractStep_cases s with he | ⟨h8, he⟩ | ⟨h8, he⟩ | ⟨h8, hw, he⟩ <;> rw [he]
      · exact keeps_failAt _ _ _
      · refine KeepsInputs.trans ?_ (keeps_extractTail _ _)
        exact ⟨rfl, rfl, rfl, rfl, rfl, rfl, rfl, rfl, rfl, rfl, rfl, rfl, rfl, rfl, rfl, rfl⟩
      · exact ⟨rfl, rfl, rfl, rfl, rfl, rfl, rfl, rfl, rfl, rfl, rfl, rfl, rfl, rfl, rfl, rfl⟩
      · refine KeepsInputs.trans ?_ (keeps_extractTail _ _)
        exact ⟨rfl, rfl, rfl, rfl, rfl, rfl, rfl, rfl, rfl, rfl, rfl, rfl, rfl, rfl, rfl, rfl⟩
    · rw [extractStart]
      split
      · exact (keeps_start s).trans (keeps_failAt _ _ _)
      · exact (keeps_start s).trans (keeps_beginCommand _ _)
  | aeadEnc =>
    simp only [exec, execAeadEnc, Host.Outcome.next.injEq] at h
    subst h
    split
    · rcases aeadEncStep_cases s with ⟨a, he⟩ | ⟨hw, he⟩ <;> rw [he]
      · exact keeps_failAt _ _ _
      · split <;> exact ⟨rfl, rfl, rfl, rfl, rfl, rfl, rfl, rfl, rfl, rfl, rfl, rfl, rfl, rfl, rfl, rfl⟩
    · rw [aeadEncStart]
      dsimp only
      split <;> exact ⟨rfl, rfl, rfl, rfl, rfl, rfl, rfl, rfl, rfl, rfl, rfl, rfl, rfl, rfl, rfl, rfl⟩
  | aeadDec =>
    simp only [exec, execAeadDec] at h
    split at h
    · split at h
      · cases h
      · cases h
        rcases aeadAuthStep_cases s with ⟨a, he⟩ | he <;> rw [he]
        · exact keeps_failAt _ _ _
        · repeat' split
          all_goals exact ⟨rfl, rfl, rfl, rfl, rfl, rfl, rfl, rfl, rfl, rfl, rfl, rfl, rfl, rfl, rfl, rfl⟩
      · cases h
        rcases aeadWriteStep_cases s with ⟨a, he⟩ | ⟨hw, he⟩ <;> rw [he]
        · exact keeps_failAt _ _ _
        · split <;> exact ⟨rfl, rfl, rfl, rfl, rfl, rfl, rfl, rfl, rfl, rfl, rfl, rfl, rfl, rfl, rfl, rfl⟩
    · cases h
      rw [aeadDecStart]
      dsimp only
      split <;> exact ⟨rfl, rfl, rfl, rfl, rfl, rfl, rfl, rfl, rfl, rfl, rfl, rfl, rfl, rfl, rfl, rfl⟩

/-! ## No command stops -/

/-- A start step answers a next state, in every idle state. -/
theorem exec_start_next {i : Instr} {s : State} (hb : s.status.busy = false) : ∃ t, exec i s = .next t := by
  cases i <;>
    simp only [exec, execCapq, execEmbed, execExtract, execAeadEnc, execAeadDec, hb, Bool.false_eq_true, if_false,
      Host.Outcome.next.injEq, exists_eq']

/-- In a state with the invariant, the executing command's engine step, and any command's start step, answer a next
state. -/
theorem exec_next {i : Instr} {s : State} (hi : Inv s) (h : s.status.busy = true → i = s.hid.op) :
    ∃ t, exec i s = .next t := by
  cases hb : s.status.busy
  · exact exec_start_next hb
  · have hio := h hb
    cases i with
    | capq => exact absurd hio.symm (hi.notCapq hb)
    | embed => exact ⟨_, rfl⟩
    | extract => exact ⟨_, rfl⟩
    | aeadEnc => exact ⟨_, rfl⟩
    | aeadDec =>
      have hrun := hi.aeadDecRuns hb hio.symm
      simp only [exec, execAeadDec, hb, if_true]
      cases hph : s.hid.phase
      · exact absurd hph hrun.phase
      · exact ⟨_, rfl⟩
      · exact ⟨_, rfl⟩

/-! ## Emissions -/

/-- What an engine step emits: nothing where it fails, and else a rising list that ends at 100 when a scan completes. -/
theorem exec_emits {s t : State} (hi : Inv s) (hb : s.status.busy = true) (h : exec s.hid.op s = .next t) :
    (t.status.err = true ∧ t.prog = s.prog ∧ t.progCount = s.progCount ∧ t.intStatus.prog = s.intStatus.prog ∧
      t.status.done = false) ∨
    ∃ vs, Emits s t vs ∧
      (s.hid.op = .embed ∨ s.hid.op = .extract → t.status.done = true → vs.getLast? = some 100) ∧
      (s.hid.op = .aeadEnc ∨ s.hid.op = .aeadDec → vs = []) := by
  have hfl := hi.busyFlags hb
  cases ho : s.hid.op with
  | capq => exact absurd ho (hi.notCapq hb)
  | embed =>
    have hrun := hi.embedRuns hb ho
    have hready := (embedCheck_none s).1 hrun.checks
    simp only [ho, exec, execEmbed, hb, if_true, Host.Outcome.next.injEq] at h
    subst h
    rcases embedStep_cases s with ⟨a, cur, he⟩ | ⟨cur, hc, hw, he⟩
    · left; rw [he]; exact ⟨rfl, rfl, rfl, rfl, hfl.1⟩
    · right
      rw [he]
      generalize hs1 : ({ s with
        hid := { s.hid with cur := cur }
        mem := memWrite s.mem (byteAddr s.imgBase s.hid.k).toNat
          (withLsb (readByte s (byteAddr s.imgBase s.hid.k).toNat) (currentBit cur s.hid.k)) } : State) = s1
      have hk1 : s.hid.k < requiredBits s1 := by subst hs1; exact hrun.cursor
      have hc2 : requiredBits s1 ≤ capacityBits s1 := by subst hs1; exact hready.capacity
      have hp1 : s1.progress.toNat = percent (s.hid.k / 3) (pixels s1) := by subst hs1; exact hrun.counters.progress
      have hx1 : s1.pixDone.toNat = s.hid.k / 3 := by subst hs1; exact hrun.counters.pixDone
      obtain ⟨vs, e1, e2, e3⟩ := emits_embedTail hk1 hc2 hp1
      obtain ⟨c1, c2, c3, c4, c5, c6, c7, c8⟩ := embedTail_counters hk1 hc2 hx1
      refine ⟨vs, e1.of (by subst hs1; rfl) (by subst hs1; rfl) (by subst hs1; rfl) (by subst hs1; rfl),
        fun _ hd => e2 ?_, fun h => by simp at h⟩
      rw [c4] at hd
      by_contra hl
      rw [if_neg hl] at hd
      subst hs1
      exact absurd (show s.status.done = true from hd) (by simp [hfl.1])
  | extract =>
    have hrun := hi.extractRuns hb ho
    simp only [ho, exec, execExtract, hb, if_true, Host.Outcome.next.injEq] at h
    subst h
    have key : ∀ s1 : State, s1.prog = s.prog → s1.progCount = s.progCount → s1.intStatus = s.intStatus →
        s1.progress = s.progress → s1.dim = s.dim → s1.pixDone = s.pixDone → s1.status = s.status →
        ∃ vs, Emits s (extractTail s.hid.k s1) vs ∧
          ((extractTail s.hid.k s1).status.done = true → vs.getLast? = some 100) := by
      intro s1 e1 e2 e3 e4 e5 e6 e7
      have hpx : pixels s1 = pixels s := by simp only [pixels, width, height, e5]
      have hcp : capacityBits s1 = capacityBits s := by simp only [capacityBits, hpx]
      have hk1 : s.hid.k < capacityBits s1 := by rw [hcp]; exact hrun.cursor
      obtain ⟨p1, p2, p3⟩ := emits_extractTail hk1 (by rw [e4, hpx]; exact hrun.counters.progress)
      obtain ⟨c1, c2, c3, c4⟩ := extractTail_counters hk1 (by rw [e6]; exact hrun.counters.pixDone)
      refine ⟨_, p1.of e1 e2 (by rw [e3]) e4, fun hd => ?_⟩
      by_cases hl : s.hid.k + 1 = capacityBits s1
      · obtain ⟨q1, q2⟩ := p2 hl
        rw [q2, if_pos q1]; rfl
      · rw [c2, if_neg hl, e7, hfl.1] at hd
        cases hd
    rcases extractStep_cases s with he | ⟨h8, he⟩ | ⟨h8, he⟩ | ⟨h8, hw, he⟩ <;> rw [he]
    · left; exact ⟨rfl, rfl, rfl, rfl, hfl.1⟩
    · right
      obtain ⟨vs, h1, h2⟩ := key (extractRead s) rfl rfl rfl rfl rfl rfl rfl
      exact ⟨vs, h1, fun _ => h2, fun h => by simp at h⟩
    · left; exact ⟨rfl, rfl, rfl, rfl, hfl.1⟩
    · right
      obtain ⟨vs, h1, h2⟩ := key { extractRead s with
        mem := memWrite s.mem (byteAddr s.dstBase ((s.hid.k + 1) / 8 - 1)).toNat (extractRead s).hid.acc
        outLen := BitVec.ofNat 32 ((s.hid.k + 1) / 8 - 1 + 1) } rfl rfl rfl rfl rfl rfl rfl
      exact ⟨vs, h1, fun _ => h2, fun h => by simp at h⟩
  | aeadEnc =>
    simp only [ho, exec, execAeadEnc, hb, if_true, Host.Outcome.next.injEq] at h
    subst h
    rcases aeadEncStep_cases s with ⟨a, he⟩ | ⟨hw, he⟩ <;> rw [he]
    · left; exact ⟨rfl, rfl, rfl, rfl, hfl.1⟩
    · right
      refine ⟨[], ?_, fun h => by simp at h, fun _ => rfl⟩
      split <;> exact Emits.none rfl rfl rfl rfl
  | aeadDec =>
    simp only [ho, exec, execAeadDec, hb, if_true] at h
    cases hph : s.hid.phase <;> rw [hph] at h
    · simp at h
    · simp only [Host.Outcome.next.injEq] at h
      subst h
      rcases aeadAuthStep_cases s with ⟨a, he⟩ | he <;> rw [he]
      · left; exact ⟨rfl, rfl, rfl, rfl, hfl.1⟩
      · split
        · split
          · left; exact ⟨rfl, rfl, rfl, rfl, hfl.1⟩
          · right; exact ⟨[], Emits.none rfl rfl rfl rfl, fun h => by simp at h, fun _ => rfl⟩
        · right; exact ⟨[], Emits.none rfl rfl rfl rfl, fun h => by simp at h, fun _ => rfl⟩
    · simp only [Host.Outcome.next.injEq] at h
      subst h
      rcases aeadWriteStep_cases s with ⟨a, he⟩ | ⟨hw, he⟩ <;> rw [he]
      · left; exact ⟨rfl, rfl, rfl, rfl, hfl.1⟩
      · right
        refine ⟨[], ?_, fun h => by simp at h, fun _ => rfl⟩
        split <;> exact Emits.none rfl rfl rfl rfl

end Sys2Proof.Machine
end

