-- ==== Sys2Proof/Laws/Turn.lean ====
section
/-! SUPPORT. What a step is, by the event it takes: one equation per event, and the port's accesses. -/

namespace Sys2Proof.Machine

theorem regAt_offset (r : Reg) : regAt (regOffset r) = some r := by
  cases r with
  | key i => revert i; decide
  | iv i => revert i; decide
  | tag i => revert i; decide
  | _ => decide

/-- A write at a register's offset, but for CMD while idle. -/
theorem writeOffset_reg (r : Reg) (v : Word) (s : State) :
    writeOffset (regOffset r) v s =
      if s.status.busy && (locked r || r == .cmd) then setOvr s else writeReg r v s := by
  rw [writeOffset, regAt_offset]

theorem readOffset_reg (r : Reg) (s : State) : readOffset (regOffset r) s = readReg r s := by
  rw [readOffset, regAt_offset]

/-- An offset of the map is a multiple of 4. -/
theorem regAt_mod {o : BitVec 8} {r : Reg} (h : regAt o = some r) : o.toNat % 4 = 0 := by
  have : ∀ o : BitVec 8, (regAt o).isSome → o.toNat % 4 = 0 := by decide +kernel
  exact this o (by rw [h]; rfl)

theorem proper_write {o : BitVec 8} {v : Word} : accessProper (.write .word o v) = true ↔ o.toNat % 4 = 0 := by
  revert o
  simp only [accessProper]
  decide +kernel

theorem proper_read {o : BitVec 8} : accessProper (.read .word o) = true ↔ o.toNat % 4 = 0 := by
  revert o
  simp only [accessProper]
  decide +kernel

/-- A step, by the head of the inbox. -/
theorem step_eq (s : State) : step s = match s.inbox with
    | [] => engineTurn (clearOutputs s)
    | e :: rest => eventTurn e { clearOutputs s with inbox := rest } := rfl

theorem step_quiet {s : State} (h : s.inbox = []) : step s = engineTurn (clearOutputs s) := by
  rw [step_eq, h]

theorem step_event {s : State} {e : HostEvent} {rest : List HostEvent} (h : s.inbox = e :: rest) :
    step s = eventTurn e { clearOutputs s with inbox := rest } := by
  rw [step_eq, h]

theorem step_access {s : State} {a : PortAccess} {rest : List HostEvent} (h : s.inbox = .access a :: rest) :
    step s = portTurn a { clearOutputs s with inbox := rest } := step_event h

/-- The engine's turn of an executing command. -/
theorem engineTurn_busy {s : State} (hr : s.rstN = true) (hb : s.status.busy = true) :
    engineTurn s = mapNext afterExec (exec s.hid.op s) := by
  rw [engineTurn, if_pos (by simp [hr, hb])]

theorem engineTurn_idle {s : State} (hb : s.status.busy = false) : engineTurn s = .next s := by
  rw [engineTurn, if_neg (by simp [hb])]

/-! ## Accesses in the same step as an engine step -/

theorem accessClearsInt_iff {a : PortAccess} : accessClearsInt a = true ↔ ∃ v, a = .write .word 0x20 v := by
  cases a with
  | read z o => simp [accessClearsInt]
  | write z o d =>
    simp only [accessClearsInt, Bool.and_eq_true, beq_iff_eq, PortAccess.write.injEq, exists_eq_right_right', regOffset]

/-- The access counts as before the engine's step. -/
theorem coincideTurn_before {a : PortAccess} {o : Order} {s : State} (hb : s.status.busy = true)
    (h : o = .before ∨ accessClearsInt a = true) : coincideTurn a o s = bindNext engineTurn (portTurn a s) := by
  rcases h with rfl | h <;> simp only [coincideTurn.eq_def, hb, if_true]
  rw [h]; cases o <;> rfl

/-- The access counts as after the engine's step. -/
theorem coincideTurn_after {a : PortAccess} {s : State} (hb : s.status.busy = true) (h : accessClearsInt a = false) :
    coincideTurn a .after s = bindNext (portTurn a) (engineTurn s) := by
  simp only [coincideTurn.eq_def, hb, if_true, h]

theorem coincideTurn_idle {a : PortAccess} {o : Order} {s : State} (hb : s.status.busy = false) :
    coincideTurn a o s = portTurn a s := by
  rw [coincideTurn.eq_def, if_neg (by simp [hb])]

/-- While a command executes, `wait` is a read of STATUS before the engine's step, and stays next. -/
theorem waitTurn_busy {s : State} (hb : s.status.busy = true) :
    waitTurn s = coincideTurn (.read .word 0x10) .before { s with inbox := .wait :: s.inbox } := by
  rw [coincideTurn_before (by exact hb) (.inl rfl), waitTurn]
  exact if_pos hb

theorem waitTurn_idle {s : State} (hb : s.status.busy = false) : waitTurn s = portTurn (.read .word 0x10) s := by
  rw [waitTurn]
  exact if_neg (by simp [hb])

/-- While a command executes no access stops, ends it, changes its opcode or lets go of reset. -/
theorem portTurn_busy {a : PortAccess} {s : State} (hb : s.status.busy = true) :
    ∃ t, portTurn a s = .next t ∧ t.status.busy = true ∧ t.hid = s.hid ∧ t.rstN = s.rstN := by
  rw [portTurn.eq_def]
  split
  · exact ⟨_, rfl, hb, rfl, rfl⟩
  cases a with
  | read z o => exact ⟨_, rfl, hb, rfl, rfl⟩
  | write z o v =>
    refine ⟨writeOffset o v { s with resp := some .writeOkay }, ?_, ?_⟩
    · simp only [portWrite, hb, Bool.true_eq_false, and_false, if_false]
    · simp only [writeOffset]
      cases regAt o with
      | none => exact ⟨hb, rfl, rfl⟩
      | some r =>
        dsimp only
        split
        · exact ⟨hb, rfl, rfl⟩
        · cases r with
          | status => simp only [writeReg]; split <;> exact ⟨hb, rfl, rfl⟩
          | _ => exact ⟨hb, rfl, rfl⟩

/-! ## The progress port and a start step -/

theorem writeCapacity_withProg (p : List (BitVec 7)) (s : State) :
    writeCapacity { s with prog := p } = { writeCapacity s with prog := p } := by
  have h : dimIsZero { s with prog := p } = dimIsZero s := rfl
  rw [writeCapacity, writeCapacity, h]
  split <;> rfl

theorem capqStart_withProg (p : List (BitVec 7)) (s : State) :
    capqStart { s with prog := p } = { capqStart s with prog := p } := by
  have h : writeFits (writeCapacity (clearCommand { s with prog := p })) =
      { writeFits (writeCapacity (clearCommand s)) with prog := p } :=
    congrArg writeFits (writeCapacity_withProg p (clearCommand s))
  rw [capqStart, capqStart, h]
  have hc : ∀ t : State, dimIsZero { t with prog := p } = dimIsZero t := fun _ => rfl
  simp only [hc]
  split <;> rfl

theorem embedStart_withProg (p : List (BitVec 7)) (s : State) :
    embedStart { s with prog := p } = { embedStart s with prog := p } := by
  have h : writeFits (writeCapacity (clearCommand { s with prog := p })) =
      { writeFits (writeCapacity (clearCommand s)) with prog := p } :=
    congrArg writeFits (writeCapacity_withProg p (clearCommand s))
  rw [embedStart, embedStart, h]
  have hc : ∀ t : State, embedCheck { t with prog := p } = embedCheck t := fun _ => rfl
  simp only [hc]
  split <;> rfl

theorem extractStart_withProg (p : List (BitVec 7)) (s : State) :
    extractStart { s with prog := p } = { extractStart s with prog := p } := by
  have h : writeCapacity (clearCommand { s with prog := p }) = { writeCapacity (clearCommand s) with prog := p } :=
    writeCapacity_withProg p (clearCommand s)
  rw [extractStart, extractStart, h]
  have hc : ∀ t : State, extractCheck { t with prog := p } = extractCheck t := fun _ => rfl
  simp only [hc]
  split <;> rfl

theorem aeadEncStart_withProg (p : List (BitVec 7)) (s : State) :
    aeadEncStart { s with prog := p } = { aeadEncStart s with prog := p } := by
  have h : aeadEncCheck (clearCommand { s with prog := p }) = aeadEncCheck (clearCommand s) := rfl
  rw [aeadEncStart, aeadEncStart]
  dsimp only
  rw [h]
  split <;> rfl

theorem aeadDecStart_withProg (p : List (BitVec 7)) (s : State) :
    aeadDecStart { s with prog := p } = { aeadDecStart s with prog := p } := by
  have h : aeadDecCheck (clearCommand { s with prog := p }) = aeadDecCheck (clearCommand s) := rfl
  rw [aeadDecStart, aeadDecStart]
  dsimp only
  rw [h]
  split <;> rfl

/-- A start step neither reads nor writes the progress port. -/
theorem exec_start_withProg {i : Instr} {s : State} (hb : s.status.busy = false) (p : List (BitVec 7)) :
    exec i { s with prog := p } = mapNext (fun t => { t with prog := p }) (exec i s) := by
  cases i <;>
    simp only [exec, execCapq, execEmbed, execExtract, execAeadEnc, execAeadDec, hb, Bool.false_eq_true, if_false, mapNext,
      capqStart_withProg, embedStart_withProg, extractStart_withProg, aeadEncStart_withProg, aeadDecStart_withProg]

theorem landStores_withProg (i : Instr) (s : State) (p : List (BitVec 7)) (cs : List Host.Cell) (n : Nat) (m : Memory) :
    landStores i { s with prog := p } cs n m = landStores i s cs n m := by
  induction cs generalizing n m with
  | nil => rfl
  | cons c rest ih =>
    obtain ⟨a, v⟩ := c
    have h : inWritten i { s with prog := p } a = inWritten i s a := by cases i <;> rfl
    simp only [landStores, ih, h]

theorem afterExec_withProg (s : State) (p : List (BitVec 7)) :
    afterExec { s with prog := p } = { afterExec s with prog := p } := by
  unfold afterExec endOfCommand
  simp only [landStores_withProg]
  split
  · split <;> rfl
  · rfl

/-- No register-port access reads or writes the progress port. -/
theorem portTurn_withProg (a : PortAccess) (s : State) (p : List (BitVec 7)) :
    portTurn a { s with prog := p } = mapNext (fun t => { t with prog := p }) (portTurn a s) := by
  rw [portTurn.eq_def, portTurn.eq_def]
  split
  · rfl
  cases a with
  | read z o =>
    have h : readOffset o { s with prog := p } = readOffset o s := by
      unfold readOffset
      cases regAt o with
      | none => rfl
      | some r => cases r <;> rfl
    simp only [h]; rfl
  | write z o v =>
    simp only [portWrite]
    by_cases hi : o = regOffset .cmd ∧ s.status.busy = false
    · rw [if_pos hi, if_pos hi, issue, issue]
      cases decode v with
      | error r =>
        show Host.Outcome.next _ = Host.Outcome.next _
        congr 1
        exact afterExec_withProg (illegalCommand { s with resp := some .writeOkay }) p
      | ok i =>
        have := exec_start_withProg (i := i) (s := { s with resp := some .writeOkay }) hi.2 p
        dsimp only at this ⊢
        rw [this]
        cases exec i { s with resp := some .writeOkay } with
        | next t => simp only [mapNext, afterExec_withProg]
        | fault r => rfl
        | refused r => rfl
    · rw [if_neg hi, if_neg hi]
      show Host.Outcome.next _ = Host.Outcome.next _
      congr 1
      simp only [writeOffset]
      cases regAt o with
      | none => rfl
      | some r =>
        dsimp only
        split
        · rfl
        · cases r with
          | status => simp only [writeReg]; split <;> rfl
          | _ => rfl

/-- No register-port access stops the machine, in any state. -/
theorem portTurn_next (a : PortAccess) (s : State) : ∃ t, portTurn a s = .next t := by
  rw [portTurn.eq_def]
  split
  · exact ⟨_, rfl⟩
  cases a with
  | read z o => exact ⟨_, rfl⟩
  | write z o v =>
    simp only [portWrite]
    split
    · rename_i hi
      rw [issue]
      cases decode v with
      | error r => exact ⟨_, rfl⟩
      | ok i =>
        obtain ⟨t, ht⟩ := exec_start_next (i := i) (s := { s with resp := some .writeOkay }) hi.2
        exact ⟨afterExec t, by simp only [ht, mapNext]⟩
    · exact ⟨_, rfl⟩

/-! ## Register accesses alone -/

/-- A step that reads a register: the response, and nothing else. -/
theorem step_read {s : State} {o : BitVec 8} {rest : List HostEvent}
    (h : s.inbox = .access (.read .word o) :: rest) (hr : s.rstN = true) (ho : o.toNat % 4 = 0) :
    step s = .next (respond (.readOkay (readOffset o s)) rest s) := by
  rw [step_access h, portTurn, if_neg (by simp [hr, proper_read.2 ho])]
  have : readOffset o { clearOutputs s with inbox := rest } = readOffset o s := by
    unfold readOffset
    cases regAt o with
    | none => rfl
    | some r => cases r <;> rfl
  show Host.Outcome.next { clearOutputs s with
    inbox := rest, resp := some (.readOkay (readOffset o { clearOutputs s with inbox := rest })) } = _
  rw [this]; rfl

theorem step_write {s : State} {o : BitVec 8} {v : Word} {rest : List HostEvent}
    (h : s.inbox = .access (.write .word o v) :: rest) (hr : s.rstN = true) (ho : o.toNat % 4 = 0) :
    step s = portWrite o v { clearOutputs s with inbox := rest } := by
  rw [step_access h, portTurn, if_neg (by simp [hr, proper_write.2 ho])]

/-- A step that writes a register and issues no command. -/
theorem step_write_plain {s : State} {o : BitVec 8} {v : Word} {rest : List HostEvent}
    (h : s.inbox = .access (.write .word o v) :: rest) (hr : s.rstN = true) (ho : o.toNat % 4 = 0)
    (hi : o ≠ regOffset .cmd ∨ s.status.busy = true) :
    step s = .next (writeOffset o v (respond .writeOkay rest s)) := by
  rw [step_write h hr ho, portWrite, if_neg]
  · rfl
  · rintro ⟨h1, h2⟩
    rcases hi with hi | hi
    · exact hi h1
    · simp [hi] at h2

/-- A step that issues a command word while idle. -/
theorem step_issue {s : State} {v : Word} {rest : List HostEvent}
    (h : s.inbox = cmdWrite v :: rest) (hr : s.rstN = true) (hb : s.status.busy = false) :
    step s = issue v (respond .writeOkay rest s) := by
  rw [step_write h hr (by decide), portWrite, if_pos ⟨rfl, hb⟩]
  rfl

end Sys2Proof.Machine
end

