-- ==== Sys2Proof/Laws/Invariant.lean ====
section
/-! SUPPORT. How the invariant goes through a step: what it does not see,
  that every execution of a command keeps it, and
that the open values of a command's end keep it. Runs of steps. -/

namespace Sys2Proof.Machine

/-! ## What the invariant does not see -/

theorem AtReset.congr {s t : State} (h : AtReset s)
    (h1 : ∃ r m w i f, t = { s with resp := r, mem := m, windows := w, inbox := i, free := f }) : AtReset t := by
  obtain ⟨r, m, w, i, f, rfl⟩ := h1
  unfold AtReset at h ⊢
  rw [h]
  rfl

theorem Inv.around {s : State} (h : Inv s) (r : Option PortResponse) (w : List BusWindow) (i : List HostEvent)
    (f : Nat) :
    Inv { s with resp := r, windows := w, inbox := i, free := f } :=
  ⟨h.memory, h.oneEnd, h.busyFlags, h.errorCode, h.errAddr, h.progress, h.progCount, h.capBytes, h.racing,
    h.raceAddr,
    fun hr => (h.reset hr).congr ⟨r, s.mem, w, i, f, rfl⟩,
    fun hb => Running.congr (s := s) ⟨rfl, rfl, rfl, rfl, rfl, rfl, rfl, rfl, rfl, rfl, rfl, rfl, rfl, rfl, rfl,
      rfl, rfl, rfl⟩ (h.running hb)⟩

theorem Inv.progAtReset {s : State} (h : Inv s) (hr : s.rstN = false) : s.prog = [] := by
  have := h.reset hr
  rw [AtReset] at this
  rw [this]
  rfl

theorem Inv.clearOutputs {s : State} (h : Inv s) : Inv (clearOutputs s) := by
  refine ⟨h.memory, h.oneEnd, h.busyFlags, h.errorCode, h.errAddr, h.progress, h.progCount, h.capBytes, h.racing,
    h.raceAddr, fun hr => ?_,
    fun hb => Running.congr (s := s) ⟨rfl, rfl, rfl, rfl, rfl, rfl, rfl, rfl, rfl, rfl, rfl, rfl, rfl, rfl, rfl,
      rfl, rfl, rfl⟩ (h.running hb)⟩
  refine (h.reset hr).congr ⟨none, s.mem, s.windows, s.inbox, s.free, ?_⟩
  simp only [Machine.clearOutputs, h.progAtReset hr]

/-! ## Every execution of a command keeps the invariant -/

/-- The invariant without the clause on racing stores, which afterExec restores. -/
structure Unsettled (s : State) : Prop where
  memory    : Memory.wf s.mem = true
  oneEnd    : ¬(s.status.done = true ∧ s.status.err = true)
  busyFlags : s.status.busy = true → s.status.done = false ∧ s.status.err = false
  errorCode : s.error ≠ .none ↔ s.status.err = true
  errAddr   : s.errAddr ≠ 0 → s.error = .bus
  progress  : s.progress.toNat ≤ 100
  progCount : s.progCount.toNat ≤ 100
  capBytes  : s.capBytes.toNat = s.capBits.toNat / 8
  raceAddr  : ∀ c ∈ s.racing, c.1 < 2 ^ 32
  live      : s.rstN = true
  running   : s.status.busy = true → Running s

/-- The open values of a command's end bring back the whole invariant. -/
theorem Unsettled.afterExec {s : State} (h : Unsettled s) : Inv (afterExec s) := by
  unfold Machine.afterExec
  cases hb : s.status.busy
  · simp only [Bool.false_eq_true, if_false]
    exact ⟨landStores_wf _ _ _ _ _ h.raceAddr h.memory, h.oneEnd, fun hc => by simp [hb] at hc, h.errorCode,
      h.errAddr, h.progress, h.progCount, h.capBytes, fun _ => rfl, fun c hc => by simp at hc,
      fun hr => by simp [h.live] at hr, fun hc => by simp [hb] at hc⟩
  · simp only [if_true]
    split
    · exact ⟨h.memory, h.oneEnd, h.busyFlags, h.errorCode, h.errAddr, h.progress, h.progCount, h.capBytes,
        fun hc => by simp [hb] at hc, h.raceAddr, fun hr => by simp [h.live] at hr, h.running⟩
    · exact ⟨h.memory, h.oneEnd, h.busyFlags, h.errorCode, h.errAddr, h.progress, h.progCount, h.capBytes,
        fun hc => by simp [hb] at hc, h.raceAddr, fun hr => by simp [h.live] at hr, fun hc => Running.congr
        (s := s) ⟨rfl, rfl, rfl, rfl, rfl, rfl, rfl, rfl, rfl, rfl, rfl, rfl, rfl, rfl, rfl, rfl, rfl, rfl⟩
        (h.running hc)⟩

/-- A state that fail() leaves. -/
theorem unsettled_failAt {c : ErrCode} {a : Word} {s : State} (hc : c ≠ .none) (h1 : Memory.wf s.mem = true)
    (h2 : s.status.done = false)
    (h3 : s.progCount.toNat ≤ 100) (h4 : s.capBytes.toNat = s.capBits.toNat / 8) (h5 : ∀ c ∈ s.racing,
      c.1 < 2 ^ 32) (h6 : s.rstN = true) : Unsettled (failAt c a s) := by
  refine ⟨h1, fun h => by simp [h2] at h, fun h => by simp at h, ?_, ?_, by simp, h3, h4, h5, h6,
    fun h => by simp at h⟩
  · simp [hc]
  · intro h; by_contra hne; exact h (if_neg hne)

theorem byteAddr_lt (b : Word) (k : Nat) : (byteAddr b k).toNat < 2 ^ 32 := (byteAddr b k).isLt

/-- The engine step of the executing command, and the start step of any command while idle, keep the invariant,
  but for
racing stores, which afterExec settles. -/
theorem exec_unsettled {i : Instr} {s t : State} (hi : Inv s) (hr : s.rstN = true) (hbi : s.status.busy = true →
    i = s.hid.op) (h : exec i s = .next t) : Unsettled t := by
  have hk := exec_keeps h
  have hrace := hi.raceAddr
  cases hb : s.status.busy
  · have hfail : ∀ c s1, c ≠ .none → s1 = s1 → Memory.wf s1.mem = true → s1.status.done = false →
      s1.progCount = 0 → s1.capBytes.toNat = s1.capBits.toNat / 8 → s1.racing = s.racing → s1.rstN = s.rstN →
      Unsettled (fail c s1) := by
      intro c s1 hc _ h1 h2 h3 h4 h5 h6
      exact unsettled_failAt hc h1 h2 (by simp [h3]) h4 (by rw [h5]; exact hrace) (by rw [h6]; exact hr)
    have hbeg : ∀ (i : Instr) (s1 : State), Memory.wf s1.mem = true → s1.status.done = false →
      s1.status.err = false → s1.error = .none → s1.errAddr = 0 → s1.progress = 0 → s1.progCount = 0 →
      s1.capBytes.toNat = s1.capBits.toNat / 8 → s1.racing = s.racing → s1.rstN = s.rstN → Running
      (beginCommand i s1) → Unsettled (beginCommand i s1) := by
      intro i s1 h1 h2 h3 h4 h5 h6 h7 h8 h9 h10 h11
      refine ⟨h1, fun h => by simp [h2] at h, fun _ => ⟨h2, h3⟩, by simp [h3, h4], fun h => by simp [h5] at h,
        by simp [h6], by simp [h7], h8, ?_, ?_, fun _ => h11⟩
      · show ∀ c ∈ s1.racing, _
        rw [h9]; exact hrace
      · show s1.rstN = true; rw [h10, hr]
    have hwf : Memory.wf (writeCapacity (clearCommand s)).mem = true := by simp [hi.memory]
    have hrat := writeCapacity_ratio (clearCommand s)
    cases i with
    | capq =>
      simp only [exec, execCapq, hb, Bool.false_eq_true, if_false, Host.Outcome.next.injEq] at h
      subst h
      cases hd : dimIsZero s
      · rw [capqStart_ok hd]
        refine ⟨by simp [hi.memory], fun h => by simp at h, fun h => by simp at h, by simp, by simp, by simp,
          by simp, hrat, by simpa using hrace, by simpa using hr, fun h => by simp at h⟩
      · rw [capqStart_zero hd]
        exact hfail _ _ (by simp) rfl (by simp [hi.memory]) (by simp) (by simp) hrat (by simp) (by simp)
    | embed =>
      simp only [exec, execEmbed, hb, Bool.false_eq_true, if_false, Host.Outcome.next.injEq, embedStart,
        embedCheck_start] at h
      subst h
      have hn : embedCheck s ≠ some .none := by
        unfold embedCheck;  repeat' split
        all_goals simp
      cases hc : embedCheck s with
      | none =>
        have hready := (embedCheck_none s).1 hc
        have hd := dimIsZero_false.2 ⟨hready.wide, hready.high⟩
        refine hbeg _ _ (by simp [hi.memory]) (by simp) (by simp) (by simp) (by simp) (by simp) (by simp) hrat
          (by simp) (by simp) ?_
        rw [start_ok hd]
        show EmbedRuns _
        refine ⟨hc, ?_, ⟨?_, rfl, by simp [startedFrom, beginCommand], ?_, by simp [startedFrom, beginCommand]⟩,
          ?_, rfl⟩
        · show 0 < 8 * lenBytes s
          have := hready.len; omega
        · have hle := capacityBits_le s
          show (BitVec.ofNat 34 (capacityBits s)).toNat = capacityBits s
          rw [BitVec.toNat_ofNat]; omega
        · show 0 = percent (0 / 3) _
          simp
        · show fitsLen s = true
          exact fitsLen_true.2 hready.capacity
      | some c =>
        rw [hc] at hn
        exact hfail _ _ (by simpa using hn) rfl (by simp [hi.memory]) (by simp) (by simp) hrat (by simp) (by simp)
    | extract =>
      simp only [exec, execExtract, hb, Bool.false_eq_true, if_false, Host.Outcome.next.injEq, extractStart,
        extractCheck_start] at h
      subst h
      have hn : extractCheck s ≠ some .none := by
        unfold extractCheck;  repeat' split
        all_goals simp
      cases hc : extractCheck s with
      | none =>
        have hready := (extractCheck_none s).1 hc
        have hd : dimIsZero (clearCommand s) = false := dimIsZero_false.2 ⟨hready.wide, hready.high⟩
        refine hbeg _ _ (by simp [hi.memory]) (by simp) (by simp) (by simp) (by simp) (by simp) (by simp) hrat
          (by simp) (by simp) ?_
        rw [writeCapacity_ok hd]
        show ExtractRuns _
        refine ⟨hc, ?_, ⟨?_, rfl, by simp [beginCommand], ?_, by simp [beginCommand]⟩, by simp [beginCommand]⟩
        · show 0 < capacityBits s
          have : capacityBits s = 3 * (width s * height s) := rfl
          have := hready.long; omega
        · have hle := capacityBits_le s
          show (BitVec.ofNat 34 (capacityBits s)).toNat = capacityBits s
          rw [BitVec.toNat_ofNat]; omega
        · show 0 = percent (0 / 3) _
          simp
      | some c =>
        rw [hc] at hn
        exact hfail _ _ (by simpa using hn) rfl (by simp [hi.memory]) (by simp) (by simp) hrat (by simp) (by simp)
    | aeadEnc =>
      simp only [exec, execAeadEnc, hb, Bool.false_eq_true, if_false, Host.Outcome.next.injEq, aeadEncStart,
        aeadEncCheck_start] at h
      subst h
      have hn : aeadEncCheck s ≠ some .none := by
        unfold aeadEncCheck aeadRegionCheck;  repeat' split
        all_goals simp
      cases hc : aeadEncCheck s with
      | none =>
        obtain ⟨hready, hivu⟩ := (aeadEncCheck_none s).1 hc
        have hdc := (aeadDecCheck_none s).2 hready
        refine hbeg _ _ hi.memory rfl rfl rfl rfl rfl rfl hi.capBytes rfl rfl ?_
        show AeadEncRuns _
        refine ⟨hready.present, ?_, ?_, ⟨rfl, rfl, rfl, rfl⟩, rfl, rfl, rfl⟩
        · have h2 := hdc
          simp only [aeadDecCheck, hready.present, hready.len] at h2
          show aeadRegionCheck s = none
          simpa using h2
        · show 0 < lenBytes s
          have := hready.len; omega
      | some c =>
        rw [hc] at hn
        exact hfail _ _ (by simpa using hn) rfl hi.memory rfl rfl hi.capBytes rfl rfl
    | aeadDec =>
      simp only [exec, execAeadDec, hb, Bool.false_eq_true, if_false, Host.Outcome.next.injEq, aeadDecStart,
        aeadDecCheck_start] at h
      subst h
      have hn : aeadDecCheck s ≠ some .none := by
        unfold aeadDecCheck aeadRegionCheck;  repeat' split
        all_goals simp
      cases hc : aeadDecCheck s with
      | none =>
        have hready := (aeadDecCheck_none s).1 hc
        refine hbeg _ _ hi.memory rfl rfl rfl rfl rfl rfl hi.capBytes rfl rfl ?_
        show AeadDecRuns _
        refine ⟨hc, ?_, ⟨rfl, rfl, rfl, rfl⟩, ?_, rfl, fun _ => rfl, fun h => ?_⟩
        · show 0 < lenBytes s
          have := hready.len; omega
        · show Phase.authPass ≠ .run
          simp
        · exact absurd (show Phase.authPass = .writePass from h) (by simp)
      | some c =>
        rw [hc] at hn
        exact hfail _ _ (by simpa using hn) rfl hi.memory rfl rfl hi.capBytes rfl rfl
  · have hfl := hi.busyFlags hb
    have hio := hbi hb
    have herr := hi.noError hb
    have herra := hi.noErrAddr hb
    subst hio
    -- progress part
    have hemit := exec_emits hi hb h
    have hfails : ∀ c a s1, t = failAt c a s1 → c ≠ .none → s1.mem = s.mem → s1.status = s.status →
      s1.progCount = s.progCount → s1.capBytes = s.capBytes → s1.capBits = s.capBits → s1.racing = s.racing →
      s1.rstN = s.rstN → Unsettled t := by
      intro c a s1 he hc h1 h2 h3 h4 h5 h6 h7
      subst he
      exact unsettled_failAt hc (by rw [h1]; exact hi.memory) (by rw [h2]; exact hfl.1)
        (by rw [h3]; exact hi.progCount) (by rw [h4, h5]; exact hi.capBytes) (by rw [h6]; exact hrace)
        (by rw [h7]; exact hr)
    -- a step that goes on or completes
    have hgoes : Memory.wf t.mem = true → t.status.err = false → (t.status.done = !t.status.busy) →
      t.error = .none → t.errAddr = 0 → t.capBits = s.capBits → t.capBytes = s.capBytes → (t.status.busy = true →
      t.progCount.toNat ≤ t.progress.toNat → Running t) → s.progCount.toNat ≤ s.progress.toNat → Unsettled t := by
      intro h1 h2 h3 h4 h5 h6 h7 h8 h9
      rcases hemit with ⟨he, _⟩ | ⟨vs, e1, e2, e3⟩
      · rw [h2] at he; cases he
      have hl := e1.length_le
      have hp100 : t.progress.toNat ≤ 100 := by
        rw [e1.latest]
        cases vs using List.reverseRecOn with
        | nil => exact hi.progress
        | append_singleton vs w => rw [List.getLastD_concat]; exact e1.bounded w (by simp)
      have hcnt : t.progCount.toNat ≤ t.progress.toNat := by
        rw [e1.latest] at hp100 ⊢
        rw [e1.count, BitVec.toNat_add, BitVec.toNat_ofNat]; omega
      refine ⟨h1, ?_, fun h => ?_, by simp [h2, h4], by simp [h5], hp100, by omega,
        by rw [h6, h7]; exact hi.capBytes, by rw [hk.racing]; exact hrace, by rw [hk.rstN]; exact hr,
        fun h => h8 h hcnt⟩
      · simp [h2]
      · rw [h] at h3; exact ⟨by simpa using h3, h2⟩
    cases ho : s.hid.op with
    | capq => exact absurd ho (hi.notCapq hb)
    | embed =>
      have hrun := hi.embedRuns hb ho
      have hready := (embedCheck_none s).1 hrun.checks
      simp only [ho, exec, execEmbed, hb, if_true, Host.Outcome.next.injEq] at h
      rcases embedStep_cases s with ⟨a, cur, he⟩ | ⟨cur, hc, hw, he⟩
      · rw [he] at h
        exact hfails _ _ _ h.symm (by simp) rfl rfl rfl rfl rfl rfl rfl
      · rw [he] at h
        generalize hs1 : ({ s with
          hid := { s.hid with cur := cur }
          mem := memWrite s.mem (byteAddr s.imgBase s.hid.k).toNat
            (withLsb (readByte s (byteAddr s.imgBase s.hid.k).toNat) (currentBit cur s.hid.k)) } : State) = s1 at h
        have k1 : s.hid.k < requiredBits s1 := by subst hs1; exact hrun.cursor
        have k2 : requiredBits s1 ≤ capacityBits s1 := by subst hs1; exact hready.capacity
        have k3 : s1.pixDone.toNat = s.hid.k / 3 := by subst hs1; exact hrun.counters.pixDone
        have k4 : s1.progress.toNat = percent (s.hid.k / 3) (pixels s1) := by subst hs1; exact hrun.counters.progress
        obtain ⟨c1, c2, c3, c4, c5, c6, c7, c8⟩ := embedTail_counters k1 k2 k3
        obtain ⟨vs, e1, e2, e3⟩ := emits_embedTail k1 k2 k4
        obtain ⟨_, _, _, _, _, _, _, _, _, _, hsh⟩ := embedTail_shape s.hid.k s1
        rw [h] at c1 c2 c3 c4 c5 c6 c7 c8 e3 hsh
        subst hs1
        have hst : t.status =
            if s.hid.k + 1 = requiredBits s then { s.status with busy := false, done := true } else s.status := c4
        refine hgoes ?_ ?_ ?_ (c7.trans herr) (c8.trans herra) (by rw [hsh]; rfl) (by rw [hsh]; rfl)
          (fun hbt hcnt => ?_) hrun.counters.count
        · rw [hsh]; exact memWrite_wf hi.memory (byteAddr_lt _ _) _
        · rw [hst]; split
          · exact hfl.2
          · exact hfl.2
        · rw [hst]; split
          · rfl
          · rw [hfl.1, hb]; rfl
        · have hl : s.hid.k + 1 ≠ requiredBits s := by
            intro hl; rw [hst, if_pos hl] at hbt; cases hbt
          have hop : t.hid.op = .embed := by rw [c3]; exact ho
          have hkk : t.hid.k = s.hid.k + 1 := by rw [c3]
          have hdim : t.dim = s.dim := hk.dim
          have hpx : pixels t = pixels s := by simp only [pixels, width, height, hdim]
          have hcp : capacityBits t = capacityBits s := by simp only [capacityBits, hpx]
          have hrq : requiredBits t = requiredBits s := by simp only [requiredBits, lenBytes, hk.len]
          unfold Running
          rw [hop]
          refine ⟨?_, ?_, ⟨?_, ?_, ?_, ?_, hcnt⟩, ?_, ?_⟩
          · rw [embedCheck_none]
            obtain ⟨a, b, c, d, e, f, g⟩ := hready
            have hw' : width t = width s := by simp only [width, hdim]
            have hh' : height t = height s := by simp only [height, hdim]
            have hl' : lenBytes t = lenBytes s := by simp only [lenBytes, hk.len]
            exact ⟨by rw [hw']; exact a, by rw [hh']; exact b, by rw [hl']; exact c,
              by rw [hl', hw', hh']; exact d, by rw [hk.imgBase, hw', hh']; exact e, by rw [hk.srcBase, hl']; exact f,
              by rw [hk.imgBase, hk.srcBase, hw', hh', hl']; exact g⟩
          · have := hrun.cursor
            rw [hkk, hrq]; omega
          · rw [hcp]
            have : t.capBits = s.capBits := by rw [hsh]; rfl
            rw [this]; exact hrun.counters.capBits
          · rw [c1, hkk]
          · rw [c2, hkk]
            by_cases hm : (s.hid.k + 1) % 3 = 0
            · rw [if_pos (.inl hm)]; omega
            · rw [if_neg (by rintro (h | h); exact hm h; exact hl h)]; omega
          · rw [hkk, hpx]; exact e3 hl
          · rw [hst, if_neg hl]; exact hrun.fits
          · rw [hsh]; exact hrun.outLen
    | extract =>
      have hrun := hi.extractRuns hb ho
      have hready := (extractCheck_none s).1 hrun.checks
      simp only [ho, exec, execExtract, hb, if_true, Host.Outcome.next.injEq] at h
      have hle := capacityBits_le s
      have tail : ∀ s1 : State, t = extractTail s.hid.k s1 → s1.dim = s.dim → s1.pixDone = s.pixDone →
        s1.progress = s.progress → s1.status = s.status → s1.error = s.error → s1.errAddr = s.errAddr →
        s1.capBits = s.capBits → s1.capBytes = s.capBytes → s1.hid.k = s.hid.k + 1 → s1.hid.op = .extract →
        s1.bitsDone.toNat = s.hid.k + 1 → s1.outLen.toNat = (s.hid.k + 1) / 8 → Memory.wf s1.mem = true →
        Unsettled t := by
        intro s1 he e1 e2 e3 e4 e5 e6 e7 e8 e9 e10 e11 e12 e13
        have hpx1 : pixels s1 = pixels s := by simp only [pixels, width, height, e1]
        have hcp1 : capacityBits s1 = capacityBits s := by simp only [capacityBits, hpx1]
        have hk1 : s.hid.k < capacityBits s1 := by rw [hcp1]; exact hrun.cursor
        obtain ⟨c1, c2, c3, c4⟩ := extractTail_counters hk1 (by rw [e2]; exact hrun.counters.pixDone)
        obtain ⟨p1, p2, p3⟩ := emits_extractTail hk1 (by rw [e3, hpx1]; exact hrun.counters.progress)
        obtain ⟨_, _, _, _, _, _, _, hsh⟩ := extractTail_shape s.hid.k s1
        rw [← he] at c1 c2 c3 c4 p1 p3 hsh
        rw [hcp1, e4] at c2
        refine hgoes (by rw [hsh]; exact e13) ?_ ?_ (by rw [hsh]; exact e5.trans herr)
          (by rw [hsh]; exact e6.trans herra) (by rw [hsh]; exact e7) (by rw [hsh]; exact e8)
          (fun hbt hcnt => ?_) hrun.counters.count
        · rw [c2]; split
          · exact hfl.2
          · exact hfl.2
        · rw [c2]; split
          · rfl
          · rw [hfl.1, hb]; rfl
        · have hl : s.hid.k + 1 ≠ capacityBits s := by
            intro hl; rw [c2, if_pos hl] at hbt; cases hbt
          have hop : t.hid.op = .extract := by rw [hsh]; exact e10
          have hkk : t.hid.k = s.hid.k + 1 := by rw [hsh]; exact e9
          have hdim : t.dim = s.dim := hk.dim
          have hpx : pixels t = pixels s := by simp only [pixels, width, height, hdim]
          have hcp : capacityBits t = capacityBits s := by simp only [capacityBits, hpx]
          unfold Running
          rw [hop]
          refine ⟨?_, ?_, ⟨?_, ?_, ?_, ?_, hcnt⟩, ?_⟩
          · rw [extractCheck_none]
            obtain ⟨a, b, c, e, f, g⟩ := hready
            have hw' : width t = width s := by simp only [width, hdim]
            have hh' : height t = height s := by simp only [height, hdim]
            exact ⟨by rw [hw']; exact a, by rw [hh']; exact b, by rw [hw', hh', hk.cfg]; exact c,
              by rw [hk.imgBase, hw', hh']; exact e, by rw [hk.dstBase, hw', hh']; exact f,
              by rw [hk.imgBase, hk.dstBase, hw', hh']; exact g⟩
          · have := hrun.cursor
            rw [hkk, hcp]; omega
          · rw [hcp]
            have : t.capBits = s.capBits := by rw [hsh]; exact e7
            rw [this]; exact hrun.counters.capBits
          · rw [hkk, hsh]; exact e11
          · rw [c1, hkk]
          · rw [hkk, p3, hpx, hpx1]
          · rw [hkk, hsh]; exact e12
      have hbd : (extractRead s).bitsDone.toNat = s.hid.k + 1 := by
        have := hrun.cursor
        show (BitVec.ofNat 34 (s.hid.k + 1)).toNat = _
        rw [BitVec.toNat_ofNat]; omega
      rcases extractStep_cases s with he | ⟨h8, he⟩ | ⟨h8, he⟩ | ⟨h8, hw, he⟩ <;> rw [he] at h
      · exact hfails _ _ _ h.symm (by simp) rfl rfl rfl rfl rfl rfl rfl
      · refine tail (extractRead s) h.symm rfl rfl rfl rfl rfl rfl rfl rfl rfl ho hbd ?_ hi.memory
        show s.outLen.toNat = _
        rw [hrun.outLen]; omega
      · exact hfails _ _ _ h.symm (by simp) rfl rfl rfl rfl rfl rfl rfl
      · refine tail _ h.symm rfl rfl rfl rfl rfl rfl rfl rfl rfl ho hbd ?_ (memWrite_wf hi.memory
          (byteAddr_lt _ _) _)
        have := hrun.cursor
        show (BitVec.ofNat 32 ((s.hid.k + 1) / 8 - 1 + 1)).toNat = _
        rw [BitVec.toNat_ofNat]; omega
    | aeadEnc =>
      have hrun := hi.aeadEncRuns hb ho
      have hl2 := lenBytes_lt s
      simp only [ho, exec, execAeadEnc, hb, if_true, Host.Outcome.next.injEq] at h
      rcases aeadEncStep_cases s with ⟨a, he⟩ | ⟨hw, he⟩ <;> rw [he] at h
      · exact hfails _ _ _ h.symm (by simp) rfl rfl rfl rfl rfl rfl rfl
      · have hcnt0 : s.progCount.toNat ≤ s.progress.toNat := by rw [hrun.counters.count]; simp
        by_cases hl : s.hid.k + 1 = lenBytes s
        · rw [if_pos hl] at h
          subst h
          exact hgoes (memWrite_wf hi.memory (byteAddr_lt _ _) _) hfl.2 rfl herr herra rfl rfl
            (fun h => by simp at h) hcnt0
        · rw [if_neg hl] at h
          subst h
          refine hgoes (memWrite_wf hi.memory (byteAddr_lt _ _) _) hfl.2
            (by simp [encByteDone, hfl.1, hb]) herr herra rfl rfl (fun _ _ => ?_) hcnt0
          unfold Running
          rw [show (encByteDone s).hid.op = .aeadEnc from ho]
          refine ⟨hrun.present, hrun.regions, ?_, ?_, hrun.ivu, ?_, ?_⟩
          · show s.hid.k + 1 < lenBytes s
            have := hrun.cursor; omega
          · obtain ⟨a, b, c, d⟩ := hrun.counters; exact ⟨a, b, c, d⟩
          · show (BitVec.ofNat 32 (s.hid.k + 1)).toNat = s.hid.k + 1
            have := hrun.cursor
            rw [BitVec.toNat_ofNat]; omega
          · show (s.hid.ct ++ [_]).length = s.hid.k + 1
            rw [List.length_append, hrun.ct]; rfl
    | aeadDec =>
      have hrun := hi.aeadDecRuns hb ho
      have hl2 := lenBytes_lt s
      have hcnt0 : s.progCount.toNat ≤ s.progress.toNat := by rw [hrun.counters.count]; simp
      simp only [ho, exec, execAeadDec, hb, if_true] at h
      cases hph : s.hid.phase <;> rw [hph] at h
      · simp at h
      · have ha1 := hrun.auth hph
        simp only [Host.Outcome.next.injEq] at h
        rcases aeadAuthStep_cases s with ⟨a, he⟩ | he <;> rw [he] at h
        · exact hfails _ _ _ h.symm (by simp) rfl rfl rfl rfl rfl rfl rfl
        · by_cases hl : s.hid.k + 1 = lenBytes s
          · rw [if_pos hl] at h
            by_cases hg : tagOf s (authByteDone s).hid.ct = tagBytes s
            · rw [if_neg (by simpa using hg)] at h
              subst h
              refine hgoes hi.memory hfl.2 (by simp [authByteDone, hfl.1, hb]) herr herra rfl rfl
                (fun _ _ => ?_) hcnt0
              show Running _
              unfold Running
              rw [show ({ authByteDone s with hid :=
                { (authByteDone s).hid with phase := .writePass, k := 0, ct := [] } } : State).hid.op = .aeadDec from ho]
              refine ⟨hrun.checks, ?_, ?_, ?_, rfl, ?_, ?_⟩
              · show 0 < lenBytes s
                omega
              · obtain ⟨a, b, c, d⟩ := hrun.counters; exact ⟨a, b, c, d⟩
              · show Phase.writePass ≠ .run
                simp
              · intro h; exact absurd (show Phase.writePass = .authPass from h) (by simp)
              · intro _
                show s.outLen.toNat = 0
                rw [ha1]; rfl
            · rw [if_pos (by simpa using hg)] at h
              exact hfails _ _ _ h.symm (by simp) rfl rfl rfl rfl rfl rfl rfl
          · rw [if_neg hl] at h
            subst h
            refine hgoes hi.memory hfl.2 (by simp [authByteDone, hfl.1, hb]) herr herra rfl rfl
              (fun _ _ => ?_) hcnt0
            unfold Running
            rw [show (authByteDone s).hid.op = .aeadDec from ho]
            refine ⟨hrun.checks, ?_, ?_, hrun.phase, ?_, fun _ => ha1, ?_⟩
            · show s.hid.k + 1 < lenBytes s
              have := hrun.cursor; omega
            · obtain ⟨a, b, c, d⟩ := hrun.counters; exact ⟨a, b, c, d⟩
            · show (s.hid.ct ++ [_]).length = s.hid.k + 1
              rw [List.length_append, hrun.ct]; rfl
            · intro h
              rw [show (authByteDone s).hid.phase = s.hid.phase from rfl, hph] at h
              cases h
      · simp only [Host.Outcome.next.injEq] at h
        rcases aeadWriteStep_cases s with ⟨a, he⟩ | ⟨hw, he⟩ <;> rw [he] at h
        · exact hfails _ _ _ h.symm (by simp) rfl rfl rfl rfl rfl rfl rfl
        · by_cases hl : s.hid.k + 1 = lenBytes s
          · rw [if_pos hl] at h
            subst h
            exact hgoes (memWrite_wf hi.memory (byteAddr_lt _ _) _) hfl.2 rfl herr herra rfl rfl
              (fun h => by simp at h) hcnt0
          · rw [if_neg hl] at h
            subst h
            refine hgoes (memWrite_wf hi.memory (byteAddr_lt _ _) _) hfl.2
              (by simp [decByteDone, hfl.1, hb]) herr herra rfl rfl (fun _ _ => ?_) hcnt0
            unfold Running
            rw [show (decByteDone s).hid.op = .aeadDec from ho]
            refine ⟨hrun.checks, ?_, ?_, hrun.phase, ?_, ?_, ?_⟩
            · show s.hid.k + 1 < lenBytes s
              have := hrun.cursor; omega
            · obtain ⟨a, b, c, d⟩ := hrun.counters; exact ⟨a, b, c, d⟩
            · show (s.hid.ct ++ [_]).length = s.hid.k + 1
              rw [List.length_append, hrun.ct]; rfl
            · intro h
              rw [show (decByteDone s).hid.phase = s.hid.phase from rfl, hph] at h
              cases h
            · intro _
              show (BitVec.ofNat 32 (s.hid.k + 1)).toNat = s.hid.k + 1
              have := hrun.cursor
              rw [BitVec.toNat_ofNat]; omega

/-! ## Steps -/

theorem mapNext_next {f : State → State} {o : Host.Outcome State Fault Refusal} {t : State}
    (h : mapNext f o = .next t) : ∃ u, o = .next u ∧ t = f u := by
  cases o with
  | next u => cases h; exact ⟨u, rfl, rfl⟩
  | fault r => cases h
  | refused r => cases h

theorem bindNext_next {f : State →
    Host.Outcome State Fault Refusal} {o : Host.Outcome State Fault Refusal} {t : State}
    (h : bindNext f o = .next t) : ∃ u, o = .next u ∧ f u = .next t := by
  cases o with
  | next u => exact ⟨u, rfl, h⟩
  | fault r => cases h
  | refused r => cases h

/-- afterExec changes the hidden state, memory, and the model's own fields alone. -/
theorem afterExec_shape (s : State) :
    ∃ h m r n, afterExec s = { s with hid := h, mem := m, racing := r, free := n } := by
  unfold afterExec
  repeat' split
  · exact ⟨s.hid, s.mem, s.racing, s.free, rfl⟩
  · exact ⟨s.hid, s.mem, s.racing, _, rfl⟩
  · exact ⟨_, _, _, _, rfl⟩

theorem run_succ {n : Nat} {s t : State} (h : step s = .next t) :
    Host.Core.run Sys2Proof.core (n + 1) s = Host.Core.run Sys2Proof.core n t := by
  have h' : Sys2Proof.core.step s = .next t := h
  simp only [Host.Core.run, h']

/-- A property that holds of `s` at 0, and of step `k + 1` where it holds of step `k`, holds after `n` steps. -/
theorem stepsTo_induct {n : Nat} {s : State} (P : Nat → State → Prop) (h0 : P 0 s)
    (hs : ∀ k t, k < n → P k t → ∃ u, step t = .next u ∧ P (k + 1) u) : ∃ t, StepsTo n s t ∧ P n t := by
  have key : ∀ m k t, k + m = n → P k t → ∃ u, StepsTo m t u ∧ P n u := by
    intro m
    induction m with
    | zero => intro k t hk hp; exact ⟨t, rfl, by rw [← hk]; exact hp⟩
    | succ m ih =>
      intro k t hk hp
      obtain ⟨u, h1, h2⟩ := hs k t (by omega) hp
      obtain ⟨v, h3, h4⟩ := ih (k + 1) u (by omega) h2
      refine ⟨v, ?_, h4⟩
      show Host.Core.run Sys2Proof.core (m + 1) t = _
      rw [run_succ h1]
      exact h3
  exact key n 0 s (by omega) h0

end Sys2Proof.Machine
end

