-- ==== Sys2Proof/Laws/PerInstr.lean ====
section
/-! SUPPORT. One lemma per command about its CMD word (30_encoding.md R140, R141, R143). -/

/-- The CMD word of a command has RSV = 0 and the command's OP, which stands in byte lane 0 (R112); the four byte lanes
decode to the command. -/
def Sys2Proof.Laws.CmdWord.Statement (i : Sys2Proof.Instr) : Prop :=
  Sys2Proof.cmdRsv (Sys2Proof.encode i) = 0 ∧ Sys2Proof.cmdOp (Sys2Proof.encode i) = Sys2Proof.opcode i ∧
  Sys2Proof.lanes (Sys2Proof.encode i) = [Sys2Proof.opcode i, 0, 0, 0] ∧
  (Sys2Proof.decodeBytes (Sys2Proof.lanes (Sys2Proof.encode i))).toOption = some i

namespace Sys2Proof.Laws.CmdWord

theorem capq : Statement .capq := by unfold Statement; decide

theorem embed : Statement .embed := by unfold Statement; decide

theorem extract : Statement .extract := by unfold Statement; decide

theorem aeadEnc : Statement .aeadEnc := by unfold Statement; decide

theorem aeadDec : Statement .aeadDec := by unfold Statement; decide

end Sys2Proof.Laws.CmdWord
end

