-- ==== Sys2Proof/Tests/Slice0.lean ====
section
/-! SUPPORT. The model's own tests: expected values are written out from spec/ (30_encoding.md, 95_test_vectors.md), and
every statement with hypotheses has a witness that meets them. -/

namespace Sys2Proof.Tests

open Sys2Proof.Machine

/-! ## Encodings (30_encoding.md R141, R143): RSV in bits 31:8, OP in bits 7:0 -/

theorem test_decode_capq : decode 0b00000000_00000000_00000000_00000001#32 = .ok .capq := by decide

theorem test_decode_embed : decode 0b00000000_00000000_00000000_00000010#32 = .ok .embed := by decide

theorem test_decode_extract : decode 0b00000000_00000000_00000000_00000011#32 = .ok .extract := by decide

theorem test_decode_aeadEnc : decode 0b00000000_00000000_00000000_00010000#32 = .ok .aeadEnc := by decide

theorem test_decode_aeadDec : decode 0b00000000_00000000_00000000_00010001#32 = .ok .aeadDec := by decide

theorem test_decode_reservedOp : decode 0x12#32 = .error .reservedOp ∧ decode 0x0F#32 = .error .reservedOp := by decide

theorem test_decode_reservedBits : decode 0x80000001#32 = .error .reservedBits := by decide

theorem test_decode_lanes : decodeBytes [0x11, 0, 0, 0] = .ok .aeadDec ∧ decodeBytes [0x11, 0, 0] = .error .notOneWord := by
  decide

theorem test_decodeTableWord : decodeTableWord 32 0x02 = some .embed ∧ decodeTableWord 32 0x102 = none := by decide

/-- The one check of WellFormed: an AEAD command is no command of an instance without the kernel (R143). -/
theorem test_wellFormed_refuses :
    Instr.wellFormed { Config.default with hasAead := false } .aeadEnc = false ∧
    Instr.wellFormed { Config.default with hasAead := false } .aeadDec = false ∧
    Instr.wellFormed { Config.default with hasAead := false } .extract = true ∧
    legalWord { Config.default with hasAead := false } 0x10 = false := by decide

/-! ## The cipher instantiations (95_test_vectors.md A1 and A2) -/

/-- A1's ciphertext. -/
def ctGcm : List Byte :=
  [0xce, 0xa7, 0x40, 0x3d, 0x4d, 0x60, 0x6b, 0x6e, 0x07, 0x4e, 0xc5, 0xd3, 0xba, 0xf3, 0x9d, 0x18]

/-- A2's ciphertext. -/
def ctChaCha : List Byte :=
  [0x9f, 0x07, 0xe7, 0xbe, 0x55, 0x51, 0x38, 0x7a, 0x98, 0xba, 0x97, 0x7c, 0x73, 0x2d, 0x08, 0x0d]

theorem test_gcmKs :
    (List.range 16).map (gcmKs (Vector.replicate 32 0) (Vector.replicate 12 0)) = ctGcm := by decide +kernel

theorem test_gcmTag :
    packTag (gcmTag (Vector.replicate 32 0) (Vector.replicate 12 0) ctGcm) =
      #v[0xD0D1C8A7, 0x99996BF0, 0x265B98B5, 0xD48AB919] := by decide +kernel

theorem test_chachaKs :
    (List.range 16).map (chachaKs (Vector.replicate 32 0) (Vector.replicate 12 0)) = ctChaCha := by decide +kernel

theorem test_chachaTag :
    packTag (chachaTag (Vector.replicate 32 0) (Vector.replicate 12 0) ctChaCha) =
      #v[0xC34A8804, 0x7320F52A, 0xA2C6683E, 0xF8084D2F] := by decide +kernel

/-! ## States -/

/-- Idle after reset, with operands, memory and coming actions. -/
def ready (dim img src dst len : Word) (mem : Memory) (inbox : List HostEvent) : State :=
  { State.reset with dim := dim, imgBase := img, srcBase := src, dstBase := dst, len := len, mem := mem, inbox := inbox }

theorem inv_of_idle {s : State} (hs : s.status = Status.zero) (he : s.error = .none) (ha : s.errAddr = 0)
    (hp : s.progress = 0) (hn : s.progCount = 0) (hc : s.capBits = 0) (hb : s.capBytes = 0) (hr : s.racing = [])
    (hrst : s.rstN = true) (hm : Memory.wf s.mem = true) : Inv s := by
  refine ⟨hm, ?_, ?_, ?_, ?_, ?_, ?_, ?_, fun _ => hr, ?_, ?_, ?_⟩ <;>
    simp [hs, he, ha, hp, hn, hc, hb, hr, hrst, Status.zero]

theorem ready_inv (dim img src dst len : Word) {mem : Memory} (inbox : List HostEvent) (h : Memory.wf mem = true) :
    Inv (ready dim img src dst len mem inbox) :=
  inv_of_idle rfl rfl rfl rfl rfl rfl rfl rfl rfl h

/-- Memory of program P1: a 4 × 1 image at 0x1000 and one container byte at 0x2000. -/
def memP1 : Memory :=
  [(0x1000, 0x10), (0x1001, 0x21), (0x1002, 0x32), (0x1003, 0x43), (0x1004, 0x54), (0x1005, 0x65), (0x1006, 0x76),
    (0x1007, 0x87), (0x1008, 0x98), (0x1009, 0xA9), (0x100A, 0xBA), (0x100B, 0xCB), (0x2000, 0x3C)]

/-- Program P1 before its EMBED. -/
def embedReady (inbox : List HostEvent) : State := ready 0x00010004 0x1000 0x2000 0 1 memP1 inbox

/-- P1's EMBED at channel `k`, with the counters of R182. -/
def embedAt (k : Nat) (pix : Word) (p : BitVec 7) (n : BitVec 8) : State :=
  { embedStart (embedReady []) with
    hid := { (embedStart (embedReady [])).hid with k := k, cur := 0x3C }
    bitsDone := BitVec.ofNat 34 k
    pixDone := pix
    progress := p
    progCount := n }

/-- The first channel. -/
def embedFirst : State := embedAt 0 0 0 0

/-- The last channel of the container, channel 7, in pixel 2. -/
def embedLast : State := embedAt 7 2 50 2

theorem embedFirst_busy : embedFirst.status.busy = true := by decide

theorem embedFirst_inv : Inv embedFirst := by
  refine ⟨by decide, by decide, by decide, by decide, by decide, by decide, by decide, by decide, by decide, by decide,
    fun h => absurd h (by decide), fun _ => ?_⟩
  show EmbedRuns embedFirst
  exact ⟨by decide, by decide, ⟨by decide, by decide, by decide, by decide, by decide⟩, by decide, by decide⟩

theorem embedLast_inv : Inv embedLast := by
  refine ⟨by decide, by decide, by decide, by decide, by decide, by decide, by decide, by decide, by decide, by decide,
    fun h => absurd h (by decide), fun _ => ?_⟩
  show EmbedRuns embedLast
  exact ⟨by decide, by decide, ⟨by decide, by decide, by decide, by decide, by decide⟩, by decide, by decide⟩

/-- A 120 × 1 image of zeros (X1's size). -/
def extractReady (inbox : List HostEvent) : State := ready 0x00010078 0x1000 0 0x2000 0 [] inbox

/-- Its EXTRACT at channel `k`. -/
def extractAt (k : Nat) (pix : Word) (p : BitVec 7) (n : BitVec 8) (out : Word) : State :=
  { extractStart (extractReady []) with
    hid := { (extractStart (extractReady [])).hid with k := k, acc := 0x2A }
    bitsDone := BitVec.ofNat 34 k
    pixDone := pix
    progress := p
    progCount := n
    outLen := out }

/-- The first channel, which completes no byte. -/
def extractFirst : State := extractAt 0 0 0 0 0

/-- Channel 7, which completes destination byte 0. -/
def extractByte : State := extractAt 7 2 1 1 0

/-- The last channel, 359. -/
def extractLast : State := extractAt 359 119 99 99 44

theorem extractFirst_inv : Inv extractFirst := by
  refine ⟨by decide, by decide, by decide, by decide, by decide, by decide, by decide, by decide, by decide, by decide,
    fun h => absurd h (by decide), fun _ => ?_⟩
  show ExtractRuns extractFirst
  exact ⟨by decide, by decide, ⟨by decide, by decide, by decide, by decide, by decide⟩, by decide⟩

theorem extractByte_inv : Inv extractByte := by
  refine ⟨by decide, by decide, by decide, by decide, by decide, by decide, by decide, by decide, by decide, by decide,
    fun h => absurd h (by decide), fun _ => ?_⟩
  show ExtractRuns extractByte
  exact ⟨by decide, by decide, ⟨by decide, by decide, by decide, by decide, by decide⟩, by decide⟩

theorem extractLast_inv : Inv extractLast := by
  refine ⟨by decide, by decide, by decide, by decide, by decide, by decide, by decide, by decide, by decide, by decide,
    fun h => absurd h (by decide), fun _ => ?_⟩
  show ExtractRuns extractLast
  exact ⟨by decide, by decide, ⟨by decide, by decide, by decide, by decide, by decide⟩, by decide⟩

/-- Two bytes of zeros at 0x1000 and a destination that ends at the top of the space. -/
def aeadReady (inbox : List HostEvent) : State := ready 0 0 0x1000 0xFFFFFFFE 2 [] inbox

/-- Its AEAD_ENC at byte `k`. -/
def encAt (k : Nat) (ct : List Byte) : State :=
  { aeadEncStart (aeadReady []) with
    hid := { (aeadEncStart (aeadReady [])).hid with k := k, ct := ct }, outLen := BitVec.ofNat 32 k }

theorem encFirst_inv : Inv (encAt 0 []) := by
  refine ⟨by decide, by decide, by decide, by decide, by decide, by decide, by decide, by decide, by decide, by decide,
    fun h => absurd h (by decide), fun _ => ?_⟩
  show AeadEncRuns _
  exact ⟨by decide, by decide, by decide, ⟨by decide, by decide, by decide, by decide⟩, by decide, by decide, by decide⟩

theorem encLast_inv : Inv (encAt 1 [0x77]) := by
  refine ⟨by decide, by decide, by decide, by decide, by decide, by decide, by decide, by decide, by decide, by decide,
    fun h => absurd h (by decide), fun _ => ?_⟩
  show AeadEncRuns _
  exact ⟨by decide, by decide, by decide, ⟨by decide, by decide, by decide, by decide⟩, by decide, by decide, by decide⟩

/-- The tag over two zero bytes under the zero key and nonce, whatever TAGF is. -/
def tagZ : Tag := Config.tagF .aes256Gcm (Vector.replicate 32 0) (Vector.replicate 12 0) [0, 0]

/-- A tag that differs from it. -/
def tagBad : Tag := tagZ.set 0 (tagZ[0] + 1)

theorem tagBad_ne : tagZ ≠ tagBad := by
  intro h
  have h0 : tagZ[0] = tagBad[0] := congrArg (fun t : Tag => t[0]) h
  have h1 : ∀ b : Byte, b ≠ b + 1 := by decide
  simp only [tagBad, Vector.getElem_set_self] at h0
  exact h1 _ h0

/-- AEAD_DEC of the two bytes, expecting the tag `e`, at byte `k` of pass `p`. -/
def decAt (e : Tag) (p : Phase) (k : Nat) (ct : List Byte) (mem : Memory) : State :=
  { aeadDecStart (aeadReady []) with
    tag := packTag e
    mem := mem
    hid := { (aeadDecStart (aeadReady [])).hid with k := k, ct := ct, phase := p }
    outLen := if p = .writePass then BitVec.ofNat 32 k else 0 }

theorem decAt_tag (e : Tag) (p : Phase) (k : Nat) (ct : List Byte) (mem : Memory) :
    tagBytes (decAt e p k ct mem) = e := tagBytes_packTag rfl

theorem decAt_keys (e : Tag) (p : Phase) (k : Nat) (ct : List Byte) (mem : Memory) :
    keyBytes (decAt e p k ct mem) = Vector.replicate 32 0 ∧ nonceBytes (decAt e p k ct mem) = Vector.replicate 12 0 := by
  have h1 : keyBytes (decAt e p k ct mem) = keyBytes State.reset := rfl
  have h2 : nonceBytes (decAt e p k ct mem) = nonceBytes State.reset := rfl
  rw [h1, h2]
  decide

theorem dec_inv (e : Tag) (p : Phase) (k : Nat) (ct : List Byte) {mem : Memory} (hm : Memory.wf mem = true) (hk : k < 2)
    (hp : p ≠ .run) (hc : ct.length = k) : Inv (decAt e p k ct mem) := by
  have h0 : aeadDecCheck (aeadDecStart (aeadReady [])) = none ∧
      (aeadDecStart (aeadReady [])).status = { Status.zero with busy := true } ∧
      (aeadDecStart (aeadReady [])).error = .none ∧ (aeadDecStart (aeadReady [])).errAddr = 0 ∧
      (aeadDecStart (aeadReady [])).hid.op = .aeadDec := by decide
  obtain ⟨h1, h2, h3, h4, h5⟩ := h0
  have hs : (decAt e p k ct mem).status = { Status.zero with busy := true } := h2
  have he : (decAt e p k ct mem).error = .none := h3
  have hea : (decAt e p k ct mem).errAddr = 0 := h4
  refine ⟨hm, by simp [hs, Status.zero], fun _ => by simp [hs, Status.zero], by simp [hs, he, Status.zero],
    by simp [hea], Nat.zero_le _, Nat.zero_le _, (by decide : (0#32).toNat = (0#34).toNat / 8), fun _ => rfl,
    fun c hc => (by cases hc), fun h => (by cases h), fun _ => ?_⟩
  unfold Running
  rw [show (decAt e p k ct mem).hid.op = .aeadDec from h5]
  refine ⟨h1, hk, ⟨rfl, rfl, rfl, rfl⟩, hp, hc, fun h => ?_, fun h => ?_⟩
  · have h' : p = .authPass := h
    subst h'
    rfl
  · have h' : p = .writePass := h
    subst h'
    show (BitVec.ofNat 32 k).toNat = k
    rw [BitVec.toNat_ofNat]; omega

theorem dec_tagOf (e : Tag) (p : Phase) (k : Nat) (ct : List Byte) (mem : Memory) :
    tagOf (decAt e p k ct mem) [0, 0] = tagZ := by
  rw [tagOf, (decAt_keys e p k ct mem).1, (decAt_keys e p k ct mem).2]
  rfl

/-! ## Single steps (95_test_vectors.md) -/

/-- The state of the next step. -/
def after (s : State) : State :=
  match step s with
  | .next t => t
  | .fault _ => s
  | .refused _ => s

/-- H6: INT_EN keeps bits 2:0. -/
theorem test_H6 :
    intWord (after (ready 0 0 0 0 0 [] [.access (.write .word 0x1C 0xFFFFFFFF)])).intEn = 0x7 := by decide

/-- P1, lines 2 and 10, and R147: the transactions of `dim 4, 1` and `ack`, and KEY7 of a key whose last byte is 1. -/
theorem test_script : scriptEvents [.dim 4 1, .ack] =
      [.access (.write .word 0x24 0x00010004), .access (.write .word 0x20 0x00000007)] ∧
    (ScriptOp.setkey ((Vector.replicate 32 0).set 31 1)).expand[7]? = some (.access (.write .word 0x7C 0x00000001)) := by
  decide

/-- H1: ID, VERSION and CFG after reset. -/
theorem test_H1 : readOffset 0x00 State.reset = 0x4C534258 ∧ readOffset 0x04 State.reset = 0x00010000 ∧
    readOffset 0x08 State.reset = 0x00002C01 := by decide

/-- H2 and H3: CFG with the other parameters. -/
theorem test_H2_H3 :
    cfgWord { Config.default with aeadPrim := .chacha20Poly1305 } = 0x00002C03 ∧
    cfgWord { Config.default with hasAead := false } = 0x00002C00 := by decide

/-- H8: a write at a misaligned offset is refused and changes nothing. -/
theorem test_H8 : (after (ready 7 0 0 0 0 [] [.access (.write .word 0x26 0)])).resp = some .error ∧
    (after (ready 7 0 0 0 0 [] [.access (.write .word 0x26 0)])).dim = 7 := by decide

/-- H9: a locked write while an EMBED runs. -/
theorem test_H9 :
    (after { embedFirst with inbox := [.access (.write .word 0x24 0x00010001)] }).dim = 0x00010004 ∧
    (after { embedFirst with inbox := [.access (.write .word 0x24 0x00010001)] }).status.ovr = true := by decide

/-- H14: the engine sets PROG_I (channel 2 completes pixel 0) in the same step as its clear: it stays set. -/
theorem test_H14 :
    (after { embedAt 2 0 0 0 with
      inbox := [.coincide (.write .word 0x20 0x4) .after] }).intStatus.prog = true := by decide

/-- 2.3: 100 × 100 with LEN = 3751. -/
theorem test_capq_misfit :
    let t := after (ready 0x00640064 0 0 0 3751 [] [cmdWrite 0x01])
    t.capBits.toNat = 30000 ∧ t.capBytes.toNat = 3750 ∧ statusWord t.status = 0x02 ∧ t.error = .none := by decide

/-- 2.3: 65535 × 65535 with LEN = 0x5FFF4000. -/
theorem test_capq_largest :
    let t := after (ready 0xFFFFFFFF 0 0 0 0x5FFF4000 [] [cmdWrite 0x01])
    readReg .capBitsHi t = 2 ∧ readReg .capBitsLo t = 0xFFFA0003 ∧ t.capBytes = 0x5FFF4000 ∧
      statusWord t.status = 0x0A := by decide

/-- E6: LEN = 0 fails with INPUT, FITS = 1. -/
theorem test_E6 :
    let t := after (ready 0x00010003 0x1000 0x2000 0 0 [] [cmdWrite 0x02])
    t.error = .input ∧ statusWord t.status = 0x0C ∧ t.capBits.toNat = 9 := by decide

/-- P1's EMBED at its last channel (0x87 takes bit 0 of 0x3C), which completes with the emission 100. -/
theorem test_P1_last : (memRead (after embedLast).mem 0x1007, statusWord (after embedLast).status,
    (after embedLast).prog, (after embedLast).pixDone) = (0x86, 0x0A, [75, 100], 3) := by decide

/-- X2: 119 × 1 is SHORT_DATA, CAP_BYTES = 44. -/
theorem test_X2 :
    let t := after (ready 0x00010077 0x1000 0 0x2000 0 [] [cmdWrite 0x03])
    t.error = .shortData ∧ t.capBytes = 0x2C ∧ t.status.busy = false := by decide

/-- X1's channel 7, image byte 7 with bit 0 set: the byte 0x55 is stored at DST_BASE. -/
theorem test_X1_byte :
    let t := after { extractByte with mem := [(0x1007, 0x07)] }
    memRead t.mem 0x2000 = 0x55 ∧ t.outLen = 1 := by decide

/-- A9: INPUT comes before IV_REUSE. -/
theorem test_A9 :
    let s := ready 0 0 0x1000 0x2000 0 [] [cmdWrite 0x10]
    (after { s with status := { s.status with ivu := true } }).error = .input := by decide

/-- A10: the regions of AEAD_ENC overlap and are not in place. -/
theorem test_A10 : (after (ready 0 0 0x1000 0x1008 16 [] [cmdWrite 0x10])).error = .overlap := by decide

/-- A12: LEN = 17 from 0xFFFFFFF0 is out of range, LEN = 16 is not. -/
theorem test_A12 : (after (ready 0 0 0xFFFFFFF0 0x2000 17 [] [cmdWrite 0x11])).error = .range ∧
    (after (ready 0 0 0xFFFFFFF0 0x2000 16 [] [cmdWrite 0x11])).status.busy = true := by decide

/-- A tag mismatch at the last byte of AUTH_PASS is AUTH, whatever TAGF is (A6). -/
theorem test_AUTH : exec .aeadDec (decAt tagBad .authPass 1 [0] []) =
    .next (fail .auth (authByteDone (decAt tagBad .authPass 1 [0] []))) := by
  have h1 : aeadAuthStep (decAt tagBad .authPass 1 [0] []) =
      fail .auth (authByteDone (decAt tagBad .authPass 1 [0] [])) := by
    rw [aeadAuthStep_okay rfl,
      if_pos (show (decAt tagBad .authPass 1 [0] []).hid.k + 1 = lenBytes (decAt tagBad .authPass 1 [0] []) from rfl),
      if_pos]
    rw [decAt_tag, show (authByteDone (decAt tagBad .authPass 1 [0] [])).hid.ct = [0, 0] from rfl, dec_tagOf]
    exact tagBad_ne
  show Host.Outcome.next (aeadAuthStep (decAt tagBad .authPass 1 [0] [])) = _
  rw [h1]

/-- P-f: CAPACITY before RANGE and OVERLAP. -/
theorem test_Pf : embedCheck (ready 0x00010001 0xFFFFFFFF 0xFFFFFFFF 0 1 [] []) = some .capacity := by decide

/-! ## Witnesses: states and operands that meet each statement's hypotheses -/

theorem witness_DecodeInvertsEncode : decode 0x11 = .ok .aeadDec := by decide

theorem witness_StepRunsIssuedCommand : ∀ i : Instr,
    let s := ready 0 0 0 0 0 [] [cmdWrite (encode i)]
    s.inbox = cmdWrite (encode i) :: [] ∧ s.rstN = true ∧ s.status.busy = false ∧ decode (encode i) = .ok i := by
  intro i; cases i <;> decide

theorem witness_StepRunsLatchedCommand :
    (embedFirst.status.busy = true ∧ embedFirst.rstN = true ∧ embedFirst.inbox = []) ∧
    (let s := { extractFirst with inbox := [.engine] }
     s.status.busy = true ∧ s.rstN = true ∧ s.inbox = .engine :: []) ∧
    (State.reset.status.busy = false ∧ State.reset.inbox = []) := by decide

/-- The last engine step of an EMBED with a CMD write before it, a clear of INT_STATUS, and a CMD write after it. -/
theorem witness_StepRunsLatchedCommand_coincide :
    (let s := { embedLast with inbox := [.coincide (.write .word 0x0C 1) .before] }
     s.status.busy = true ∧ s.rstN = true ∧ s.inbox = .coincide (.write .word 0x0C 1) .before :: []) ∧
    (let s := { embedLast with inbox := [.coincide (.write .word 0x20 7) .after] }
     s.status.busy = true ∧ s.rstN = true ∧ s.inbox = .coincide (.write .word 0x20 7) .after :: []) ∧
    (let s := { embedLast with inbox := [.coincide (.write .word 0x0C 1) .after] }
     s.status.busy = true ∧ s.rstN = true ∧ s.inbox = .coincide (.write .word 0x0C 1) .after :: [] ∧
       (∀ v, PortAccess.write .word 0x0C 1 ≠ .write .word 0x20 v) ∧
       ∃ t, step { s with inbox := [.engine] } = .next t ∧ t.status.busy = false) ∧
    (let s := { embedFirst with inbox := [.wait] }
     s.status.busy = true ∧ s.rstN = true ∧ s.inbox = .wait :: []) ∧
    (ready 0 0 0 0 0 [] [.engine]).inbox = .engine :: [] ∧
    (ready 0 0 0 0 0 [] [.coincide (.read .word 0x10) .after]).inbox = .coincide (.read .word 0x10) .after :: [] ∧
    (ready 0 0 0 0 0 [] [.wait]).inbox = .wait :: [] :=
  ⟨by decide, by decide, ⟨by decide, by decide, rfl, fun v h => by simp at h, _, rfl, by decide⟩, by decide, rfl, rfl, rfl⟩

/-- R42 and 93 U10: a CMD write in the same step as the last engine step is dropped if it counts as before it, and
accepted if it counts as after it (CAPQ completes at once, and PROG_COUNT is cleared). -/
theorem test_coincident_CMD :
    (after { embedLast with inbox := [.coincide (.write .word 0x0C 1) .before] }).status.ovr = true ∧
    (after { embedLast with inbox := [.coincide (.write .word 0x0C 1) .before] }).progCount = 4 ∧
    (after { embedLast with inbox := [.coincide (.write .word 0x0C 1) .after] }).status.ovr = false ∧
    (after { embedLast with inbox := [.coincide (.write .word 0x0C 1) .after] }).progCount = 0 := by decide

/-- P1's regions are [0x1000, 0x100C), which EMBED writes, and the byte 0x2000, which it reads. -/
theorem witness_HostStoresAndEndOfCommand :
    (let s := { embedFirst with inbox := [.store 0x100B 9] }
     s.inbox = .store 0x100B 9 :: [] ∧ s.status.busy = true ∧ WrittenBy s.hid.op s 0x100B) ∧
    (let s := { embedFirst with inbox := [.store 0x2000 9] }
     s.inbox = .store 0x2000 9 :: [] ∧ s.status.busy = true ∧ ReadBy s.hid.op s 0x2000) ∧
    (let s := { embedFirst with inbox := [.store 0x100C 9] }
     s.inbox = .store 0x100C 9 :: [] ∧ ¬(ReadBy s.hid.op s 0x100C ∨ WrittenBy s.hid.op s 0x100C) ∧
       Memory.wf s.mem = true) ∧
    (let s := ready 0 0 0 0 0 memP1 [.store 0x2000 0]
     s.inbox = .store 0x2000 0 :: [] ∧ s.status.busy = false ∧ Memory.wf s.mem = true) :=
  ⟨⟨rfl, by decide, ⟨by decide, by decide⟩⟩, ⟨rfl, by decide, ⟨by decide, by decide⟩⟩,
    ⟨rfl, fun h => h.elim (fun h => absurd (show 0x100C ≥ 0x2000 from h.1) (by decide))
      (fun h => absurd (show 0x100C < 0x100C from h.2) (by decide)), by decide⟩, rfl, rfl, by decide⟩

/-- The end of P1's EMBED with two stores to its source byte set aside, of which the second is the last. -/
theorem witness_HostStoresAndEndOfCommand_lands :
    (embedFirst.racing = [] ∧ embedFirst.status.busy = true) ∧
    let s := { embedLast with status := Status.zero, racing := [(0x2000, 1), (0x1002, 2), (0x2000, 3)] }
    s.status.busy = false ∧ Memory.wf s.mem = true ∧ (∀ c ∈ s.racing, c.1 < 2 ^ 32) ∧
      (∀ v, ((0x1001, v) : Host.Cell) ∉ s.racing) ∧
      s.racing = [(0x2000, 1), (0x1002, 2)] ++ (0x2000, 3) :: [] ∧ (∀ w, ((0x2000, w) : Host.Cell) ∉ ([] : List Host.Cell)) ∧
      ¬WrittenBy s.hid.op s 0x2000 :=
  ⟨⟨rfl, rfl⟩, rfl, by decide, by decide, by simp, rfl, by simp,
    fun h => absurd (show 0x2000 < 0x100C from h.2) (by decide)⟩

/-- R101: a host store while idle is in memory at once. -/
theorem test_host_store : memRead (after (ready 0 0 0 0 0 memP1 [.store 0x2000 7])).mem 0x2000 = 7 := by decide

theorem witness_IllegalWordFails :
    (∀ v : Word, v ∈ ([0x100, 0xFFFFFF01, 0, 0x04, 0x0F, 0x12, 0xFF] : List Word) →
      v.toNat / 256 ≠ 0 ∨ v.toNat % 256 = 0 ∨ (0x04 ≤ v.toNat % 256 ∧ v.toNat % 256 ≤ 0x0F) ∨ 0x12 ≤ v.toNat % 256) ∧
    (let c := { Config.default with hasAead := false }
     c.hasAead = false ∧ ((0x10 : Word) = 0x10 ∨ (0x10 : Word) = 0x11)) ∧
    (let s := ready 0 0 0 0 0 [] [cmdWrite 0x04]
     s.inbox = cmdWrite 0x04 :: [] ∧ s.rstN = true ∧ s.status.busy = false ∧ s.racing = []) :=
  ⟨by simp, ⟨rfl, by decide⟩, ⟨rfl, rfl, rfl, rfl⟩⟩

theorem witness_LockedWriteWhileBusyDropped :
    let s := { embedFirst with inbox := [.access (.write .word 0x9C 5)] }
    (s.inbox = .access (.write .word 0x9C 5) :: [] ∧ s.rstN = true ∧ s.status.busy = true) ∧
    ∀ o : BitVec 8, o ∈ ([0x24, 0x34, 0x60, 0x7C, 0x80, 0x88, 0x90, 0x9C, 0x0C] : List (BitVec 8)) →
      (o.toNat ∈ [0x24, 0x28, 0x2C, 0x30, 0x34] ∨ (∃ i : Fin 8, o.toNat = 0x60 + 4 * i.val) ∨
        (∃ i : Fin 3, o.toNat = 0x80 + 4 * i.val) ∨ (∃ i : Fin 4, o.toNat = 0x90 + 4 * i.val) ∨ o.toNat = 0x0C) := by
  decide

theorem witness_ImproperAccessRefused :
    (ready 0 0 0 0 0 [] [.access (.read .byte 0x10)]).inbox = .access (.read .byte 0x10) :: [] ∧
    (AccessSize.byte ≠ .word ∨ (0x10 : BitVec 8).toNat % 4 ≠ 0) ∧
    (ready 0 0 0 0 0 [] [.access (.write .word 0xFF 0)]).inbox = .access (.write .word 0xFF 0) :: [] ∧
    (AccessSize.word ≠ .word ∨ (0xFF : BitVec 8).toNat % 4 ≠ 0) := by decide

theorem witness_AcceptedRegisterWrites : ∀ o : BitVec 8,
    (let s := ready 0 0 0 0 0 [] [.access (.write .word o 5)]
     s.inbox = .access (.write .word o 5) :: [] ∧ s.rstN = true ∧ s.status.busy = false) ∧
    (let s := { embedFirst with inbox := [.access (.write .word o 5)] }
     s.inbox = .access (.write .word o 5) :: [] ∧ s.rstN = true ∧ s.status.busy = true) :=
  fun _ => ⟨⟨rfl, rfl, rfl⟩, rfl, rfl, embedFirst_busy⟩

/-- R41: INT_EN is written at once while a command executes. -/
theorem test_int_en_while_busy :
    intWord (after { embedFirst with inbox := [.access (.write .word 0x1C 5)] }).intEn = 5 ∧
    (after { embedFirst with inbox := [.access (.write .word 0x1C 5)] }).status.ovr = false := by decide

theorem witness_AcceptedRegisterWrites_offsets :
    (0x60 : BitVec 8).toNat = 0x60 + 4 * (0 : Fin 8).val ∧ (0x7C : BitVec 8).toNat = 0x60 + 4 * (7 : Fin 8).val ∧
    (0x80 : BitVec 8).toNat = 0x80 + 4 * (0 : Fin 3).val ∧ (0x88 : BitVec 8).toNat = 0x80 + 4 * (2 : Fin 3).val ∧
    (0x90 : BitVec 8).toNat = 0x90 + 4 * (0 : Fin 4).val ∧ (0x9C : BitVec 8).toNat = 0x90 + 4 * (3 : Fin 4).val ∧
    (0xA0 ≤ (0xA0 : BitVec 8).toNat ∧ (0xA0 : BitVec 8).toNat % 4 = 0) ∧
    (0xA0 ≤ (0xFC : BitVec 8).toNat ∧ (0xFC : BitVec 8).toNat % 4 = 0) := by decide

theorem witness_RegisterReads : ∀ o : BitVec 8,
    o ∈ ([0x0C, 0x10, 0x14, 0x18, 0x1C, 0x20, 0x24, 0x34, 0x38, 0x3C, 0x40, 0x44, 0x48, 0x4C, 0x50, 0x58, 0x60, 0x7C,
      0x80, 0x88, 0x90, 0x9C] : List (BitVec 8)) →
    let s := ready 0 0 0 0 0 [] [.access (.read .word o)]
    s.inbox = .access (.read .word o) :: [] ∧ s.rstN = true ∧ o.toNat % 4 = 0 :=
  fun o ho => ⟨rfl, rfl, by revert o; decide⟩

theorem witness_IdentityRegisters :
    (ready 0 0 0 0 0 [] [.access (.read .word 0x08)]).inbox = .access (.read .word 0x08) :: [] ∧
    State.reset.rstN = true ∧ State.reset.cfg = Config.default ∧ step State.reset = .next State.reset :=
  ⟨rfl, rfl, rfl, rfl⟩

theorem witness_ReservedOffsets :
    (∀ o : BitVec 8, o ∈ ([0x5C, 0x8C, 0xA0, 0xFC] : List (BitVec 8)) →
      (o = 0x5C ∨ o = 0x8C ∨ (0xA0 ≤ o.toNat ∧ o.toNat % 4 = 0))) ∧
    let s := { embedFirst with inbox := [.access (.write .word 0xFC 5)] }
    s.rstN = true ∧ s.inbox = .access (.write .word 0xFC 5) :: [] := by decide

theorem witness_OvrIsOnlyWritableStatusBit :
    let s := { embedFirst with inbox := [.access (.write .word 0x10 0x1F)] }
    s.rstN = true ∧ s.inbox = .access (.write .word 0x10 0x1F) :: [] := by decide

theorem witness_IntStatusSetWins :
    let s := { embedLast with inbox := [.coincide (.write .word 0x20 0x7) .after] }
    s.status.busy = true ∧ s.rstN = true ∧ s.inbox = .coincide (.write .word 0x20 0x7) .after :: [] ∧
    ∃ t, step { s with inbox := .engine :: [], intStatus := IntBits.zero } = .next t :=
  ⟨by decide, by decide, by decide, ⟨_, rfl⟩⟩

theorem witness_KeyCannotBeReadBack :
    (ready 0 0 0 0 0 [] [.access (.read .word 0x7C)]).inbox = .access (.read .word 0x7C) :: [] := by decide

theorem witness_IvReuseGuard :
    ((aeadReady []).status.busy = false ∧ exec .aeadEnc (aeadReady []) = .next (aeadEncStart (aeadReady [])) ∧
      (aeadEncStart (aeadReady [])).status.busy = true) ∧
    (let s := ready 0 0 0 0 0 [] [.access (.write .word 0x88 1)]
     s.inbox = .access (.write .word 0x88 1) :: [] ∧ s.rstN = true ∧ s.status.busy = false ∧ ∃ t, step s = .next t) ∧
    (let s := { aeadReady [] with status := { Status.zero with ivu := true } }
     s.status.busy = false ∧ s.status.ivu = true ∧ s.cfg.hasAead = true ∧ lenBytes s ≠ 0) :=
  ⟨⟨by decide, rfl, by decide⟩, ⟨by decide, by decide, by decide, ⟨_, rfl⟩⟩, by decide⟩

theorem witness_ResetRegisters :
    let s := { embedFirst with inbox := [.resetAssert] }
    s.inbox = .resetAssert :: [] ∧ State.reset.status.busy = false ∧ State.reset.racing = [] := by decide

/-- Reset held. -/
def held (inbox : List HostEvent) : State := { State.reset with rstN := false, inbox := inbox }

theorem held_inv (inbox : List HostEvent) : Inv (held inbox) :=
  ⟨rfl, (by decide : ¬(false = true ∧ false = true)), fun _ => ⟨rfl, rfl⟩, (by decide : ErrCode.none ≠ .none ↔ false = true),
    (by decide : (0#32) ≠ 0 → ErrCode.none = .bus), Nat.zero_le _, Nat.zero_le _,
    (by decide : (0#32).toNat = (0#34).toNat / 8), fun _ => rfl, fun c hc => (by cases hc), fun _ => rfl,
    fun h => (by cases h)⟩

theorem witness_ResetHeldThenReleased :
    Inv (held [.access (.write .word 0x0C 1)]) ∧ Inv (held []) ∧ Inv (held [.resetRelease]) ∧
    (held [.resetRelease]).rstN = false ∧ (held [.resetRelease]).inbox = .resetRelease :: [] :=
  ⟨held_inv _, held_inv _, held_inv _, rfl, rfl⟩

theorem witness_ResetDuringCommand :
    let s := { embedLast with inbox := [.resetAssert] }
    s.status.busy = true ∧ s.racing = [] ∧ s.inbox = .resetAssert :: [] := by decide

theorem witness_CapacityComputed : ∀ d : Word, d ∈ ([0x00010001, 0xFFFFFFFF] : List Word) →
    (ready d 0 0 0 0 [] []).status.busy = false ∧ d.toNat % 65536 ≠ 0 ∧ d.toNat / 65536 ≠ 0 := by
  intro d hd
  refine ⟨rfl, ?_⟩
  revert d
  simp

theorem witness_CapqCompletes :
    (let s := ready 0x00010001 0 0 0 1 [] []
     s.status.busy = false ∧ width s ≠ 0 ∧ height s ≠ 0) ∧
    (width (ready 0x00050000 0 0 0 0 [] []) = 0 ∨ height (ready 0x00050000 0 0 0 0 [] []) = 0) ∧
    (width (ready 0x00000007 0 0 0 0 [] []) = 0 ∨ height (ready 0x00000007 0 0 0 0 [] []) = 0) := by decide

/-- S9: 100 × 100, LEN = 3750 and 3751. -/
theorem witness_CapacityBoundary :
    let s := ready 0x00640064 0 0 0 3750 [] []
    let t := ready 0x00640064 0 0 0 3751 [] []
    s.status.busy = false ∧ width s ≠ 0 ∧ height s ≠ 0 ∧ s.len.toNat = 3 * (width s * height s) / 8 ∧
    t.status.busy = false ∧ width t ≠ 0 ∧ height t ≠ 0 ∧ t.len.toNat = 3 * (width t * height t) / 8 + 1 :=
  ⟨rfl, by decide, by decide, rfl, rfl, by decide, by decide, rfl⟩

theorem witness_BitsIndexing : 7 < 8 * [(0x54 : Byte)].length ∧ bits [0x54] =
    [false, true, false, true, false, true, false, false] := by decide

theorem witness_BytesOfBits :
    0 < [true, false, true, false, false, true, false, true, true, true, true].length / 8 ∧
    bytes [true, false, true, false, false, true, false, true, true, true, true] = [0xA5] := by decide

theorem witness_PackerInverse : 8 ∣ [true, false, true, false, false, true, false, true].length := by decide

theorem witness_StartChecksInOrder : (embedReady []).status.busy = false ∧ State.reset.status.busy = false ∧
    (let s := ready 0 0 0 0 0 [] [cmdWrite 0]
     s.inbox = cmdWrite 0 :: [] ∧ s.rstN = true ∧ s.status.busy = false ∧ decode 0 = .error .reservedOp) := by decide

/-- E8: an image that ends exactly at the top of the space. -/
theorem witness_EmbedStarts : (ready 0x00010003 0xFFFFFFF7 0x2000 0 1 [] []).status.busy = false ∧
    EmbedReady (ready 0x00010003 0xFFFFFFF7 0x2000 0 1 [] []) :=
  ⟨by decide, by decide, by decide, by decide, by decide, by decide, by decide, by decide⟩

/-- X5: a destination right after the image. -/
theorem witness_ExtractStarts : (ready 0x00010078 0x1000 0 0x1168 0 [] []).status.busy = false ∧
    ExtractReady (ready 0x00010078 0x1000 0 0x1168 0 [] []) :=
  ⟨by decide, by decide, by decide, by decide, by decide, by decide, by decide⟩

/-- A11 and A12: in place, and a source that ends at the top of the space. -/
theorem witness_AeadStarts :
    (AeadReady (ready 0 0 0x1000 0x1000 16 [] []) ∧ AeadReady (ready 0 0 0xFFFFFFF0 0x2000 16 [] [])) ∧
    (ready 0 0 0x1000 0x1000 16 [] []).status.busy = false ∧ (ready 0 0 0x1000 0x1000 16 [] []).status.ivu = false :=
  ⟨⟨⟨by decide, by decide, by decide, by decide, by decide⟩, ⟨by decide, by decide, by decide, by decide, by decide⟩⟩,
    by decide, by decide⟩

theorem witness_EmbedChannelStep :
    (Inv embedFirst ∧ Inv embedLast) ∧
    ∀ s ∈ [embedFirst, embedLast], s.status.busy = true ∧ s.hid.op = .embed ∧
      (s.hid.k % 8 = 0 → readErr s (s.srcBase.toNat + s.hid.k / 8) = false) ∧
      readErr s (s.imgBase.toNat + s.hid.k) = false ∧ writeErr s (s.imgBase.toNat + s.hid.k) = false :=
  ⟨⟨embedFirst_inv, embedLast_inv⟩, by decide⟩

theorem witness_EmbedFrame :
    (∃ t, exec .embed (embedReady []) = .next t) ∧ (embedReady []).status.busy = false ∧
    (∃ t, exec .embed embedLast = .next t) ∧ embedLast.status.busy = true ∧
    0x1000 ≠ (byteAddr embedLast.imgBase embedLast.hid.k).toNat :=
  ⟨⟨_, rfl⟩, by decide, ⟨_, rfl⟩, by decide, by decide⟩

theorem witness_EmbedBusError :
    (let s := { embedFirst with windows := [⟨0x2000, 1, true, false⟩] }
     s.status.busy = true ∧ s.hid.k % 8 = 0 ∧ readErr s (byteAddr s.srcBase (s.hid.k / 8)).toNat = true) ∧
    (let s := { embedFirst with windows := [⟨0x1000, 1, true, false⟩] }
     s.status.busy = true ∧ (s.hid.k % 8 = 0 → readErr s (byteAddr s.srcBase (s.hid.k / 8)).toNat = false) ∧
      readErr s (byteAddr s.imgBase s.hid.k).toNat = true) ∧
    (let s := { embedLast with windows := [⟨0x1007, 1, false, true⟩] }
     s.status.busy = true ∧ (s.hid.k % 8 = 0 → readErr s (byteAddr s.srcBase (s.hid.k / 8)).toNat = false) ∧
      writeErr s (byteAddr s.imgBase s.hid.k).toNat = true) := by decide

theorem witness_ExtractChannelStep :
    (Inv extractFirst ∧ Inv extractByte ∧ Inv extractLast) ∧
    ∀ s ∈ [extractFirst, extractByte, extractLast], s.status.busy = true ∧ s.hid.op = .extract ∧
      readErr s (s.imgBase.toNat + s.hid.k) = false ∧
      ((s.hid.k + 1) % 8 = 0 → writeErr s (s.dstBase.toNat + s.hid.k / 8) = false) :=
  ⟨⟨extractFirst_inv, extractByte_inv, extractLast_inv⟩, by decide⟩

theorem witness_ExtractFrame :
    (∃ t, exec .extract (extractReady []) = .next t) ∧ (extractReady []).status.busy = false ∧
    (∃ t, exec .extract extractByte = .next t) ∧ extractByte.status.busy = true ∧
    ((extractByte.hid.k + 1) % 8 = 0 →
      0x2001 ≠ (byteAddr extractByte.dstBase ((extractByte.hid.k + 1) / 8 - 1)).toNat) :=
  ⟨⟨_, rfl⟩, by decide, ⟨_, rfl⟩, by decide, by decide⟩

theorem witness_ExtractBusError :
    (let s := { extractFirst with windows := [⟨0x1000, 1, true, true⟩] }
     s.status.busy = true ∧ readErr s (byteAddr s.imgBase s.hid.k).toNat = true) ∧
    (let s := { extractByte with windows := [⟨0x2000, 1, true, true⟩] }
     s.status.busy = true ∧ readErr s (byteAddr s.imgBase s.hid.k).toNat = false ∧ (s.hid.k + 1) % 8 = 0 ∧
      writeErr s (byteAddr s.dstBase ((s.hid.k + 1) / 8 - 1)).toNat = true) := by decide

theorem witness_CipherRegisterBytes :
    ({ State.reset with iv := #v[0x00010203, 0x04050607, 0x08090A0B] } : State).iv =
      #v[0x00010203, 0x04050607, 0x08090A0B] := rfl

theorem witness_AeadEncByteStep :
    (Inv (encAt 0 []) ∧ Inv (encAt 1 [0x77])) ∧
    ∀ s ∈ [encAt 0 [], encAt 1 [0x77]], s.status.busy = true ∧ s.hid.op = .aeadEnc ∧
      readErr s (s.srcBase.toNat + s.hid.k) = false ∧ writeErr s (s.dstBase.toNat + s.hid.k) = false :=
  ⟨⟨encFirst_inv, encLast_inv⟩, by decide⟩

/-- The first byte, and the last with a right and a wrong tag. -/
theorem witness_AeadDecAuthStep :
    (let s := decAt tagZ .authPass 0 [] []
     Inv s ∧ s.status.busy = true ∧ s.hid.op = .aeadDec ∧ s.hid.phase = .authPass ∧
      readErr s (s.srcBase.toNat + s.hid.k) = false ∧ s.hid.k + 1 < s.len.toNat) ∧
    (∀ e, Inv (decAt e .authPass 1 [0] [])) ∧
    (let s := decAt tagZ .authPass 1 [0] []
     s.hid.k + 1 = s.len.toNat ∧ tagOf s (s.hid.ct ++ [readByte s (s.srcBase.toNat + s.hid.k)]) = tagBytes s) ∧
    (let s := decAt tagBad .authPass 1 [0] []
     s.hid.k + 1 = s.len.toNat ∧ tagOf s (s.hid.ct ++ [readByte s (s.srcBase.toNat + s.hid.k)]) ≠ tagBytes s) := by
  refine ⟨⟨?_, rfl, rfl, rfl, rfl, by decide⟩, fun e => ?_, ⟨rfl, ?_⟩, ⟨rfl, ?_⟩⟩
  · exact dec_inv _ _ _ _ rfl (by decide) (by decide) rfl
  · exact dec_inv _ _ _ _ rfl (by decide) (by decide) rfl
  · rw [decAt_tag]; exact dec_tagOf _ _ _ _ _
  · rw [decAt_tag]
    show tagOf (decAt tagBad .authPass 1 [0] []) [0, 0] ≠ tagBad
    rw [dec_tagOf]; exact tagBad_ne

theorem decWrite_inv (k : Nat) (hk : k < 2) {mem : Memory} (hm : Memory.wf mem = true) :
    Inv (decAt tagZ .writePass k (List.replicate k 0) mem) :=
  dec_inv _ _ _ _ hm hk (by decide) List.length_replicate

theorem witness_AeadDecWriteStep : ∀ k, k < 2 →
    let s := decAt tagZ .writePass k (List.replicate k 0) []
    Inv s ∧ s.status.busy = true ∧ s.hid.op = .aeadDec ∧ s.hid.phase = .writePass ∧
      readErr s (s.srcBase.toNat + s.hid.k) = false ∧ writeErr s (s.dstBase.toNat + s.hid.k) = false :=
  fun k hk => ⟨decWrite_inv k hk rfl, rfl, rfl, rfl, rfl, rfl⟩

/-- R75: WRITE_PASS's first byte (0 at 0x1000) joins H.ct. -/
theorem test_writePass_ct : ∃ t, exec .aeadDec (decAt tagZ .writePass 0 [] []) = .next t ∧ t.hid.ct = [0] :=
  ⟨_, rfl, by decide⟩

theorem witness_AeadFrame :
    (∃ t, exec .aeadEnc (aeadReady []) = .next t) ∧ (∃ t, exec .aeadEnc (encAt 0 []) = .next t ∧ t.status.done = false) ∧
    (∃ t, exec .aeadDec (decAt tagZ .writePass 0 [] []) = .next t) ∧
    0x1000 ≠ (byteAddr (encAt 0 []).dstBase (encAt 0 []).hid.k).toNat :=
  ⟨⟨_, rfl⟩, ⟨_, rfl, rfl⟩, ⟨_, rfl⟩, by decide⟩

theorem witness_AeadBusError :
    (let s := { encAt 0 [] with windows := [⟨0x1000, 1, true, true⟩] }
     s.status.busy = true ∧ readErr s (byteAddr s.srcBase s.hid.k).toNat = true) ∧
    (let s := { decAt tagZ .authPass 0 [] [] with windows := [⟨0x1000, 1, true, true⟩] }
     s.status.busy = true ∧ readErr s (byteAddr s.srcBase s.hid.k).toNat = true ∧ s.hid.phase ≠ .run) ∧
    (let s := { decAt tagZ .writePass 0 [] [] with windows := [⟨0xFFFFFFFE, 1, true, true⟩] }
     s.status.busy = true ∧ readErr s (byteAddr s.srcBase s.hid.k).toNat = false ∧
      writeErr s (byteAddr s.dstBase s.hid.k).toNat = true ∧ s.hid.phase = .writePass) :=
  ⟨⟨by decide, by decide⟩, ⟨rfl, rfl, by decide⟩, ⟨rfl, rfl, rfl, rfl⟩⟩

theorem witness_DecryptInvertsEncrypt : aeadEncrypt .aes256Gcm (Vector.replicate 32 0) (Vector.replicate 12 0) [] =
    ([], Config.tagF .aes256Gcm (Vector.replicate 32 0) (Vector.replicate 12 0) []) := rfl

/-- A destination byte that differs from the plaintext byte to come. -/
def memOther : Memory :=
  memWrite [] 0xFFFFFFFE ((0 ^^^ Config.ks .aes256Gcm (Vector.replicate 32 0) (Vector.replicate 12 0) 0) + 1)

theorem memOther_wf : Memory.wf memOther = true := memWrite_wf rfl (by decide) _

/-- A verified AEAD_DEC whose first write changes memory. -/
theorem witness_NoWriteBeforeVerification :
    let s := decAt tagZ .writePass 0 [] memOther
    Inv s ∧ (s.status.busy = true → s.hid.op = .aeadDec) ∧ ∃ t, exec .aeadDec s = .next t ∧ t.mem ≠ s.mem := by
  refine ⟨decWrite_inv 0 (by decide) memOther_wf, fun _ => rfl, decByteDone (decAt tagZ .writePass 0 [] memOther), ?_, ?_⟩
  · show Host.Outcome.next (aeadWriteStep (decAt tagZ .writePass 0 [] memOther)) = _
    rw [aeadWriteStep_okay rfl rfl, if_neg (by decide)]
  · intro h
    have h1 : memRead (memWrite memOther 0xFFFFFFFE
        (readByte (decAt tagZ .writePass 0 [] memOther) 0x1000 ^^^
          ksByte (decAt tagZ .writePass 0 [] memOther) 0)) 0xFFFFFFFE = memRead memOther 0xFFFFFFFE :=
      congrArg (fun m => memRead m 0xFFFFFFFE) h
    have h2 : memRead memOther 0x1000 = 0 := memRead_memWrite_ne _ _ (by decide)
    have h3 : readByte (decAt tagZ .writePass 0 [] memOther) 0x1000 = 0 := by
      rw [readByte_quiet rfl]; exact h2
    have h4 : ksByte (decAt tagZ .writePass 0 [] memOther) 0 =
        Config.ks .aes256Gcm (Vector.replicate 32 0) (Vector.replicate 12 0) 0 := by
      rw [ksByte, (decAt_keys _ _ _ _ _).1, (decAt_keys _ _ _ _ _).2]; rfl
    rw [memRead_memWrite memOther_wf, if_pos rfl, h3, h4, memOther, memRead_memWrite rfl, if_pos rfl] at h1
    have h5 : ∀ b : Byte, b ≠ b + 1 := by decide
    exact h5 _ h1

/-- The AUTH_PASS step that reads the last byte and finds the expected tag enters WRITE_PASS. -/
theorem witness_NoWriteBeforeVerification_enters :
    let s := decAt tagZ .authPass 1 [0] []
    Inv s ∧ (s.status.busy = true → s.hid.op = .aeadDec) ∧
      ∃ t, exec .aeadDec s = .next t ∧ t.status.busy = true ∧ t.hid.phase = .writePass := by
  have h1 : aeadAuthStep (decAt tagZ .authPass 1 [0] []) = { authByteDone (decAt tagZ .authPass 1 [0] []) with
      hid := { (authByteDone (decAt tagZ .authPass 1 [0] [])).hid with phase := .writePass, k := 0, ct := [] } } := by
    rw [aeadAuthStep_okay rfl,
      if_pos (show (decAt tagZ .authPass 1 [0] []).hid.k + 1 = lenBytes (decAt tagZ .authPass 1 [0] []) from rfl),
      if_neg]
    rw [decAt_tag, show (authByteDone (decAt tagZ .authPass 1 [0] [])).hid.ct = [0, 0] from rfl, dec_tagOf]
    exact not_ne_iff.2 rfl
  refine ⟨dec_inv _ _ _ _ rfl (by decide) (by simp) rfl, fun _ => rfl,
    aeadAuthStep (decAt tagZ .authPass 1 [0] []), rfl, ?_, ?_⟩
  · rw [h1]; rfl
  · rw [h1]

theorem witness_EmissionsOfAStep :
    Inv embedLast ∧ embedLast.status.busy = true ∧ embedLast.prog = [] ∧ ∃ t, exec embedLast.hid.op embedLast = .next t ∧
      t.status.done = true :=
  ⟨embedLast_inv, by decide, by decide, ⟨_, rfl, by decide⟩⟩

theorem witness_FailureRecord :
    (Inv State.reset ∧ ∃ t, exec .capq State.reset = .next t ∧ t.status.err = true) ∧
    Inv (decAt tagBad .authPass 1 [0] []) ∧
    ∃ t, exec .aeadDec (decAt tagBad .authPass 1 [0] []) = .next t ∧ t.status.err = true :=
  ⟨⟨inv_of_idle rfl rfl rfl rfl rfl rfl rfl rfl rfl rfl, ⟨_, rfl, by decide⟩⟩,
    dec_inv _ _ _ _ rfl (by decide) (by decide) rfl, ⟨_, test_AUTH, rfl⟩⟩

theorem witness_CompletionRecord :
    Inv embedLast ∧ (embedLast.status.busy = true → Instr.embed = embedLast.hid.op) ∧
    ∃ t, exec .embed embedLast = .next t ∧ t.status.done = true :=
  ⟨embedLast_inv, by decide, ⟨_, rfl, by decide⟩⟩

theorem witness_EmbedWritesContainer :
    let s := embedReady [cmdWrite 0x00000002]
    Inv s ∧ s.status.busy = false ∧ s.rstN = true ∧ s.inbox = [cmdWrite 0x00000002] ∧ EmbedReady s ∧
    ReadsOkay s s.srcBase (lenBytes s) ∧ ReadsOkay s s.imgBase (8 * lenBytes s) ∧
    WritesOkay s s.imgBase (8 * lenBytes s) :=
  ⟨ready_inv _ _ _ _ _ _ (by decide), rfl, rfl, rfl,
    ⟨by decide, by decide, by decide, by decide, by decide, by decide, by decide⟩,
    fun _ _ => rfl, fun _ _ => rfl, fun _ _ => rfl⟩

theorem witness_ExtractReadsImage :
    let s := extractReady [cmdWrite 0x00000003]
    Inv s ∧ s.status.busy = false ∧ s.rstN = true ∧ s.inbox = [cmdWrite 0x00000003] ∧ ExtractReady s ∧
    ReadsOkay s s.imgBase (3 * (width s * height s)) ∧ WritesOkay s s.dstBase (3 * (width s * height s) / 8) :=
  ⟨ready_inv _ _ _ _ _ _ rfl, rfl, rfl, rfl, ⟨by decide, by decide, by decide, by decide, by decide, by decide⟩,
    fun _ _ => rfl, fun _ _ => rfl⟩

/-- P2: 16 × 8, LEN = 48, all of the capacity. -/
theorem witness_ExtractReturnsContainer :
    let s := ready 0x00080010 0x1000 0x3000 0x4000 48 [] [cmdWrite 0x00000002]
    Inv s ∧ s.status.busy = false ∧ s.rstN = true ∧ s.inbox = [cmdWrite 0x00000002] ∧ EmbedReady s ∧ ExtractReady s ∧
    ReadsOkay s s.srcBase (lenBytes s) ∧ ReadsOkay s s.imgBase (3 * (width s * height s)) ∧
    WritesOkay s s.imgBase (8 * lenBytes s) ∧ WritesOkay s s.dstBase (3 * (width s * height s) / 8) :=
  ⟨ready_inv _ _ _ _ _ _ rfl, rfl, rfl, rfl,
    ⟨by decide, by decide, by decide, by decide, by decide, by decide, by decide⟩,
    ⟨by decide, by decide, by decide, by decide, by decide, by decide⟩,
    fun _ _ => rfl, fun _ _ => rfl, fun _ _ => rfl, fun _ _ => rfl⟩

theorem witness_ExtractEmitsOneToHundred :
    100 ≤ width (extractReady [cmdWrite 0x00000003]) * height (extractReady [cmdWrite 0x00000003]) := by decide

theorem witness_AeadEncEncrypts :
    let s := aeadReady [cmdWrite 0x00000010]
    Inv s ∧ s.status.busy = false ∧ s.rstN = true ∧ s.inbox = [cmdWrite 0x00000010] ∧ AeadReady s ∧
    s.status.ivu = false ∧ ReadsOkay s s.srcBase (lenBytes s) ∧ WritesOkay s s.dstBase (lenBytes s) :=
  ⟨ready_inv _ _ _ _ _ _ rfl, rfl, rfl, rfl, ⟨by decide, by decide, by decide, by decide, by decide⟩, rfl,
    fun _ _ => rfl, fun _ _ => rfl⟩

/-- Both outcomes of Dec: a wrong tag and the right one. -/
theorem witness_AeadDecDecrypts :
    (∀ e : Tag, let s := { aeadReady [cmdWrite 0x00000011] with tag := packTag e }
      Inv s ∧ s.status.busy = false ∧ s.rstN = true ∧ s.inbox = [cmdWrite 0x00000011] ∧ AeadReady s ∧
      ReadsOkay s s.srcBase (lenBytes s) ∧ WritesOkay s s.dstBase (lenBytes s)) ∧
    (let dec := fun s : State => aeadDecrypt s.cfg.aeadPrim (keyBytes s) (nonceBytes s)
      (memBytes s.mem s.srcBase.toNat (lenBytes s)) (tagBytes s)
     dec { aeadReady [cmdWrite 0x00000011] with tag := packTag tagBad } = none ∧
     ∃ P, dec { aeadReady [cmdWrite 0x00000011] with tag := packTag tagZ } = some P) := by
  have hk : ∀ e : Tag, keyBytes { aeadReady [cmdWrite 0x00000011] with tag := packTag e } = Vector.replicate 32 0 ∧
      nonceBytes { aeadReady [cmdWrite 0x00000011] with tag := packTag e } = Vector.replicate 12 0 := fun e =>
    ⟨(decAt_keys e .run 0 [] []).1, (decAt_keys e .run 0 [] []).2⟩
  have ht : ∀ e : Tag, tagBytes { aeadReady [cmdWrite 0x00000011] with tag := packTag e } = e :=
    fun e => tagBytes_packTag rfl
  refine ⟨fun e => ⟨inv_of_idle rfl rfl rfl rfl rfl rfl rfl rfl rfl rfl, rfl, rfl, rfl,
    ⟨rfl, (by decide : lenBytes (aeadReady []) ≠ 0), (by decide : 0x1000 + 2 ≤ 2 ^ 32),
      (by decide : 0xFFFFFFFE + 2 ≤ 2 ^ 32), .inr (.inl (by decide : 0x1000 + 2 ≤ 0xFFFFFFFE))⟩,
    fun _ _ => rfl, fun _ _ => rfl⟩, ?_, ?_⟩
  · dsimp only
    rw [aeadDecrypt, (hk tagBad).1, (hk tagBad).2, ht tagBad]
    exact if_neg tagBad_ne
  · dsimp only
    rw [aeadDecrypt, (hk tagZ).1, (hk tagZ).2, ht tagZ]
    exact ⟨_, if_pos rfl⟩

theorem witness_StepKeepsInvariant : Inv embedFirst ∧ ∃ t, step embedFirst = .next t := ⟨embedFirst_inv, _, rfl⟩

theorem witness_StepNeverStops : Inv extractLast := extractLast_inv

theorem witness_InternalUnreachable :
    Inv embedLast ∧ (∃ t, step embedLast = .next t) ∧ embedLast.error ≠ .internal :=
  ⟨embedLast_inv, ⟨_, rfl⟩, by decide⟩

theorem witness_OperandsConstantWhileBusy :
    let s := { embedFirst with inbox := [.access (.write .word 0x24 0)] }
    s.status.busy = true ∧ (∃ t, step s = .next t ∧ t.status.busy = true) ∧ s.hid.op ≠ .aeadEnc :=
  ⟨by decide, ⟨_, rfl, by decide⟩, by decide⟩

theorem witness_CommandsEnd : Inv (decAt tagZ .writePass 1 [0] []) ∧
    (decAt tagZ .writePass 1 [0] []).status.busy = true ∧ (decAt tagZ .writePass 1 [0] []).inbox = [] :=
  ⟨decWrite_inv 1 (by decide) rfl, rfl, rfl⟩

end Sys2Proof.Tests
end

section
/-! PROOF. The statements on ID, VERSION, CFG, the reserved offsets, STATUS.OVR and irq (10_state.md): what they need of
the register port and the flags, and that no step changes the parameters. -/

namespace Sys2Proof.Machine

/-! ## The parameters stay (R7) -/

@[simp] theorem afterExec_cfg (s : State) : (afterExec s).cfg = s.cfg := by
  obtain ⟨h, m, r, n, he⟩ := afterExec_shape s
  rw [he]

@[simp] theorem writeReg_cfg (r : Reg) (v : Word) (s : State) : (writeReg r v s).cfg = s.cfg := by
  cases r with
  | status => simp only [writeReg]; split <;> rfl
  | _ => rfl

@[simp] theorem writeOffset_cfg (o : BitVec 8) (v : Word) (s : State) : (writeOffset o v s).cfg = s.cfg := by
  rw [writeOffset]
  cases regAt o with
  | none => rfl
  | some r =>
    dsimp only
    split
    · rfl
    · exact writeReg_cfg r v s

@[simp] theorem hostStore_cfg (a : Word) (v : Byte) (s : State) : (hostStore a v s).cfg = s.cfg := by
  rw [hostStore]
  split <;> rfl

@[simp] theorem releaseReset_cfg (s : State) : (releaseReset s).cfg = s.cfg := by
  rw [releaseReset]
  split <;> rfl

/-- An execution of a command, with the open values settled, keeps the parameters. -/
theorem mapNext_afterExec_cfg {i : Instr} {s t : State} (h : mapNext afterExec (exec i s) = .next t) :
    t.cfg = s.cfg := by
  obtain ⟨u, hu, rfl⟩ := mapNext_next h
  rw [afterExec_cfg]
  exact (exec_keeps hu).cfg

theorem engineTurn_cfg {s t : State} (h : engineTurn s = .next t) : t.cfg = s.cfg := by
  rw [engineTurn] at h
  split at h
  · exact mapNext_afterExec_cfg h
  · cases h; rfl

theorem issue_cfg {v : Word} {s t : State} (h : issue v s = .next t) : t.cfg = s.cfg := by
  rw [issue] at h
  split at h
  · exact mapNext_afterExec_cfg h
  · cases h; exact afterExec_cfg _

theorem portWrite_cfg {o : BitVec 8} {v : Word} {s t : State} (h : portWrite o v s = .next t) : t.cfg = s.cfg := by
  rw [portWrite] at h
  split at h
  · exact (issue_cfg h).trans rfl
  · cases h; exact writeOffset_cfg _ _ _

theorem portTurn_cfg {a : PortAccess} {s t : State} (h : portTurn a s = .next t) : t.cfg = s.cfg := by
  rw [portTurn.eq_def] at h
  split at h
  · cases h; rfl
  · cases a with
    | read z o => cases h; rfl
    | write z o v => exact portWrite_cfg h

/-- Two turns in one step, each of which keeps the parameters. -/
theorem bindNext_cfg {f g : State → Host.Outcome State Fault Refusal}
    (hf : ∀ {s t : State}, f s = .next t → t.cfg = s.cfg) (hg : ∀ {s t : State}, g s = .next t → t.cfg = s.cfg)
    {s t : State} (h : bindNext g (f s) = .next t) : t.cfg = s.cfg := by
  obtain ⟨u, hu, ht⟩ := bindNext_next h
  exact (hg ht).trans (hf hu)

theorem coincideTurn_cfg {a : PortAccess} {o : Order} {s t : State} (h : coincideTurn a o s = .next t) :
    t.cfg = s.cfg := by
  rw [coincideTurn.eq_def] at h
  split at h
  · split at h
    · exact bindNext_cfg portTurn_cfg engineTurn_cfg h
    · exact bindNext_cfg portTurn_cfg engineTurn_cfg h
    · exact bindNext_cfg engineTurn_cfg portTurn_cfg h
  · exact portTurn_cfg h

theorem waitTurn_cfg {s t : State} (h : waitTurn s = .next t) : t.cfg = s.cfg := by
  cases hb : s.status.busy with
  | true =>
    rw [waitTurn_busy hb] at h
    exact (coincideTurn_cfg h).trans rfl
  | false =>
    rw [waitTurn_idle hb] at h
    exact portTurn_cfg h

theorem eventTurn_cfg {e : HostEvent} {s t : State} (h : eventTurn e s = .next t) : t.cfg = s.cfg := by
  cases e with
  | engine => exact engineTurn_cfg h
  | access a => exact portTurn_cfg h
  | coincide a o => exact coincideTurn_cfg h
  | wait => exact waitTurn_cfg h
  | store a v => cases h; exact hostStore_cfg a v s
  | responder ws => cases h; rfl
  | resetAssert => cases h; rfl
  | resetRelease => cases h; exact releaseReset_cfg s

/-- No step, reset among them, changes the parameters. -/
theorem step_cfg {s t : State} (h : step s = .next t) : t.cfg = s.cfg := by
  cases hin : s.inbox with
  | nil =>
    rw [step_quiet hin] at h
    exact (engineTurn_cfg h).trans rfl
  | cons e rest =>
    rw [step_event hin] at h
    exact (eventTurn_cfg h).trans rfl

/-! ## The register CFG (R35) -/

/-- A word of two fields as a number: the upper field counts in units of `2 ^ n`. -/
theorem toNat_append_eq_add {m n : Nat} (x : BitVec m) (y : BitVec n) :
    (x ++ y).toNat = x.toNat * 2 ^ n + y.toNat := by
  rw [BitVec.toNat_append, ← Nat.shiftLeft_add_eq_or_of_lt y.isLt, Nat.shiftLeft_eq]

theorem cfgWord_toNat (c : Config) :
    (cfgWord c).toNat = c.hasAead.toNat +
      (if c.hasAead = true ∧ c.aeadPrim = .chacha20Poly1305 then 2 else 0) + 256 * c.hdrLen.toNat := by
  have hprim : ((if c.hasAead then primBits c.aeadPrim else 0#2) : BitVec 2).toNat * 2 =
      if c.hasAead = true ∧ c.aeadPrim = .chacha20Poly1305 then 2 else 0 := by
    cases c.hasAead <;> cases c.aeadPrim <;> rfl
  rw [← hprim]
  simp only [cfgWord, toNat_append_eq_add, BitVec.toNat_ofBool, BitVec.toNat_ofNat]
  omega

/-! ## Accesses at a named register, and at a reserved offset -/

theorem regOffset_aligned (r : Reg) : (regOffset r).toNat % 4 = 0 := regAt_mod (regAt_offset r)

/-- A step that reads the register `r`. -/
theorem step_readReg {s : State} {rest : List HostEvent} (r : Reg)
    (h : s.inbox = .access (.read .word (regOffset r)) :: rest) (hr : s.rstN = true) :
    step s = .next (respond (.readOkay (readReg r s)) rest s) := by
  rw [step_read h hr (regOffset_aligned r), readOffset_reg]

/-- The reserved offsets of R58. -/
def ReservedOffset (o : BitVec 8) : Prop := o = 0x5C ∨ o = 0x8C ∨ (0xA0 ≤ o.toNat ∧ o.toNat % 4 = 0)

theorem ReservedOffset.aligned {o : BitVec 8} (h : ReservedOffset o) : o.toNat % 4 = 0 := by
  obtain rfl | rfl | ⟨-, h⟩ := h
  · rfl
  · rfl
  · exact h

/-- No register of the map stands at a reserved offset. -/
theorem regOffset_not_reserved (r : Reg) : ¬ ReservedOffset (regOffset r) := by
  unfold ReservedOffset
  cases r with
  | key i => revert i; decide
  | iv i => revert i; decide
  | tag i => revert i; decide
  | _ => decide

/-- `regAt` inverts `regOffset`. -/
theorem regOffset_of_regAt {o : BitVec 8} {r : Reg} (h : regAt o = some r) : regOffset r = o := by
  simpa using List.find?_some h

theorem regAt_reserved {o : BitVec 8} (h : ReservedOffset o) : regAt o = none := by
  cases ho : regAt o with
  | none => rfl
  | some r => exact absurd (regOffset_of_regAt ho ▸ h) (regOffset_not_reserved r)

theorem readOffset_reserved {o : BitVec 8} (h : ReservedOffset o) (s : State) : readOffset o s = 0 := by
  rw [readOffset, regAt_reserved h]

theorem writeOffset_reserved {o : BitVec 8} (h : ReservedOffset o) (v : Word) (s : State) : writeOffset o v s = s := by
  rw [writeOffset, regAt_reserved h]

/-- A write to STATUS, busy or idle: OVR is the only bit it can change (R38). -/
theorem writeOffset_status (v : Word) (s : State) :
    writeOffset (regOffset .status) v s =
      { s with status := { s.status with ovr := s.status.ovr && !v.getLsbD 4 } } := by
  rw [writeOffset_reg, if_neg (by simp [locked]), writeReg]
  cases v.getLsbD 4 <;> simp

/-! ## The interrupt words (R41, R42) -/

/-- The bits set in both of two interrupt words. -/
theorem intWord_and (a b : IntBits) :
    intWord a &&& intWord b = intWord ⟨a.done && b.done, a.err && b.err, a.prog && b.prog⟩ := by
  obtain ⟨d, e, p⟩ := a
  obtain ⟨d', e', p'⟩ := b
  revert d e p d' e' p'
  decide

theorem intWord_ne_zero (b : IntBits) : intWord b ≠ 0 ↔ (b.done || b.err || b.prog) = true := by
  obtain ⟨d, e, p⟩ := b
  revert d e p
  decide

/-! ## The statements -/

/-- Settles O12: three reads of read-only registers, the bits of CFG, and the parameters through every kind of turn. -/
theorem identityRegisters : Obligations.IdentityRegisters := by
  unfold Obligations.IdentityRegisters
  refine ⟨fun s rest hr => ⟨fun h => step_readReg .id h hr, fun h => step_readReg .version h hr, fun h => ?_⟩,
    fun s t h => step_cfg h⟩
  refine ⟨cfgWord s.cfg, step_readReg .cfg h hr, cfgWord_toNat s.cfg, fun hc => ?_⟩
  rw [hc]
  decide

/-- Settles O13: no register stands at a reserved offset. -/
theorem reservedOffsets : Obligations.ReservedOffsets := by
  unfold Obligations.ReservedOffsets
  intro s o v rest hr ho
  have hres : ReservedOffset o := ho
  refine ⟨fun h => ?_, fun h => ?_⟩
  · rw [step_read h hr hres.aligned, readOffset_reserved hres]
  · have hcmd : o ≠ regOffset .cmd := fun he => regOffset_not_reserved .cmd (he ▸ hres)
    rw [step_write_plain h hr hres.aligned (.inl hcmd), writeOffset_reserved hres]

/-- Settles O14: STATUS is not locked, so the write is the same busy or idle. -/
theorem ovrIsOnlyWritableStatusBit : Obligations.OvrIsOnlyWritableStatusBit := by
  unfold Obligations.OvrIsOnlyWritableStatusBit
  intro s v rest hr h
  have hcmd : regOffset .status ≠ regOffset .cmd := by decide
  have hw : step s = .next (writeOffset (regOffset .status) v (respond .writeOkay rest s)) :=
    step_write_plain h hr (regOffset_aligned .status) (.inl hcmd)
  rw [hw, writeOffset_status]
  rfl

/-- Settles O16: the bitwise and of the two words has exactly the bits of the three conjunctions that irq joins. -/
theorem irqIsLevel : Obligations.IrqIsLevel := by
  unfold Obligations.IrqIsLevel
  intro s
  have h : (readReg .intStatus s &&& readReg .intEn s ≠ 0) ↔ irq s = true := by
    rw [readReg, readReg, intWord_and, intWord_ne_zero]
    rfl
  simp only [h, Bool.decide_eq_true]

end Sys2Proof.Machine
end

section
/-! PROOF. The statement on the bytes of KEY, IV and TAG (20_memory.md). -/

namespace Sys2Proof.Machine

/-- Byte `j` of a word is the word's number shifted down to bit `24 - 8j`, modulo a byte (R113). -/
theorem wordByte_toNat (w : Word) (j : Nat) : (wordByte w j).toNat = w.toNat / 2 ^ (24 - 8 * j) % 256 := by
  rw [wordByte, BitVec.extractLsb'_toNat, Nat.shiftRight_eq_div_pow]

/-- Byte `4i + j` of a row of words, counted from its first word, is byte `j` of word `i`. -/
theorem wordByte_div_mod {n : Nat} (ws : Vector Word n) {i j : Nat} (hi : i < n) (hj : j < 4) :
    wordByte (ws[(4 * i + j) / 4]'(by omega)) ((4 * i + j) % 4) = wordByte ws[i] j := by
  have hdiv : (4 * i + j) / 4 = i := by omega
  have hmod : (4 * i + j) % 4 = j := by omega
  simp only [hdiv, hmod]

theorem keyBytes_getElem (s : State) {i j : Nat} (hi : i < 8) (hj : j < 4) :
    (keyBytes s)[4 * i + j]'(by omega) = wordByte s.key[i] j := by
  rw [← wordByte_div_mod s.key hi hj]
  simp only [keyBytes, Vector.getElem_ofFn]

theorem nonceBytes_getElem (s : State) {i j : Nat} (hi : i < 3) (hj : j < 4) :
    (nonceBytes s)[4 * i + j]'(by omega) = wordByte s.iv[i] j := by
  rw [← wordByte_div_mod s.iv hi hj]
  simp only [nonceBytes, Vector.getElem_ofFn]

theorem tagBytes_getElem (s : State) {i j : Nat} (hi : i < 4) (hj : j < 4) :
    (tagBytes s)[4 * i + j]'(by omega) = wordByte s.tag[i] j := by
  rw [← wordByte_div_mod s.tag hi hj]
  simp only [tagBytes, Vector.getElem_ofFn]

/-- The example of R113. -/
theorem nonceBytes_example {s : State} (h : s.iv = #v[0x00010203, 0x04050607, 0x08090A0B]) :
    (nonceBytes s).toList.map BitVec.toNat = List.range 12 := by
  have hiv : nonceBytes s = nonceBytes { State.reset with iv := s.iv } := rfl
  rw [hiv, h]
  decide

/-- Settles O38: each value's byte `4i + j` is byte `j` of word `i`, and a packed tag reads back. -/
theorem cipherRegisterBytes : Obligations.CipherRegisterBytes := by
  unfold Obligations.CipherRegisterBytes
  refine ⟨fun s i j hj => ⟨fun hi => ?_, fun hi => ?_, fun hi => ?_⟩, fun s h => nonceBytes_example h,
    fun s t => tagBytes_packTag rfl⟩
  · rw [keyBytes_getElem s hi hj, wordByte_toNat]
  · rw [nonceBytes_getElem s hi hj, wordByte_toNat]
  · rw [tagBytes_getElem s hi hj, wordByte_toNat]

end Sys2Proof.Machine
end

section
/-! PROOF. The statement on issuing an illegal word (30_encoding.md R144, R145): which words decode, and what a word that
is not legal does when it is issued. -/

namespace Sys2Proof.Machine

/-! ## The word of a decoded command (R141, R143) -/

/-- The opcode map lists one OP per command. -/
theorem decodeOp_ok {op : Byte} {i : Instr} (h : decodeOp op = .ok i) : op = opcode i := by
  unfold decodeOp at h
  split at h <;> cases h <;> rfl

/-- A word is its field RSV above its field OP. -/
theorem toNat_cmdFields (v : Word) : v.toNat = 256 * (cmdRsv v).toNat + (cmdOp v).toNat := by
  have hv : v.toNat < 2 ^ 32 := v.isLt
  simp only [cmdRsv, cmdOp, BitVec.extractLsb'_toNat, Nat.shiftRight_eq_div_pow]
  omega

/-- A word that decodes to a command is, as a number, the command's OP. -/
theorem toNat_of_decode_ok {v : Word} {i : Instr} (h : decode v = .ok i) : v.toNat = (opcode i).toNat := by
  unfold decode at h
  split at h
  case isTrue hrsv => rw [toNat_cmdFields, hrsv, decodeOp_ok h]; simp
  case isFalse => cases h

/-- The OPs of the opcode map as numbers. -/
theorem opcode_toNat (i : Instr) : (opcode i).toNat = 0x01 ∨ (opcode i).toNat = 0x02 ∨ (opcode i).toNat = 0x03 ∨
    (opcode i).toNat = 0x10 ∨ (opcode i).toNat = 0x11 := by
  cases i <;> decide

/-! ## The illegal words (R145) -/

/-- The words that R145 lists as illegal under the parameters `c`. -/
def ListedIllegal (c : Config) (v : Word) : Prop :=
  v.toNat / 256 ≠ 0 ∨ v.toNat % 256 = 0 ∨ (0x04 ≤ v.toNat % 256 ∧ v.toNat % 256 ≤ 0x0F) ∨ 0x12 ≤ v.toNat % 256 ∨
    (c.hasAead = false ∧ (v = 0x10 ∨ v = 0x11))

/-- The absent commands are those of the AEAD kernel when HAS_AEAD = 0 (R143). -/
theorem wellFormed_eq_false {c : Config} {i : Instr} :
    i.wellFormed c = false ↔ i.isAead = true ∧ c.hasAead = false := by
  simp [Instr.wellFormed]

/-- A listed word decodes at most to a command that is not present. -/
theorem ListedIllegal.absent {c : Config} {v : Word} {i : Instr} (h : ListedIllegal c v) (hd : decode v = .ok i) :
    i.wellFormed c = false := by
  have hop := opcode_toNat i
  rw [← toNat_of_decode_ok hd] at hop
  obtain hrsv | hzero | hlow | hhigh | ⟨hc, rfl | rfl⟩ := h
  · omega
  · omega
  · omega
  · omega
  · cases hd; exact wellFormed_eq_false.2 ⟨rfl, hc⟩
  · cases hd; exact wellFormed_eq_false.2 ⟨rfl, hc⟩

theorem ListedIllegal.not_legal {c : Config} {v : Word} (h : ListedIllegal c v) : legalWord c v = false := by
  unfold legalWord
  cases hd : decode v with
  | ok i => exact h.absent hd
  | error r => rfl

/-! ## Issuing a word that is not legal (R177, R179) -/

/-- A command fails with ILLEGAL_CMD in its start step where it is not present (R200). -/
theorem exec_absent {i : Instr} {s : State} (hb : s.status.busy = false) (hi : i.wellFormed s.cfg = false) :
    exec i s = .next (illegalCommand s) := by
  obtain ⟨haead, habsent⟩ := wellFormed_eq_false.1 hi
  cases i with
  | capq | embed | extract => cases haead
  | aeadEnc =>
    have hc : aeadEncCheck s = some .illegalCmd := by simp [aeadEncCheck, habsent]
    simp [exec, execAeadEnc, hb, aeadEncStart, hc, illegalCommand]
  | aeadDec =>
    have hc : aeadDecCheck s = some .illegalCmd := by simp [aeadDecCheck, habsent]
    simp [exec, execAeadDec, hb, aeadDecStart, hc, illegalCommand]

/-- An illegal word ends the same way whether the decoder rejects it or its command is not present. -/
theorem issue_illegal {v : Word} {s : State} (hb : s.status.busy = false) (hv : legalWord s.cfg v = false) :
    issue v s = .next (afterExec (illegalCommand s)) := by
  unfold legalWord at hv
  rw [issue]
  cases hd : decode v with
  | ok i =>
    rw [hd] at hv
    simp only [exec_absent hb hv, mapNext]
  | error r => rfl

/-- With no racing store, the end of the failed command opens its hidden state and takes a fresh value of the counter. -/
theorem afterExec_illegalCommand {s : State} (hr : s.racing = []) :
    afterExec (illegalCommand s) =
      { failedWith .illegalCmd 0 (Config.freeHidden s.free) (startedFrom s) with free := s.free + 1 } :=
  afterExec_idle rfl hr

/-- Settles O7: none of the listed words is legal, and a word that is not legal fails in the step that issues it. -/
theorem illegalWordFails : Obligations.IllegalWordFails := by
  unfold Obligations.IllegalWordFails
  intro s v rest hin hr hb hrace hill
  have hlegal : legalWord s.cfg v = false := ListedIllegal.not_legal hill
  refine ⟨Config.freeHidden s.free, s.free + 1, ?_⟩
  calc step s = issue v (respond .writeOkay rest s) := step_issue hin hr hb
    _ = .next (afterExec (illegalCommand (respond .writeOkay rest s))) := issue_illegal hb hlegal
    _ = _ := congrArg Host.Outcome.next (afterExec_illegalCommand hrace)

end Sys2Proof.Machine
end

section
/-! PROOF. The statements on accesses that the register port does not carry out (40_host_interface.md R173 to R175): a
write that is dropped while a command executes, and an improper access. -/

namespace Sys2Proof.Machine

/-! ## Writes dropped while a command executes (R174, R175) -/

/-- The registers whose write is dropped while BUSY = 1: the "lock" column of R32, and CMD. -/
def DroppedWhileBusy (r : Reg) : Prop := (locked r || r == .cmd) = true

theorem DroppedWhileBusy.of_locked {r : Reg} (h : locked r = true) : DroppedWhileBusy r := by
  simp [DroppedWhileBusy, h]

theorem droppedWhileBusy_cmd : DroppedWhileBusy .cmd := rfl

/-- Busy, a write to such a register sets OVR and does nothing else. -/
theorem writeOffset_dropped {r : Reg} {s : State} (hr : DroppedWhileBusy r) (hb : s.status.busy = true) (v : Word) :
    writeOffset (regOffset r) v s = setOvr s := by
  have hdrop : (s.status.busy && (locked r || r == .cmd)) = true := by rw [hb, hr, Bool.and_self]
  rw [writeOffset_reg, if_pos hdrop]

/-- A step that drops a write: the response, and OVR. -/
theorem step_write_dropped {s : State} {r : Reg} {v : Word} {rest : List HostEvent}
    (h : s.inbox = .access (.write .word (regOffset r) v) :: rest) (hr : s.rstN = true)
    (hb : s.status.busy = true) (hd : DroppedWhileBusy r) :
    step s = .next (setOvr (respond .writeOkay rest s)) := by
  have hbusy : (respond .writeOkay rest s).status.busy = true := hb
  rw [step_write_plain h hr (regOffset_aligned r) (.inr hb), writeOffset_dropped hd hbusy]

/-! ## The offsets of those registers (R32) -/

theorem regOffset_key_toNat (i : Fin 8) : (regOffset (.key i)).toNat = 0x60 + 4 * i.val := by
  revert i; decide

theorem regOffset_iv_toNat (i : Fin 3) : (regOffset (.iv i)).toNat = 0x80 + 4 * i.val := by
  revert i; decide

theorem regOffset_tag_toNat (i : Fin 4) : (regOffset (.tag i)).toNat = 0x90 + 4 * i.val := by
  revert i; decide

/-- The locked registers that are no member of a file of words stand at 0x24 to 0x34. -/
theorem exists_locked_plain {o : BitVec 8} (h : o.toNat ∈ [0x24, 0x28, 0x2C, 0x30, 0x34]) :
    ∃ r, locked r = true ∧ o = regOffset r := by
  simp only [List.mem_cons, List.not_mem_nil, or_false] at h
  obtain h | h | h | h | h := h
  · exact ⟨.dim, rfl, BitVec.eq_of_toNat_eq h⟩
  · exact ⟨.imgBase, rfl, BitVec.eq_of_toNat_eq h⟩
  · exact ⟨.srcBase, rfl, BitVec.eq_of_toNat_eq h⟩
  · exact ⟨.dstBase, rfl, BitVec.eq_of_toNat_eq h⟩
  · exact ⟨.len, rfl, BitVec.eq_of_toNat_eq h⟩

/-- At each offset that R32 locks, and at CMD's, stands a register whose write is dropped. -/
theorem exists_droppedWhileBusy {o : BitVec 8}
    (h : o.toNat ∈ [0x24, 0x28, 0x2C, 0x30, 0x34] ∨ (∃ i : Fin 8, o.toNat = 0x60 + 4 * i.val) ∨
      (∃ i : Fin 3, o.toNat = 0x80 + 4 * i.val) ∨ (∃ i : Fin 4, o.toNat = 0x90 + 4 * i.val) ∨ o.toNat = 0x0C) :
    ∃ r, DroppedWhileBusy r ∧ o = regOffset r := by
  obtain hplain | ⟨i, hkey⟩ | ⟨i, hiv⟩ | ⟨i, htag⟩ | hcmd := h
  · obtain ⟨r, hr, ho⟩ := exists_locked_plain hplain
    exact ⟨r, .of_locked hr, ho⟩
  · exact ⟨.key i, .of_locked rfl, BitVec.eq_of_toNat_eq (hkey.trans (regOffset_key_toNat i).symm)⟩
  · exact ⟨.iv i, .of_locked rfl, BitVec.eq_of_toNat_eq (hiv.trans (regOffset_iv_toNat i).symm)⟩
  · exact ⟨.tag i, .of_locked rfl, BitVec.eq_of_toNat_eq (htag.trans (regOffset_tag_toNat i).symm)⟩
  · exact ⟨.cmd, droppedWhileBusy_cmd, BitVec.eq_of_toNat_eq hcmd⟩

/-! ## Improper accesses (R173) -/

/-- A proper read is 32 bits wide at a multiple of 4; `proper_read` says it of the 32-bit ones. -/
theorem accessProper_read_iff {size : AccessSize} {o : BitVec 8} :
    accessProper (.read size o) = true ↔ size = .word ∧ o.toNat % 4 = 0 := by
  cases size with
  | word => simp [proper_read]
  | byte | half => simp [accessProper]

/-- The check looks at the size and the offset alone, so a write passes it where a read does. -/
theorem accessProper_write {size : AccessSize} {o : BitVec 8} {v : Word} :
    accessProper (.write size o v) = accessProper (.read size o) := rfl

/-- A step that refuses an access, in reset or out of it. -/
theorem step_improper {s : State} {a : PortAccess} {rest : List HostEvent} (h : s.inbox = .access a :: rest)
    (ha : accessProper a = false) : step s = .next (respond .error rest s) := by
  rw [step_access h, portTurn.eq_def, if_pos (by simp [ha])]
  rfl

/-! ## The statements -/

/-- Settles O8: the offset is that of a register whose write is dropped, CMD among them. -/
theorem lockedWriteWhileBusyDropped : Obligations.LockedWriteWhileBusyDropped := by
  unfold Obligations.LockedWriteWhileBusyDropped
  intro s o v rest hin hr hb ho
  obtain ⟨r, hd, rfl⟩ := exists_droppedWhileBusy ho
  exact step_write_dropped hin hr hb hd

/-- Settles O9: an access of either kind fails the one check, which comes before any effect. -/
theorem improperAccessRefused : Obligations.ImproperAccessRefused := by
  unfold Obligations.ImproperAccessRefused
  refine ⟨rfl, fun s size o v rest himproper hin => ?_⟩
  have hread : accessProper (.read size o) = false := by
    rw [← Bool.not_eq_true, accessProper_read_iff, not_and_or]
    exact himproper
  obtain hin | hin := hin
  · exact step_improper hin hread
  · exact step_improper hin (accessProper_write.trans hread)

end Sys2Proof.Machine
end

section
/-! PROOF. The statement that AEAD_DEC writes nothing before the tag is verified (41_aead.md R209): what a step of AEAD_DEC
is, and what each of its kinds of step does to memory and to the pass. -/

namespace Sys2Proof.Machine

/-! ## The steps of AEAD_DEC (R208) -/

/-- A step of AEAD_DEC that answers a next state is its start step, or the engine step of one of its two passes. -/
theorem exec_aeadDec_cases {s t : State} (h : exec .aeadDec s = .next t) :
    (s.status.busy = false ∧ t = aeadDecStart s) ∨
    (s.status.busy = true ∧ s.hid.phase = .authPass ∧ t = aeadAuthStep s) ∨
    (s.status.busy = true ∧ s.hid.phase = .writePass ∧ t = aeadWriteStep s) := by
  simp only [exec, execAeadDec] at h
  cases hb : s.status.busy with
  | false =>
    rw [hb] at h
    cases h
    exact .inl ⟨rfl, rfl⟩
  | true =>
    rw [hb, if_pos rfl] at h
    cases hp : s.hid.phase with
    | run => rw [hp] at h; cases h
    | authPass => rw [hp] at h; cases h; exact .inr (.inl ⟨rfl, rfl, rfl⟩)
    | writePass => rw [hp] at h; cases h; exact .inr (.inr ⟨rfl, rfl, rfl⟩)

/-- Every outcome of the start step of AEAD_DEC. -/
theorem aeadDecStart_cases (s : State) :
    (∃ c, aeadDecStart s = fail c (clearCommand s)) ∨
    aeadDecStart s = beginCommand .aeadDec
      { clearCommand s with hid := { (clearCommand s).hid with phase := .authPass } } := by
  simp only [aeadDecStart]
  cases aeadDecCheck (clearCommand s) with
  | some c => exact .inl ⟨c, rfl⟩
  | none => exact .inr rfl

/-- The source region ends inside the address space (R206, R208), so the address of its byte H.k does not wrap. -/
theorem AeadReady.srcAddr {s : State} (h : AeadReady s) (hk : s.hid.k < lenBytes s) :
    (byteAddr s.srcBase s.hid.k).toNat = s.srcBase.toNat + s.hid.k :=
  byteAddr_toNat (by have := h.source; omega)

/-! ## Memory -/

theorem aeadDecStart_mem (s : State) : (aeadDecStart s).mem = s.mem := by
  obtain ⟨c, h⟩ | h := aeadDecStart_cases s <;> rw [h] <;> rfl

/-- AUTH_PASS writes no byte, whichever way its step ends. -/
theorem aeadAuthStep_mem (s : State) : (aeadAuthStep s).mem = s.mem := by
  obtain ⟨a, h⟩ | h := aeadAuthStep_cases s <;> rw [h]
  · rfl
  · split
    · split <;> rfl
    · rfl

/-! ## The way into WRITE_PASS -/

/-- The start step fails or begins in AUTH_PASS. -/
theorem aeadDecStart_not_writePass {s : State} (hb : (aeadDecStart s).status.busy = true) :
    (aeadDecStart s).hid.phase ≠ .writePass := by
  obtain ⟨c, h⟩ | h := aeadDecStart_cases s <;> rw [h] at hb ⊢
  · cases hb
  · nofun

/-- The AUTH_PASS step that opens WRITE_PASS read the last byte and found the expected tag. -/
theorem aeadAuthStep_opens {s : State} (hp : s.hid.phase = .authPass) (hb : (aeadAuthStep s).status.busy = true)
    (ht : (aeadAuthStep s).hid.phase = .writePass) :
    s.hid.k + 1 = lenBytes s ∧ tagOf s (authByteDone s).hid.ct = tagBytes s := by
  obtain ⟨a, h⟩ | h := aeadAuthStep_cases s <;> rw [h] at hb ht
  · cases hb
  · split at hb
    case isTrue hlast =>
      split at hb
      case isTrue => cases hb
      case isFalse htag => exact ⟨hlast, not_ne_iff.1 htag⟩
    case isFalse hlast =>
      rw [if_neg hlast] at ht
      cases hp.symm.trans ht

/-- Settles O45: of the three kinds of step, only WRITE_PASS's writes, and only AUTH_PASS's last opens it. -/
theorem noWriteBeforeVerification : Obligations.NoWriteBeforeVerification := by
  unfold Obligations.NoWriteBeforeVerification
  intro s t hi hop h
  obtain ⟨-, rfl⟩ | ⟨hb, hp, rfl⟩ | ⟨hb, hp, -⟩ := exec_aeadDec_cases h
  · exact ⟨fun hm => absurd (aeadDecStart_mem s) hm, fun htb htp => absurd htp (aeadDecStart_not_writePass htb)⟩
  · refine ⟨fun hm => absurd (aeadAuthStep_mem s) hm, fun htb htp => ⟨hb, .inr ⟨hp, ?_⟩⟩⟩
    obtain ⟨hlast, htag⟩ := aeadAuthStep_opens hp htb htp
    have hrun := hi.aeadDecRuns hb (hop hb)
    rw [← ((aeadDecCheck_none s).1 hrun.checks).srcAddr hrun.cursor]
    have hlen : (authByteDone s).hid.ct.length = s.len.toNat := by
      rw [authByteDone, List.length_append, hrun.ct]
      exact hlast
    exact ⟨hlen, htag⟩
  · exact ⟨fun _ => ⟨hb, hp⟩, fun _ _ => ⟨hb, .inl hp⟩⟩

end Sys2Proof.Machine
end

section
/-! PROOF. The statements on the capacity planner (42_capacity.md): what CAPQ computes, and what CAPQ and EMBED say of a
LEN at the capacity of the image and one byte above it. -/

namespace Sys2Proof.Machine

/-! ## FITS after a start (R231, R232) -/

/-- With nonzero dimensions the start of CAPQ or EMBED leaves FITS(LEN) in STATUS.FITS. -/
theorem start_fits {s : State} (h : dimIsZero s = false) :
    (writeFits (writeCapacity (clearCommand s))).status.fits = fitsLen s := by
  rw [start_ok h]

/-! ## CAPQ (R232) -/

/-- CAPQ while idle, with nonzero dimensions: the exact capacity, and FITS(LEN). -/
theorem exec_capq_exact {s : State} (hb : s.status.busy = false) (h : dimIsZero s = false) :
    ∃ t, exec .capq s = .next t ∧ t.capBits.toNat = capacityBits s ∧ t.capBytes.toNat = capacityBytes s ∧
      t.status.fits = fitsLen s := by
  obtain ⟨hbits, hbytes⟩ := writeCapacity_exact (s := clearCommand s) h
  refine ⟨capqStart s, by simp [exec, execCapq, hb], ?_⟩
  rw [capqStart_ok h]
  exact ⟨hbits, hbytes, start_fits h⟩

/-- Settles O22: the registers hold the exact capacity, whose bound is that of the largest image. -/
theorem capacityComputed : Obligations.CapacityComputed := by
  unfold Obligations.CapacityComputed
  intro s hb hw hh capBits
  have hdim : dimIsZero s = false := dimIsZero_false.2 ⟨width_eq s ▸ hw, height_eq s ▸ hh⟩
  have hcap : capacityBits s = capBits := by
    rw [capacityBits, pixels, width_eq, height_eq, ← Nat.mul_assoc]
  have hle : capBits ≤ 12884508675 := hcap ▸ capacityBits_le s
  obtain ⟨t, ht, hbits, hbytes, hfits⟩ := exec_capq_exact hb hdim
  rw [capacityBytes, hcap] at hbytes
  refine ⟨t, ht, hbits.trans hcap, hbytes, ?_, hle, by omega⟩
  rw [hfits, fitsLen, hcap, decide_eq_true_iff, requiredBits, lenBytes]

/-! ## The start step of EMBED (R271) -/

/-- EMBED fails with CAPACITY exactly where the two earlier checks pass and LEN does not fit. -/
theorem embedCheck_capacity {s : State} :
    embedCheck s = some .capacity ↔ dimIsZero s = false ∧ lenBytes s ≠ 0 ∧ fitsLen s = false := by
  unfold embedCheck
  split
  case isTrue hdim => simp [hdim]
  split
  case isTrue hlen => simp [hlen]
  case isFalse hdim hlen =>
    rw [Bool.not_eq_true] at hdim
    cases hfits : fitsLen s with
    | false => simp [hdim, hlen]
    | true =>
      simp only [Bool.not_true, Bool.false_eq_true, if_false, reduceCtorEq, and_false, iff_false]
      split
      · nofun
      · split <;> nofun

/-- EMBED while idle, with nonzero dimensions: FITS(LEN) and the first failing check, and no access to memory. -/
theorem exec_embed_start {s : State} (hb : s.status.busy = false) (h : dimIsZero s = false) :
    ∃ t, exec .embed s = .next t ∧ t.status.fits = fitsLen s ∧ t.error = (embedCheck s).getD .none ∧
      t.status.busy = (embedCheck s).isNone ∧ t.mem = s.mem := by
  refine ⟨embedStart s, by simp [exec, execEmbed, hb], ?_⟩
  rw [embedStart, embedCheck_start]
  cases embedCheck s with
  | some c => exact ⟨start_fits h, rfl, rfl, by simp [fail]⟩
  | none => exact ⟨start_fits h, by simp, rfl, by simp⟩

/-! ## LEN at the boundary (R234) -/

/-- The largest LEN that fits is CAPBYTES. -/
theorem fitsLen_iff_capacityBytes {s : State} : fitsLen s = true ↔ lenBytes s ≤ capacityBytes s := by
  rw [fitsLen, decide_eq_true_iff, requiredBits, capacityBytes, Nat.le_div_iff_mul_le (by decide), Nat.mul_comm]

/-- Settles O24: CAPBYTES is the largest LEN that fits, and a LEN above it is not 0, so that CAPACITY is
the first failure. -/
theorem capacityBoundary : Obligations.CapacityBoundary := by
  unfold Obligations.CapacityBoundary
  intro s hb hw hh
  have hdim : dimIsZero s = false := dimIsZero_false.2 ⟨hw, hh⟩
  obtain ⟨t, ht, -, -, htfits⟩ := exec_capq_exact hb hdim
  obtain ⟨u, hu, hufits, herr, hbusy, hmem⟩ := exec_embed_start hb hdim
  refine ⟨fun (hlen : lenBytes s = capacityBytes s) => ?_, fun (hlen : lenBytes s = capacityBytes s + 1) => ?_⟩
  · have hfits : fitsLen s = true := fitsLen_iff_capacityBytes.2 hlen.le
    refine ⟨⟨t, ht, htfits.trans hfits⟩, u, hu, hufits.trans hfits, ?_⟩
    rw [herr]
    cases hc : embedCheck s with
    | none => nofun
    | some c =>
      rintro (rfl : c = .capacity)
      obtain ⟨-, -, hnot⟩ := embedCheck_capacity.1 hc
      cases hfits.symm.trans hnot
  · have hfits : fitsLen s = false := by
      rw [← Bool.not_eq_true, fitsLen_iff_capacityBytes]
      omega
    have hcheck : embedCheck s = some .capacity :=
      embedCheck_capacity.2 ⟨hdim, by omega, hfits⟩
    rw [hcheck] at herr hbusy
    exact ⟨⟨t, ht, htfits.trans hfits⟩, u, hu, herr, hbusy, hmem⟩

end Sys2Proof.Machine
end

section
/-! PROOF. The statements on the bit packer (43_bitpacker.md): the index formula of bits, the bits that bytes keeps, and
the inverse law, from which the sum formula of bytes follows bit by bit. -/

namespace Sys2Proof.Machine

/-! ## From bytes to bits (R251) -/

theorem bits_length (s : List Byte) : (bits s).length = 8 * s.length := by
  induction s with
  | nil => rfl
  | cons b rest ih =>
    rw [bits_cons, List.length_append, byteBits_length, ih, List.length_cons, Nat.mul_succ, Nat.add_comm]

/-- Past the last byte both sides are `none`. -/
theorem bits_getElem? (s : List Byte) (k : Nat) : (bits s)[k]? = (s[k / 8]?).map fun b => b.getLsbD (7 - k % 8) := by
  induction s generalizing k with
  | nil => rfl
  | cons b rest ih =>
    rw [bits_cons]
    obtain hk | hk := Nat.lt_or_ge k 8
    · rw [List.getElem?_append_left hk, byteBits_getElem b k hk, Nat.div_eq_of_lt hk, Nat.mod_eq_of_lt hk]
      rfl
    · obtain ⟨j, rfl⟩ := Nat.exists_eq_add_of_le hk
      rw [List.getElem?_append_right hk, byteBits_length, Nat.add_sub_cancel_left, ih, Nat.add_div_left j (by decide),
        Nat.add_mod_left, List.getElem?_cons_succ]

/-- Settles O25, by the two lemmas above. -/
theorem bitsIndexing : Obligations.BitsIndexing := by
  unfold Obligations.BitsIndexing
  exact fun s => ⟨bits_length s, fun k _ => bits_getElem? s k⟩

/-! ## The inverse law (R253) -/

theorem bytes_cons_eight (b0 b1 b2 b3 b4 b5 b6 b7 : Bool) (rest : List Bool) :
    bytes (b0 :: b1 :: b2 :: b3 :: b4 :: b5 :: b6 :: b7 :: rest) =
      byteOfBits b0 b1 b2 b3 b4 b5 b6 b7 :: bytes rest := rfl

theorem bytes_byteBits_append (x : Byte) (rest : List Bool) : bytes (byteBits x ++ rest) = x :: bytes rest := by
  conv_rhs => rw [← byteOfBits_byteBits x]
  exact bytes_cons_eight _ _ _ _ _ _ _ _ rest

theorem bytes_bits (s : List Byte) : bytes (bits s) = s := by
  induction s with
  | nil => rfl
  | cons b rest ih =>
    rw [bits_cons, bytes_byteBits_append, ih]

theorem bits_bytes_of_lt {b : List Bool} (h : b.length < 8) : bits (bytes b) = b.take (8 * (b.length / 8)) := by
  rw [bytes_short b h, Nat.div_eq_of_lt h]
  rfl

/-- The whole bytes of b keep all their bits; the remainder is lost (R252). -/
theorem bits_bytes : ∀ b : List Bool, bits (bytes b) = b.take (8 * (b.length / 8))
  | b0 :: b1 :: b2 :: b3 :: b4 :: b5 :: b6 :: b7 :: rest => by
    have hlen : (b0 :: b1 :: b2 :: b3 :: b4 :: b5 :: b6 :: b7 :: rest).length / 8 = rest.length / 8 + 1 :=
      Nat.add_div_right rest.length (by decide : 0 < 8)
    rw [bytes_cons_eight, bits_cons, byteBits_byteOfBits, bits_bytes rest, hlen]
    rfl
  | [] | [_] | [_, _] | [_, _, _] | [_, _, _, _] | [_, _, _, _, _] | [_, _, _, _, _, _] | [_, _, _, _, _, _, _] =>
    bits_bytes_of_lt (by simp)

/-- Settles O27: a multiple of 8 leaves no remainder. -/
theorem packerInverse : Obligations.PackerInverse := by
  unfold Obligations.PackerInverse
  refine ⟨bytes_bits, fun b h => ?_⟩
  rw [bits_bytes, Nat.mul_div_cancel' h, List.take_length]

/-! ## From bits to bytes (R252) -/

theorem bytes_length (b : List Bool) : (bytes b).length = b.length / 8 := by
  have h := congrArg List.length (bits_bytes b)
  rw [bits_length, List.length_take] at h
  omega

/-- Bit `7 - i` of byte `j` is the bit of b at `8 * j + i`. -/
theorem bytes_getLsbD (b : List Bool) {j i : Nat} (hj : j < b.length / 8) (hi : i < 8) :
    ((bytes b).getD j 0).getLsbD (7 - i) = b.getD (8 * j + i) false := by
  have h := bits_getElem? (bytes b) (8 * j + i)
  have hdiv : (8 * j + i) / 8 = j := by omega
  have hmod : (8 * j + i) % 8 = i := by omega
  have hjb : j < (bytes b).length := (bytes_length b).symm ▸ hj
  rw [bits_bytes, List.getElem?_take_of_lt (by omega), hdiv, hmod, List.getElem?_eq_getElem hjb, Option.map_some] at h
  rw [List.getD_eq_getElem _ _ hjb, List.getD_eq_getElem?_getD, h, Option.getD_some]

/-- A byte is the sum of its bits' weights, bit 7 first. -/
theorem toNat_eq_sum_getLsbD (x : Byte) :
    x.toNat = ((List.range 8).map fun i => (x.getLsbD (7 - i)).toNat * 2 ^ (7 - i)).sum := by
  conv_lhs => rw [← byteOfBits_byteBits x, byteOfBits_toNat]
  simp [List.range_succ, Nat.add_assoc]

theorem bytes_getD_toNat (b : List Bool) {j : Nat} (hj : j < b.length / 8) :
    ((bytes b).getD j 0).toNat = ((List.range 8).map fun i => (b.getD (8 * j + i) false).toNat * 2 ^ (7 - i)).sum := by
  rw [toNat_eq_sum_getLsbD]
  refine congrArg List.sum (List.map_congr_left fun i hi => ?_)
  rw [bytes_getLsbD b hj (List.mem_range.1 hi)]

/-- Settles O26: the bits of the whole bytes are `bits (bytes b)`, and packing them again gives `bytes b`. -/
theorem bytesOfBits : Obligations.BytesOfBits := by
  unfold Obligations.BytesOfBits
  intro b
  refine ⟨bytes_length b, fun _ hj => bytes_getD_toNat b hj, ?_⟩
  rw [← bits_bytes, bytes_bits]

end Sys2Proof.Machine
end

section
/-! PROOF. The statement on the order of the start checks (60_exceptions.md R335): how each command's start step ends, and
the code it reports. -/

namespace Sys2Proof.Machine

/-! ## No check reports NONE (R331, R335) -/

/-- One check in front of others: the list of checks reports NONE as a failure only if one of its checks does. -/
theorem ite_some_ne_none {p : Prop} [Decidable p] {c : ErrCode} {rest : Option ErrCode} (hc : c ≠ .none)
    (hrest : rest ≠ some .none) : (if p then some c else rest) ≠ some .none := by
  split
  · exact fun h => hc (Option.some.inj h)
  · exact hrest

theorem embedCheck_ne_none (s : State) : embedCheck s ≠ some .none :=
  ite_some_ne_none nofun <| ite_some_ne_none nofun <| ite_some_ne_none nofun <| ite_some_ne_none nofun <|
    ite_some_ne_none nofun nofun

theorem extractCheck_ne_none (s : State) : extractCheck s ≠ some .none :=
  ite_some_ne_none nofun <| ite_some_ne_none nofun <| ite_some_ne_none nofun <| ite_some_ne_none nofun nofun

theorem aeadRegionCheck_ne_none (s : State) : aeadRegionCheck s ≠ some .none :=
  ite_some_ne_none nofun <| ite_some_ne_none nofun nofun

theorem aeadEncCheck_ne_none (s : State) : aeadEncCheck s ≠ some .none :=
  ite_some_ne_none nofun <| ite_some_ne_none nofun <| ite_some_ne_none nofun (aeadRegionCheck_ne_none s)

theorem aeadDecCheck_ne_none (s : State) : aeadDecCheck s ≠ some .none :=
  ite_some_ne_none nofun <| ite_some_ne_none nofun (aeadRegionCheck_ne_none s)

/-- CAPQ makes one check. -/
theorem capqCheck_first (s : State) :
    firstFailing (checksInOrder .capq s) = if dimIsZero s then .dim else .none := rfl

/-! ## The three ends of a start step (R178, R180, R181) -/

/-- `t` is what the start step of command `i` may leave of `s` when the first failing check has the code `e`: the command
failed where there is one, and else it executes or, being CAPQ, is complete. -/
def StartOutcome (i : Instr) (e : ErrCode) (s t : State) : Prop :=
  t.error = e ∧ t.mem = s.mem ∧
    (t.status.err = true ↔ t.error ≠ .none) ∧
    (t.status.busy = true ↔ t.error = .none ∧ i ≠ .capq) ∧
    (t.status.done = true ↔ t.error = .none ∧ i = .capq)

/-- What a start step has made of `s` when its checks run: nothing but the clearing of R176 reaches these fields. -/
structure Cleared (s u : State) : Prop where
  error : u.error = .none
  mem : u.mem = s.mem
  err : u.status.err = false
  done : u.status.done = false

theorem StartOutcome.of_fail {i : Instr} {c : ErrCode} {s u : State} (hu : Cleared s u) (hc : c ≠ .none) :
    StartOutcome i c s (fail c u) := by
  simp [StartOutcome, fail, hu.mem, hu.done, hc]

theorem StartOutcome.of_begin {i : Instr} {s u : State} (hu : Cleared s u) (hi : i ≠ .capq) :
    StartOutcome i .none s (beginCommand i u) := by
  simp [StartOutcome, hu.error, hu.mem, hu.err, hu.done, hi]

theorem StartOutcome.of_complete {s u : State} (hu : Cleared s u) : StartOutcome .capq .none s (complete u) := by
  simp [StartOutcome, hu.error, hu.mem, hu.err]

/-! ## Each command's start step (R176, R177) -/

theorem cleared_clearCommand (s : State) : Cleared s (clearCommand s) := ⟨rfl, rfl, rfl, rfl⟩

theorem Cleared.writeCapacity {s u : State} (hu : Cleared s u) : Cleared s (writeCapacity u) := by
  obtain ⟨herror, hmem, herr, hdone⟩ := hu
  constructor <;> simpa

theorem Cleared.writeFits {s u : State} (hu : Cleared s u) : Cleared s (writeFits u) :=
  ⟨hu.error, hu.mem, hu.err, hu.done⟩

theorem capqStart_outcome (s : State) :
    StartOutcome .capq (firstFailing (checksInOrder .capq s)) s (capqStart s) := by
  have hu := (cleared_clearCommand s).writeCapacity.writeFits
  rw [capqCheck_first]
  cases hd : dimIsZero s with
  | true => rw [capqStart_zero hd]; exact .of_fail hu nofun
  | false => rw [capqStart_ok hd]; exact .of_complete hu

theorem embedStart_outcome (s : State) :
    StartOutcome .embed (firstFailing (checksInOrder .embed s)) s (embedStart s) := by
  have hu := (cleared_clearCommand s).writeCapacity.writeFits
  have hne := embedCheck_ne_none s
  rw [← embedCheck_first, embedStart, embedCheck_start]
  cases hc : embedCheck s with
  | some c => exact .of_fail hu fun h => hne (h ▸ hc)
  | none => exact .of_begin hu nofun

theorem extractStart_outcome (s : State) :
    StartOutcome .extract (firstFailing (checksInOrder .extract s)) s (extractStart s) := by
  have hu := (cleared_clearCommand s).writeCapacity
  have hne := extractCheck_ne_none s
  rw [← extractCheck_first, extractStart, extractCheck_start]
  cases hc : extractCheck s with
  | some c => exact .of_fail hu fun h => hne (h ▸ hc)
  | none => exact .of_begin hu nofun

theorem aeadEncStart_outcome (s : State) :
    StartOutcome .aeadEnc (firstFailing (checksInOrder .aeadEnc s)) s (aeadEncStart s) := by
  have hu := cleared_clearCommand s
  have hne := aeadEncCheck_ne_none s
  rw [← aeadEncCheck_first, aeadEncStart, aeadEncCheck_start]
  cases hc : aeadEncCheck s with
  | some c => exact .of_fail hu fun h => hne (h ▸ hc)
  | none => exact .of_begin ⟨hu.error, hu.mem, hu.err, hu.done⟩ nofun

theorem aeadDecStart_outcome (s : State) :
    StartOutcome .aeadDec (firstFailing (checksInOrder .aeadDec s)) s (aeadDecStart s) := by
  have hu := cleared_clearCommand s
  have hne := aeadDecCheck_ne_none s
  rw [← aeadDecCheck_first, aeadDecStart, aeadDecCheck_start]
  cases hc : aeadDecCheck s with
  | some c => exact .of_fail hu fun h => hne (h ▸ hc)
  | none => exact .of_begin ⟨hu.error, hu.mem, hu.err, hu.done⟩ nofun

/-- The start step of every command, in every idle state. -/
theorem exec_start_outcome (i : Instr) {s : State} (hb : s.status.busy = false) :
    ∃ t, exec i s = .next t ∧ StartOutcome i (firstFailing (checksInOrder i s)) s t := by
  cases i with
  | capq => exact ⟨capqStart s, by simp [exec, execCapq, hb], capqStart_outcome s⟩
  | embed => exact ⟨embedStart s, by simp [exec, execEmbed, hb], embedStart_outcome s⟩
  | extract => exact ⟨extractStart s, by simp [exec, execExtract, hb], extractStart_outcome s⟩
  | aeadEnc => exact ⟨aeadEncStart s, by simp [exec, execAeadEnc, hb], aeadEncStart_outcome s⟩
  | aeadDec => exact ⟨aeadDecStart s, by simp [exec, execAeadDec, hb], aeadDecStart_outcome s⟩

/-! ## Decode comes first (R177) -/

@[simp] theorem afterExec_error (s : State) : (afterExec s).error = s.error := by
  obtain ⟨h, m, r, n, he⟩ := afterExec_shape s
  rw [he]

theorem legalWord_of_rejected {c : Config} {v : Word} {e : Reject} (h : decode v = .error e) :
    legalWord c v = false := by
  rw [legalWord, h]

/-- Settles O28: each command's check is the first failing one of its list and its code is not NONE, so the start step
fails with it or, with no failing check, begins or completes; a rejected word runs no check. -/
theorem startChecksInOrder : Obligations.StartChecksInOrder := by
  unfold Obligations.StartChecksInOrder
  refine ⟨fun i s hb => exec_start_outcome i hb, fun s v e rest hin hr hb hd => ?_, rfl⟩
  have hissue : step s = .next (afterExec (illegalCommand (respond .writeOkay rest s))) :=
    (step_issue hin hr hb).trans (issue_illegal hb (legalWord_of_rejected hd))
  exact ⟨_, hissue, afterExec_error _⟩

end Sys2Proof.Machine
end

section
/-! PROOF. The statement on the registers when reset asserts (70_reset_and_hazards.md R371): what each register reads at its
reset value, and the memory that an idle block leaves behind. -/

namespace Sys2Proof.Machine

/-! ## The registers at their reset values (R371) -/

@[simp] theorem statusWord_zero : statusWord Status.zero = 0 := by decide

@[simp] theorem errorWord_none : errorWord .none = 0 := by decide

@[simp] theorem intWord_zero : intWord IntBits.zero = 0 := by decide

/-- All but ID, VERSION and CFG read 0 at reset. -/
theorem readReg_resetOf {r : Reg} (c : Config) (hid : r ≠ .id) (hversion : r ≠ .version) (hcfg : r ≠ .cfg) :
    readReg r (State.resetOf c) = 0 := by
  cases r with
  | id => exact absurd rfl hid
  | version => exact absurd rfl hversion
  | cfg => exact absurd rfl hcfg
  | status => exact statusWord_zero
  | error => exact errorWord_none
  | intEn | intStatus => exact intWord_zero
  | capBitsHi | progress | progCount | bitsDoneHi => simp [readReg, State.resetOf]
  | iv i => exact Vector.getElem_replicate i.isLt
  | tag i => exact Vector.getElem_replicate i.isLt
  | _ => rfl

/-- What asserting reset keeps of the state, or leaves open, is in no register but CFG. -/
theorem readReg_assertReset (r : Reg) (s : State) : readReg r (assertReset s) = readReg r (State.resetOf s.cfg) := by
  cases r <;> rfl

/-! ## The step and its memory (R371, R372) -/

theorem step_resetAssert {s : State} {rest : List HostEvent} (h : s.inbox = .resetAssert :: rest) :
    step s = .next (assertReset { clearOutputs s with inbox := rest }) := step_event h

/-- Idle, no write of the engine is in flight; with no racing store nothing is left to land. -/
theorem memoryAtReset_idle {s : State} (hb : s.status.busy = false) (hr : s.racing = []) : memoryAtReset s = s.mem := by
  simp [memoryAtReset, hb, hr, landStores]

/-- Settles O19: whatever the state, the registers after the step are those of `State.resetOf`. (The model has a function
`resetRegisters`, hence the longer name.) -/
theorem resetRegisters_holds : Obligations.ResetRegisters := by
  unfold Obligations.ResetRegisters
  intro s rest hin
  refine ⟨_, step_resetAssert hin, rfl, rfl, rfl, fun r hid hversion hcfg => ?_, rfl, rfl, rfl, rfl, rfl,
    fun hb hr => memoryAtReset_idle hb hr⟩
  rw [readReg_assertReset, readReg_resetOf _ hid hversion hcfg]

end Sys2Proof.Machine
end

section
/-! PROOF. The invariant goes through every step (10_state.md, 40_host_interface.md, 70_reset_and_hazards.md): what a step
can be, what each kind of turn does to the invariant, and that no turn stops. -/

namespace Sys2Proof.Machine

/-! ## What a step can be (R16) -/

/-- The turns that take `s`, its event off the inbox, to `t`: one of the engine, one access, the two in either order, or
one action of the platform. -/
inductive Turn (s t : State) : Prop
  | engine (h : engineTurn s = .next t)
  | access (a : PortAccess) (h : portTurn a s = .next t)
  | accessFirst (a : PortAccess) (u : State) (hb : s.status.busy = true) (hu : portTurn a s = .next u)
      (ht : engineTurn u = .next t)
  | engineFirst (a : PortAccess) (u : State) (hb : s.status.busy = true) (hu : engineTurn s = .next u)
      (ht : portTurn a u = .next t)
  | store (a : Word) (v : Byte) (h : t = hostStore a v s)
  | responder (ws : List BusWindow) (h : t = { s with windows := ws })
  | resetAssert (h : t = assertReset s)
  | resetRelease (h : t = releaseReset s)

theorem turn_of_coincideTurn {a : PortAccess} {o : Order} {s t : State} (h : coincideTurn a o s = .next t) :
    Turn s t := by
  cases hb : s.status.busy with
  | false =>
    rw [coincideTurn_idle hb] at h
    exact .access a h
  | true =>
    by_cases hfirst : o = .before ∨ accessClearsInt a = true
    · rw [coincideTurn_before hb hfirst] at h
      obtain ⟨u, hu, ht⟩ := bindNext_next h
      exact .accessFirst a u hb hu ht
    · rw [not_or, Bool.not_eq_true] at hfirst
      obtain ⟨ho, hclears⟩ := hfirst
      cases o with
      | before => exact absurd rfl ho
      | after =>
        rw [coincideTurn_after hb hclears] at h
        obtain ⟨u, hu, ht⟩ := bindNext_next h
        exact .engineFirst a u hb hu ht

/-- `wait` puts itself back on the inbox while a command executes. -/
theorem turn_of_waitTurn {s t : State} (h : waitTurn s = .next t) : ∃ rest, Turn { s with inbox := rest } t := by
  cases hb : s.status.busy with
  | false =>
    rw [waitTurn_idle hb] at h
    exact ⟨s.inbox, .access _ h⟩
  | true =>
    rw [waitTurn_busy hb] at h
    exact ⟨_, turn_of_coincideTurn h⟩

/-- Every step that answers a next state is one of the turns, on the state whose outputs have ended. -/
theorem turn_of_step {s t : State} (h : step s = .next t) :
    ∃ rest, Turn { clearOutputs s with inbox := rest } t := by
  cases hin : s.inbox with
  | nil =>
    rw [step_quiet hin] at h
    exact ⟨s.inbox, .engine h⟩
  | cons e rest =>
    rw [step_event hin] at h
    cases e with
    | engine => exact ⟨rest, .engine h⟩
    | access a => exact ⟨rest, .access a h⟩
    | coincide a o => exact ⟨rest, turn_of_coincideTurn h⟩
    | wait => exact turn_of_waitTurn (s := { clearOutputs s with inbox := rest }) h
    | store a v => cases h; exact ⟨rest, .store a v rfl⟩
    | responder ws => cases h; exact ⟨rest, .responder ws rfl⟩
    | resetAssert => cases h; exact ⟨rest, .resetAssert rfl⟩
    | resetRelease => cases h; exact ⟨rest, .resetRelease rfl⟩

/-! ## The engine's turn -/

/-- A command's step, with the open values settled, keeps the invariant. -/
theorem Inv.exec {i : Instr} {s t : State} (hi : Inv s) (hr : s.rstN = true) (hop : s.status.busy = true → i = s.hid.op)
    (h : mapNext Machine.afterExec (exec i s) = .next t) : Inv t := by
  obtain ⟨u, hu, rfl⟩ := mapNext_next h
  exact (exec_unsettled hi hr hop hu).afterExec

theorem Inv.engineTurn {s t : State} (hi : Inv s) (h : engineTurn s = .next t) : Inv t := by
  rw [Machine.engineTurn] at h
  split at h
  case isTrue hlive =>
    rw [Bool.and_eq_true] at hlive
    exact hi.exec hlive.1 (fun _ => rfl) h
  case isFalse => cases h; exact hi

theorem engineTurn_next {s : State} (hi : Inv s) : ∃ t, engineTurn s = .next t := by
  rw [engineTurn]
  split
  · obtain ⟨t, ht⟩ := exec_next hi fun _ => rfl
    exact ⟨afterExec t, by rw [ht]; rfl⟩
  · exact ⟨s, rfl⟩

/-! ## Register writes -/

/-- The fields that the invariant reads are the same in `s` and `t`, but for those of an executing command. -/
structure SameRecord (s t : State) : Prop where
  busy      : t.status.busy = s.status.busy
  done      : t.status.done = s.status.done
  err       : t.status.err = s.status.err
  error     : t.error = s.error
  errAddr   : t.errAddr = s.errAddr
  progress  : t.progress = s.progress
  progCount : t.progCount = s.progCount
  capBits   : t.capBits = s.capBits
  capBytes  : t.capBytes = s.capBytes
  mem       : t.mem = s.mem
  racing    : t.racing = s.racing
  rstN      : t.rstN = s.rstN

theorem SameRecord.refl (s : State) : SameRecord s s :=
  ⟨rfl, rfl, rfl, rfl, rfl, rfl, rfl, rfl, rfl, rfl, rfl, rfl⟩

theorem SameRecord.inv {s t : State} (k : SameRecord s t) (hi : Inv s) (hr : s.rstN = true)
    (hrun : s.status.busy = true → SameRun s t) : Inv t where
  memory := by rw [k.mem]; exact hi.memory
  oneEnd := by rw [k.done, k.err]; exact hi.oneEnd
  busyFlags := by rw [k.busy, k.done, k.err]; exact hi.busyFlags
  errorCode := by rw [k.error, k.err]; exact hi.errorCode
  errAddr := by rw [k.errAddr, k.error]; exact hi.errAddr
  progress := by rw [k.progress]; exact hi.progress
  progCount := by rw [k.progCount]; exact hi.progCount
  capBytes := by rw [k.capBytes, k.capBits]; exact hi.capBytes
  racing := by rw [k.busy, k.racing]; exact hi.racing
  raceAddr := by rw [k.racing]; exact hi.raceAddr
  reset := by rw [k.rstN, hr]; nofun
  running := by
    rw [k.busy]
    exact fun hb => (hi.running hb).congr (hrun hb)

theorem sameRun_around (s : State) (st : Status) (hf : st.fits = s.status.fits) (hv : st.ivu = s.status.ivu)
    (en pending : IntBits) : SameRun s { s with status := st, intEn := en, intStatus := pending } :=
  ⟨rfl, rfl, rfl, rfl, rfl, rfl, rfl, rfl, rfl, rfl, rfl, rfl, rfl, rfl, rfl, rfl, hf, hv⟩

theorem sameRecord_setOvr (s : State) : SameRecord s (setOvr s) :=
  ⟨rfl, rfl, rfl, rfl, rfl, rfl, rfl, rfl, rfl, rfl, rfl, rfl⟩

theorem sameRun_setOvr (s : State) : SameRun s (setOvr s) :=
  sameRun_around s { s.status with ovr := true } rfl rfl s.intEn s.intStatus

theorem sameRecord_writeReg (r : Reg) (v : Word) (s : State) : SameRecord s (writeReg r v s) := by
  cases r with
  | status =>
    rw [writeReg]
    split <;> exact ⟨rfl, rfl, rfl, rfl, rfl, rfl, rfl, rfl, rfl, rfl, rfl, rfl⟩
  | _ => exact ⟨rfl, rfl, rfl, rfl, rfl, rfl, rfl, rfl, rfl, rfl, rfl, rfl⟩

/-- A register that is not locked holds nothing of the executing command (R142, R174). -/
theorem sameRun_writeReg {r : Reg} (h : locked r = false) (v : Word) (s : State) : SameRun s (writeReg r v s) := by
  cases r with
  | status =>
    rw [writeReg]
    split
    · exact sameRun_around s { s.status with ovr := false } rfl rfl s.intEn s.intStatus
    · exact sameRun_around s s.status rfl rfl s.intEn s.intStatus
  | dim | imgBase | srcBase | dstBase | len | key | iv | tag => cases h
  | _ => exact sameRun_around s _ rfl rfl _ _

theorem sameRecord_writeOffset (o : BitVec 8) (v : Word) (s : State) : SameRecord s (writeOffset o v s) := by
  rw [writeOffset]
  cases regAt o with
  | none => exact SameRecord.refl s
  | some r =>
    dsimp only
    split
    · exact sameRecord_setOvr s
    · exact sameRecord_writeReg r v s

/-- While a command executes, a write is dropped or is to a register that holds nothing of it. -/
theorem sameRun_writeOffset {s : State} (hb : s.status.busy = true) (o : BitVec 8) (v : Word) :
    SameRun s (writeOffset o v s) := by
  rw [writeOffset]
  cases regAt o with
  | none => exact sameRun_around s s.status rfl rfl s.intEn s.intStatus
  | some r =>
    dsimp only
    split
    case isTrue => exact sameRun_setOvr s
    case isFalse hdrop =>
      refine sameRun_writeReg ?_ v s
      rw [hb, Bool.true_and, Bool.not_eq_true, Bool.or_eq_false_iff] at hdrop
      exact hdrop.1

theorem Inv.writeOffset {s : State} (hi : Inv s) (hr : s.rstN = true) (o : BitVec 8) (v : Word) :
    Inv (writeOffset o v s) :=
  (sameRecord_writeOffset o v s).inv hi hr fun hb => sameRun_writeOffset hb o v

/-! ## Register-port accesses -/

theorem Inv.respond {s : State} (hi : Inv s) (r : Option PortResponse) : Inv { s with resp := r } :=
  hi.around r s.windows s.inbox s.free

/-- An illegal word ends in fail(ILLEGAL_CMD) (R179). -/
theorem unsettled_illegalCommand {s : State} (hi : Inv s) (hr : s.rstN = true) : Unsettled (illegalCommand s) :=
  unsettled_failAt nofun hi.memory rfl (Nat.zero_le _) hi.capBytes hi.raceAddr hr

theorem Inv.issue {v : Word} {s t : State} (hi : Inv s) (hr : s.rstN = true) (hb : s.status.busy = false)
    (h : issue v s = .next t) : Inv t := by
  rw [Machine.issue] at h
  split at h
  · exact hi.exec hr (fun hbusy => by rw [hb] at hbusy; cases hbusy) h
  · cases h; exact (unsettled_illegalCommand hi hr).afterExec

theorem Inv.portWrite {o : BitVec 8} {v : Word} {s t : State} (hi : Inv s) (hr : s.rstN = true)
    (h : portWrite o v s = .next t) : Inv t := by
  have hresp := hi.respond (some .writeOkay)
  rw [Machine.portWrite] at h
  split at h
  case isTrue hissue => exact hresp.issue hr hissue.2 h
  case isFalse => cases h; exact hresp.writeOffset hr o v

theorem Inv.portTurn {a : PortAccess} {s t : State} (hi : Inv s) (h : portTurn a s = .next t) : Inv t := by
  rw [portTurn.eq_def] at h
  split at h
  case isTrue => cases h; exact hi.respond _
  case isFalse hlive =>
    simp only [Bool.or_eq_true, Bool.not_eq_true', not_or, Bool.not_eq_false] at hlive
    cases a with
    | read z o => cases h; exact hi.respond _
    | write z o v => exact hi.portWrite hlive.1 h

/-! ## Host stores -/

/-- A byte of memory replaced: no register sees it. -/
theorem Inv.store {s : State} (hi : Inv s) (a : Word) (v : Byte) :
    Inv { s with mem := memWrite s.mem a.toNat v } where
  memory := memWrite_wf hi.memory a.isLt v
  oneEnd := hi.oneEnd
  busyFlags := hi.busyFlags
  errorCode := hi.errorCode
  errAddr := hi.errAddr
  progress := hi.progress
  progCount := hi.progCount
  capBytes := hi.capBytes
  racing := hi.racing
  raceAddr := hi.raceAddr
  reset hr := (hi.reset hr).congr ⟨s.resp, _, s.windows, s.inbox, s.free, rfl⟩
  running hb := Running.congr (s := s)
    ⟨rfl, rfl, rfl, rfl, rfl, rfl, rfl, rfl, rfl, rfl, rfl, rfl, rfl, rfl, rfl, rfl, rfl, rfl⟩ (hi.running hb)

/-- A store set aside while a command executes. -/
theorem Inv.race {s : State} (hi : Inv s) (hb : s.status.busy = true) (a : Word) (v : Byte) :
    Inv { s with racing := s.racing ++ [(a.toNat, v)] } where
  memory := hi.memory
  oneEnd := hi.oneEnd
  busyFlags := hi.busyFlags
  errorCode := hi.errorCode
  errAddr := hi.errAddr
  progress := hi.progress
  progCount := hi.progCount
  capBytes := hi.capBytes
  racing hidle := by cases hb.symm.trans hidle
  raceAddr c hc := by
    obtain hc | hc := List.mem_append.1 hc
    · exact hi.raceAddr c hc
    · rw [List.mem_singleton.1 hc]; exact a.isLt
  reset hr := by cases (hi.outOfReset hb).symm.trans hr
  running hb := Running.congr (s := s)
    ⟨rfl, rfl, rfl, rfl, rfl, rfl, rfl, rfl, rfl, rfl, rfl, rfl, rfl, rfl, rfl, rfl, rfl, rfl⟩ (hi.running hb)

theorem Inv.hostStore {s : State} (hi : Inv s) (a : Word) (v : Byte) : Inv (hostStore a v s) := by
  rw [Machine.hostStore]
  split
  case isTrue hrace =>
    rw [Bool.and_eq_true] at hrace
    exact hi.race hrace.1 a v
  case isFalse => exact hi.store a v

/-! ## Reset -/

/-- Every register at its reset value, with a memory in canonical form. -/
theorem inv_at_reset {s : State} (h : AtReset s) (hm : Memory.wf s.mem = true) : Inv s := by
  have hs := h
  unfold AtReset at hs
  have hidle : s.status.busy = false := by rw [hs]; rfl
  have hrace : s.racing = [] := by rw [hs]; rfl
  refine ⟨hm, ?_, ?_, ?_, ?_, ?_, ?_, ?_, fun _ => hrace, ?_, fun _ => h, ?_⟩
  · rw [hs]; nofun
  · rw [hidle]; nofun
  · rw [hs]; simp [State.resetOf, Status.zero]
  · rw [hs]; exact fun hne => absurd rfl hne
  · rw [hs]; exact Nat.zero_le _
  · rw [hs]; exact Nat.zero_le _
  · rw [hs]; simp [State.resetOf]
  · rw [hrace]; nofun
  · rw [hidle]; nofun

theorem memoryAtReset_wf {s : State} (hi : Inv s) : Memory.wf (memoryAtReset s) = true := by
  refine landStores_wf _ _ _ _ _ hi.raceAddr ?_
  split
  case isTrue hflight =>
    rw [Bool.and_eq_true] at hflight
    obtain ⟨t, ht⟩ := exec_next hi fun _ => rfl
    rw [ht]
    exact (exec_unsettled hi (hi.outOfReset hflight.1) (fun _ => rfl) ht).memory
  case isFalse => exact hi.memory

theorem Inv.assertReset {s : State} (hi : Inv s) : Inv (assertReset s) := inv_at_reset rfl (memoryAtReset_wf hi)

theorem Inv.releaseReset {s : State} (hi : Inv s) : Inv (releaseReset s) := by
  rw [Machine.releaseReset]
  split
  · exact hi
  · exact inv_at_reset rfl hi.memory

/-! ## The statements -/

/-- The host and the platform can end the outputs and change what is to come without touching the invariant. -/
theorem Inv.takeEvent {s : State} (hi : Inv s) (rest : List HostEvent) : Inv { Machine.clearOutputs s with inbox := rest } :=
  hi.clearOutputs.around none s.windows rest s.free

theorem Inv.turn {s t : State} (hi : Inv s) (h : Turn s t) : Inv t := by
  cases h with
  | engine h => exact hi.engineTurn h
  | access a h => exact hi.portTurn h
  | accessFirst a u hb hu ht => exact (hi.portTurn hu).engineTurn ht
  | engineFirst a u hb hu ht => exact (hi.engineTurn hu).portTurn ht
  | store a v h => rw [h]; exact hi.hostStore a v
  | responder ws h => rw [h]; exact hi.around s.resp ws s.inbox s.free
  | resetAssert h => rw [h]; exact hi.assertReset
  | resetRelease h => rw [h]; exact hi.releaseReset

theorem Inv.step {s t : State} (hi : Inv s) (h : step s = .next t) : Inv t := by
  obtain ⟨rest, hturn⟩ := turn_of_step h
  exact (hi.takeEvent rest).turn hturn

/-- Settles O56: each kind of turn keeps the invariant, a command's step by the laws of its execution. -/
theorem stepKeepsInvariant : Obligations.StepKeepsInvariant := by
  unfold Obligations.StepKeepsInvariant
  exact fun s t hi h => hi.step h

/-- Settles O55: reset is a state at its reset values, with an empty memory. -/
theorem resetHasInvariant : Obligations.ResetHasInvariant := by
  unfold Obligations.ResetHasInvariant
  exact inv_at_reset rfl rfl

theorem coincideTurn_next {s : State} (hi : Inv s) (a : PortAccess) (o : Order) :
    ∃ t, coincideTurn a o s = .next t := by
  cases hb : s.status.busy with
  | false => rw [coincideTurn_idle hb]; exact portTurn_next a s
  | true =>
    rw [coincideTurn.eq_def, if_pos hb]
    obtain ⟨u, hu⟩ := portTurn_next a s
    obtain ⟨w, hw⟩ := engineTurn_next hi
    rw [hu, hw]
    split
    · exact engineTurn_next (hi.portTurn hu)
    · exact engineTurn_next (hi.portTurn hu)
    · exact portTurn_next a w

theorem waitTurn_next {s : State} (hi : Inv s) : ∃ t, waitTurn s = .next t := by
  cases hb : s.status.busy with
  | false => rw [waitTurn_idle hb]; exact portTurn_next _ s
  | true =>
    rw [waitTurn_busy hb]
    exact coincideTurn_next (hi.around s.resp s.windows (.wait :: s.inbox) s.free) _ _

/-- Settles O57: the engine's turn does not stop where the invariant holds, and no access or platform action stops
anywhere. -/
theorem stepNeverStops : Obligations.StepNeverStops := by
  unfold Obligations.StepNeverStops
  intro s hi
  cases hin : s.inbox with
  | nil =>
    rw [step_quiet hin]
    exact engineTurn_next hi.clearOutputs
  | cons e rest =>
    have hi0 := hi.takeEvent rest
    rw [step_event hin]
    cases e with
    | engine => exact engineTurn_next hi0
    | access a => exact portTurn_next a _
    | coincide a o => exact coincideTurn_next hi0 a o
    | wait => exact waitTurn_next hi0
    | store a v => exact ⟨_, rfl⟩
    | responder ws => exact ⟨_, rfl⟩
    | resetAssert => exact ⟨_, rfl⟩
    | resetRelease => exact ⟨_, rfl⟩

end Sys2Proof.Machine
end

section
/-! PROOF. The statements on command words (30_encoding.md), on the issue of a command, and on the register accesses that
the port carries out (10_state.md, 40_host_interface.md R171, R172). -/

namespace Sys2Proof.Machine

/-! ## Command words (R140 to R144) -/

theorem decode_encode (i : Instr) : decode (encode i) = .ok i := by cases i <;> rfl

theorem encode_toNat (i : Instr) : (encode i).toNat = (opcode i).toNat := by cases i <;> rfl

theorem eq_encode_of_decode_ok {v : Word} {i : Instr} (h : decode v = .ok i) : v = encode i :=
  BitVec.eq_of_toNat_eq ((toNat_of_decode_ok h).trans (encode_toNat i).symm)

theorem decode_ok_iff {v : Word} {i : Instr} : decode v = .ok i ↔ v.toNat = (opcode i).toNat := by
  refine ⟨toNat_of_decode_ok, fun h => ?_⟩
  have hv : v = encode i := BitVec.eq_of_toNat_eq (h.trans (encode_toNat i).symm)
  rw [hv, decode_encode]

theorem legalWord_iff {c : Config} {v : Word} :
    legalWord c v = true ↔ ∃ i, v.toNat = (opcode i).toNat ∧ i.wellFormed c = true := by
  simp only [← decode_ok_iff, legalWord]
  cases decode v with
  | ok i => simp
  | error e => simp

/-- Settles O1. -/
theorem commandWordsDecode : Obligations.CommandWordsDecode := by
  unfold Obligations.CommandWordsDecode
  decide

/-- Settles O2: a decoded word is, as a number, the OP of its command, and so is the command's own word. -/
theorem decodeInvertsEncode : Obligations.DecodeInvertsEncode := by
  unfold Obligations.DecodeInvertsEncode
  exact ⟨decode_encode, fun _ _ => eq_encode_of_decode_ok⟩

/-- Settles O3: the legal words are the OPs of the commands that are present. -/
theorem legalWordsAreTheMap : Obligations.LegalWordsAreTheMap := by
  unfold Obligations.LegalWordsAreTheMap
  intro c v
  simp only [legalWord_iff, List.mem_cons, List.not_mem_nil, or_false]
  constructor
  · rintro ⟨i, hv, hwf⟩
    cases i with
    | capq | embed | extract => exact ⟨by rw [hv]; rfl, .inl (by rw [hv]; decide)⟩
    | aeadEnc | aeadDec => exact ⟨by rw [hv]; rfl, .inr ⟨by rw [hv]; decide, hwf⟩⟩
  · rintro ⟨hrsv, (h | h | h) | ⟨h | h, hc⟩⟩
    · exact ⟨.capq, show v.toNat = 1 by omega, rfl⟩
    · exact ⟨.embed, show v.toNat = 2 by omega, rfl⟩
    · exact ⟨.extract, show v.toNat = 3 by omega, rfl⟩
    · exact ⟨.aeadEnc, show v.toNat = 0x10 by omega, hc⟩
    · exact ⟨.aeadDec, show v.toNat = 0x11 by omega, hc⟩

/-! ## The issue of a command (R172, R176) -/

theorem issue_ok {v : Word} {i : Instr} (h : decode v = .ok i) (s : State) :
    issue v s = mapNext afterExec (exec i s) := by
  rw [issue, h]

/-- A step that issues a command while idle. -/
theorem step_command {s : State} {v : Word} {i : Instr} {rest : List HostEvent} (h : s.inbox = cmdWrite v :: rest)
    (hr : s.rstN = true) (hb : s.status.busy = false) (hv : decode v = .ok i) :
    step s = mapNext afterExec (exec i (respond .writeOkay rest s)) :=
  (step_issue h hr hb).trans (issue_ok hv _)

/-- The word of a command, taken as a table word of 32 bits. -/
theorem withFetchWord_encode (s : State) (i : Instr) :
    s.withFetchWord 32 (encode i).toNat = placeCommand (encode i) s := by
  rw [State.withFetchWord, Nat.mod_eq_of_lt (encode i).isLt, BitVec.ofNat_toNat, BitVec.setWidth_eq]

/-- Settles O4: the next action is a CMD write while idle, given or placed. -/
theorem stepRunsIssuedCommand : Obligations.StepRunsIssuedCommand := by
  unfold Obligations.StepRunsIssuedCommand
  refine ⟨fun s v i rest hin hr hb hv => step_command hin hr hb hv, fun s i => ?_⟩
  rw [withFetchWord_encode]
  exact step_command rfl rfl rfl (decode_encode i)

/-! ## Register writes that are carried out (R172) -/

/-- The registers that ignore a write (R32, R172). -/
def readOnly (r : Reg) : Bool :=
  match r with
  | .id | .version | .cfg | .error | .errAddr => true
  | .capBitsLo | .capBitsHi | .capBytes | .progress | .progCount => true
  | .bitsDoneLo | .bitsDoneHi | .pixDone | .outLen => true
  | .cmd | .status | .intEn | .intStatus | .dim | .imgBase | .srcBase | .dstBase | .len => false
  | .key _ | .iv _ | .tag _ => false

/-- A write to a register that is not dropped. -/
theorem step_writeReg {s : State} {v : Word} {rest : List HostEvent} (r : Reg)
    (h : s.inbox = .access (.write .word (regOffset r) v) :: rest) (hr : s.rstN = true)
    (hcmd : regOffset r ≠ regOffset .cmd) (hd : (s.status.busy && (locked r || r == .cmd)) = false) :
    step s = .next (writeReg r v (respond .writeOkay rest s)) := by
  have hd' : ((respond .writeOkay rest s).status.busy && (locked r || r == .cmd)) = false := hd
  rw [step_write_plain h hr (regOffset_aligned r) (.inl hcmd), writeOffset_reg, hd']
  rfl

theorem writeOffset_readOnly {r : Reg} (h : readOnly r = true) (v : Word) (s : State) :
    writeOffset (regOffset r) v s = s := by
  rw [writeOffset_reg]
  cases r with
  | cmd | status | intEn | intStatus | dim | imgBase | srcBase | dstBase | len | key | iv | tag => cases h
  | _ => rw [if_neg (by simp [locked])]; rfl

theorem readOnly_ne_cmd {r : Reg} (h : readOnly r = true) : regOffset r ≠ regOffset .cmd := by
  cases r with
  | cmd | key | iv | tag => cases h
  | _ => decide

theorem locked_ne_cmd {r : Reg} (h : locked r = true) : regOffset r ≠ regOffset .cmd := by
  cases r with
  | key i => revert i; decide
  | iv i => revert i; decide
  | tag i => revert i; decide
  | dim | imgBase | srcBase | dstBase | len => decide
  | _ => cases h

/-- The offsets that the map lists as read-only. -/
theorem exists_readOnly : ∀ o : BitVec 8,
    o.toNat ∈ [0x00, 0x04, 0x08, 0x14, 0x18, 0x38, 0x3C, 0x40, 0x44, 0x48, 0x4C, 0x50, 0x54, 0x58] →
      ∃ r ∈ plainRegs, readOnly r = true ∧ o = regOffset r := by
  decide +kernel

/-- A write to a read-only register or to a reserved offset, busy or idle: the response alone. -/
theorem step_write_ignored {s : State} {o : BitVec 8} {v : Word} {rest : List HostEvent}
    (h : s.inbox = .access (.write .word o v) :: rest) (hr : s.rstN = true)
    (ho : o.toNat ∈ [0x00, 0x04, 0x08, 0x14, 0x18, 0x38, 0x3C, 0x40, 0x44, 0x48, 0x4C, 0x50, 0x54, 0x58] ∨
      ReservedOffset o) : step s = .next (respond .writeOkay rest s) := by
  obtain ho | ho := ho
  · obtain ⟨r, -, hro, rfl⟩ := exists_readOnly o ho
    rw [step_write_plain h hr (regOffset_aligned r) (.inl (readOnly_ne_cmd hro)), writeOffset_readOnly hro]
  · exact (reservedOffsets s o v rest hr ho).2 h

/-- The listed offsets of read-only and reserved registers. -/
theorem ignored_of_listed {o : BitVec 8}
    (h : o.toNat ∈ [0x00, 0x04, 0x08, 0x14, 0x18, 0x38, 0x3C, 0x40, 0x44, 0x48, 0x4C, 0x50, 0x54, 0x58, 0x5C, 0x8C] ∨
      (0xA0 ≤ o.toNat ∧ o.toNat % 4 = 0)) :
    o.toNat ∈ [0x00, 0x04, 0x08, 0x14, 0x18, 0x38, 0x3C, 0x40, 0x44, 0x48, 0x4C, 0x50, 0x54, 0x58] ∨
      ReservedOffset o := by
  obtain h | h := h
  · revert h; unfold ReservedOffset; revert o; decide +kernel
  · exact .inr (.inr (.inr h))

/-- Settles O10: each listed offset is a register's that is not dropped, or is ignored. -/
theorem acceptedRegisterWrites : Obligations.AcceptedRegisterWrites := by
  unfold Obligations.AcceptedRegisterWrites
  intro s o v rest hin hr t
  have write : ∀ r, regOffset r ≠ regOffset .cmd → (s.status.busy && (locked r || r == .cmd)) = false →
      o = regOffset r → step s = .next (writeReg r v t) := by
    rintro r hcmd hd rfl
    exact step_writeReg r hin hr hcmd hd
  refine ⟨write .status (by decide) (by simp [locked]), write .intEn (by decide) (by simp [locked]),
    write .intStatus (by decide) (by simp [locked]), fun ho => step_write_ignored hin hr (ignored_of_listed ho),
    fun hb => ?_⟩
  have idle : ∀ r, locked r = true → o = regOffset r → step s = .next (writeReg r v t) :=
    fun r hl => write r (locked_ne_cmd hl) (by rw [hb, Bool.false_and])
  refine ⟨idle .dim rfl, idle .imgBase rfl, idle .srcBase rfl, idle .dstBase rfl, idle .len rfl, fun i ho => ?_,
    fun i ho => ?_, fun i ho => ?_⟩
  · exact idle (.key i) rfl (BitVec.eq_of_toNat_eq (ho.trans (regOffset_key_toNat i).symm))
  · exact idle (.iv i) rfl (BitVec.eq_of_toNat_eq (ho.trans (regOffset_iv_toNat i).symm))
  · exact idle (.tag i) rfl (BitVec.eq_of_toNat_eq (ho.trans (regOffset_tag_toNat i).symm))

/-! ## Register reads (R171) -/

theorem statusWord_toNat (st : Status) :
    (statusWord st).toNat = st.busy.toNat + 2 * st.done.toNat + 4 * st.err.toNat + 8 * st.fits.toNat +
      16 * st.ovr.toNat + 32 * st.ivu.toNat := by
  obtain ⟨b, d, e, f, o, i⟩ := st
  revert b d e f o i
  decide

theorem intWord_toNat (b : IntBits) :
    (intWord b).toNat = b.done.toNat + 2 * b.err.toNat + 4 * b.prog.toNat := by
  obtain ⟨d, e, p⟩ := b
  revert d e p
  decide

theorem errorWord_toNat (e : ErrCode) : (errorWord e).toNat = (errCode e).toNat ∧ (errorWord e).toNat ≤ 11 := by
  cases e <;> decide

/-- The low word of a 34-bit counter (R48, R52). -/
theorem lowWord_toNat (x : BitVec 34) : (x.extractLsb' 0 32).toNat = x.toNat % 2 ^ 32 := by
  rw [BitVec.extractLsb'_toNat, Nat.shiftRight_zero]

theorem highWord_toNat (x : BitVec 34) : (0#30 ++ x.extractLsb' 32 2).toNat = x.toNat / 2 ^ 32 := by
  have hx := x.isLt
  rw [toNat_append_eq_add, BitVec.extractLsb'_toNat, Nat.shiftRight_eq_div_pow, BitVec.toNat_ofNat]
  omega

theorem zeroExtend_toNat {m n : Nat} (x : BitVec n) : (0#m ++ x).toNat = x.toNat := by
  rw [toNat_append_eq_add, BitVec.toNat_ofNat, Nat.zero_mod, Nat.zero_mul, Nat.zero_add]

/-- An aligned offset from 0x60 to 0x7C is that of a word of KEY. -/
theorem exists_key {o : BitVec 8} (ho : o.toNat % 4 = 0) (h : 0x60 ≤ o.toNat ∧ o.toNat ≤ 0x7C) :
    ∃ i : Fin 8, o = regOffset (.key i) := by
  refine ⟨⟨(o.toNat - 0x60) / 4, by omega⟩, BitVec.eq_of_toNat_eq ?_⟩
  rw [regOffset_key_toNat]
  dsimp only
  omega

/-- Settles O11: each offset is that of a register, whose word has the fields at their places. -/
theorem registerReads : Obligations.RegisterReads := by
  unfold Obligations.RegisterReads
  intro s o rest hin hr ho
  have read : ∀ r, o = regOffset r → readOffset o s = readReg r s := by
    rintro r rfl
    exact readOffset_reg r s
  have readNat : ∀ r, o = regOffset r → (readOffset o s).toNat = (readReg r s).toNat :=
    fun r h => congrArg BitVec.toNat (read r h)
  refine ⟨readOffset o s, step_read hin hr ho, read .cmd,
    fun h => (readNat .status h).trans (statusWord_toNat _),
    fun h => by rw [read .error h]; exact errorWord_toNat _, read .errAddr,
    fun h => (readNat .intEn h).trans (intWord_toNat _), fun h => (readNat .intStatus h).trans (intWord_toNat _),
    read .dim, read .imgBase, read .srcBase, read .dstBase, read .len,
    fun h => (readNat .capBitsLo h).trans (lowWord_toNat _), fun h => (readNat .capBitsHi h).trans (highWord_toNat _),
    read .capBytes, fun h => (readNat .progress h).trans (zeroExtend_toNat _),
    fun h => (readNat .progCount h).trans (zeroExtend_toNat _),
    fun h => (readNat .bitsDoneLo h).trans (lowWord_toNat _), fun h => (readNat .bitsDoneHi h).trans (highWord_toNat _),
    read .pixDone, read .outLen, fun h => ?_, fun i h => ?_, fun i h => ?_⟩
  · obtain ⟨i, hi⟩ := exists_key ho h
    exact read (.key i) hi
  · exact read (.iv i) (BitVec.eq_of_toNat_eq (h.trans (regOffset_iv_toNat i).symm))
  · exact read (.tag i) (BitVec.eq_of_toNat_eq (h.trans (regOffset_tag_toNat i).symm))

/-! ## The key is write-only (R55) -/

theorem readOffset_withKey (o : BitVec 8) (s : State) (k : Vector Word 8) :
    readOffset o { s with key := k } = readOffset o s := by
  unfold readOffset
  cases regAt o with
  | none => rfl
  | some r => cases r <;> rfl

/-- A read of any size and offset is its response alone, and the response does not depend on the key. -/
theorem portTurn_read (size : AccessSize) (o : BitVec 8) (s : State) : ∃ r, ∀ k : Vector Word 8,
    portTurn (.read size o) { s with key := k } = .next { s with key := k, resp := some r } := by
  by_cases h : (!s.rstN || !accessProper (.read size o)) = true
  · exact ⟨.error, fun k => by rw [portTurn.eq_def, if_pos h]⟩
  · refine ⟨.readOkay (readOffset o s), fun k => ?_⟩
    rw [portTurn.eq_def, if_neg h]
    dsimp only
    rw [readOffset_withKey]

/-- Settles O17: the step is the access alone, whose response is one and the same for every key. -/
theorem keyCannotBeReadBack : Obligations.KeyCannotBeReadBack := by
  unfold Obligations.KeyCannotBeReadBack
  intro s k size o rest hin
  obtain ⟨r, hread⟩ := portTurn_read size o { clearOutputs s with inbox := rest }
  exact ⟨r, (step_access hin).trans (hread s.key), (step_access (s := { s with key := k }) hin).trans (hread k)⟩

end Sys2Proof.Machine
end

section
/-! PROOF. The statements on the turns of the engine, the host and the platform (00_scope.md R16): which turn a step is, what
a host store does, and what the open values of a command's end can be (20_memory.md, 93_implementation_defined.md). -/

namespace Sys2Proof.Machine

/-! ## Host stores and the end of a command (R101, R120, R121) -/

theorem step_store {s : State} {a : Word} {v : Byte} {rest : List HostEvent} (h : s.inbox = .store a v :: rest) :
    step s = .next (hostStore a v { clearOutputs s with inbox := rest }) := step_event h

theorem afterExec_quiet {s : State} (h : s.racing = []) : (afterExec s).mem = s.mem ∧ (afterExec s).racing = [] := by
  cases hb : s.status.busy with
  | true => rw [afterExec_busy hb h]; exact ⟨rfl, h⟩
  | false => rw [afterExec_idle hb h]; exact ⟨rfl, h⟩

/-- While a command executes, its step leaves the model's own counter alone to change. -/
theorem afterExec_running {s : State} (h : s.status.busy = true) :
    (afterExec s).hid = s.hid ∧ (afterExec s).mem = s.mem ∧ (afterExec s).racing = s.racing := by
  rw [afterExec, if_pos h]
  split <;> exact ⟨rfl, rfl, rfl⟩

theorem afterExec_ended {s : State} (h : s.status.busy = false) : afterExec s = endOfCommand s := by
  rw [afterExec, if_neg (by simp [h])]

/-- A byte to which no store races is as the command left it. -/
theorem afterExec_memRead_frame {s : State} {a : Nat} (h : ∀ v, (a, v) ∉ s.racing) :
    memRead (afterExec s).mem a = memRead s.mem a := by
  cases hb : s.status.busy with
  | true => rw [(afterExec_running hb).2.1]
  | false =>
    rw [afterExec_ended hb]
    exact landStores_frame _ _ _ _ _ _ h

/-- Settles O6: each clause is the law of the shared operation it speaks of. -/
theorem hostStoresAndEndOfCommand : Obligations.HostStoresAndEndOfCommand := by
  unfold Obligations.HostStoresAndEndOfCommand
  refine ⟨fun s a v rest hin => ?_, readByte_cases, fun s => ⟨afterExec_shape s, afterExec_quiet, afterExec_running,
    fun hb => by rw [afterExec_ended hb]; rfl, fun a => afterExec_memRead_frame, fun hb hm hr a => ?_⟩⟩
  · rw [step_store hin]
    refine ⟨fun hb hregion => ?_, fun houtside hm => ?_⟩
    · exact congrArg Host.Outcome.next
        (hostStore_races (s := { clearOutputs s with inbox := rest }) hb (inRegions_iff.2 hregion))
    · have hmem : hostStore a v { clearOutputs s with inbox := rest } =
          { clearOutputs s with inbox := rest, mem := memWrite s.mem a.toNat v } := by
        refine hostStore_memory (houtside.imp id fun h => ?_)
        rw [← Bool.not_eq_true, inRegions_iff]
        exact h
      exact ⟨memWrite s.mem a.toNat v, congrArg Host.Outcome.next hmem, fun x => memRead_memWrite hm _ x v⟩
  · rw [afterExec_ended hb]
    refine ⟨landStores_cases _ _ hm hr 0 a, fun v earlier later hsplit hlast hwritten => ?_⟩
    rw [endOfCommand_mem, hsplit]
    refine landStores_last _ _ hlast ?_ earlier hm (fun c hc => hr c ?_) 0
    · rw [← Bool.not_eq_true, inWritten_iff]
      exact hwritten
    · rw [hsplit]; exact List.mem_append_left _ hc

/-! ## Which turn a step is (R16, R337, R348) -/

/-- The engine's turn when it is the only one of the step. -/
theorem step_engine {s : State} {rest : List HostEvent} (h : s.inbox = .engine :: rest) :
    step s = engineTurn { clearOutputs s with inbox := rest } := step_event h

theorem step_coincide {s : State} {a : PortAccess} {o : Order} {rest : List HostEvent}
    (h : s.inbox = .coincide a o :: rest) : step s = coincideTurn a o { clearOutputs s with inbox := rest } :=
  step_event h

/-- An access that counts as before the engine's step. -/
theorem step_coincide_before {s : State} {a : PortAccess} {o : Order} {rest : List HostEvent} (hb : s.status.busy = true)
    (hr : s.rstN = true) (hin : s.inbox = .coincide a o :: rest) (hfirst : o = .before ∨ accessClearsInt a = true) :
    ∃ t, step { s with inbox := .access a :: rest } = .next t ∧ step s = mapNext afterExec (exec s.hid.op t) := by
  obtain ⟨t, ht, htb, hth, htr⟩ := portTurn_busy (a := a) (s := { clearOutputs s with inbox := rest }) hb
  refine ⟨t, (step_access (s := { s with inbox := .access a :: rest }) rfl).trans ht, ?_⟩
  rw [step_coincide hin, coincideTurn_before (by exact hb) hfirst, ht]
  show engineTurn t = _
  rw [engineTurn_busy (htr.trans hr) htb, hth]
  rfl

/-- Every outcome of an engine's turn: nothing, or the step of the executing command with its open values. -/
theorem engineTurn_cases {s t : State} (h : engineTurn s = .next t) :
    t = s ∨ ∃ u, exec s.hid.op s = .next u ∧ t = afterExec u := by
  rw [engineTurn] at h
  split at h
  · exact .inr (mapNext_next h)
  · cases h; exact .inl rfl

/-- The engine neither answers the port nor takes an action off the inbox. -/
theorem engineTurn_port {s t : State} (h : engineTurn s = .next t) : t.resp = s.resp ∧ t.inbox = s.inbox := by
  obtain rfl | ⟨u, hu, rfl⟩ := engineTurn_cases h
  · exact ⟨rfl, rfl⟩
  · obtain ⟨_, _, _, _, hshape⟩ := afterExec_shape u
    rw [hshape]
    exact ⟨(exec_keeps hu).resp, (exec_keeps hu).inbox⟩

/-- An access that counts as after the engine's step; the transfers of that step stand. -/
theorem step_coincide_after {s t : State} {a : PortAccess} {rest : List HostEvent} (hb : s.status.busy = true)
    (hin : s.inbox = .coincide a .after :: rest) (hlast : accessClearsInt a = false)
    (ht : step { s with inbox := .engine :: rest } = .next t) :
    ∃ u, step { t with inbox := .access a :: rest } = .next u ∧ step s = .next { u with prog := t.prog } := by
  have hengine : engineTurn { clearOutputs s with inbox := rest } = .next t :=
    (step_engine (s := { s with inbox := .engine :: rest }) rfl).symm.trans ht
  obtain ⟨hresp, hinbox⟩ := engineTurn_port hengine
  have hcleared : { clearOutputs t with inbox := rest } = { t with prog := [] } := by
    rw [clearOutputs]
    dsimp only at hresp hinbox ⊢
    rw [hresp, hinbox]
    rfl
  obtain ⟨u, hu⟩ := portTurn_next a { t with prog := [] }
  refine ⟨u, ?_, ?_⟩
  · rw [step_access (s := { t with inbox := .access a :: rest }) rfl]
    exact (congrArg (portTurn a) hcleared).trans hu
  · calc step s = portTurn a { { t with prog := [] } with prog := t.prog } := by
          rw [step_coincide hin, coincideTurn_after (by exact hb) hlast, hengine]
          rfl
      _ = .next { u with prog := t.prog } := by rw [portTurn_withProg, hu]; rfl

theorem step_wait {s : State} {rest : List HostEvent} (h : s.inbox = .wait :: rest) :
    step s = waitTurn { clearOutputs s with inbox := rest } := step_event h

/-- Settles O5: one equation per head of the inbox, while a command executes and while the block is idle. -/
theorem stepRunsLatchedCommand : Obligations.StepRunsLatchedCommand := by
  unfold Obligations.StepRunsLatchedCommand
  refine ⟨fun s hb hr => ⟨fun hin => ?_, fun rest hin => ?_, fun a rest hin => ?_, fun a rest t hin hlast ht => ?_,
    fun rest hin => ?_⟩, fun s hb => ⟨fun hin => ?_, fun rest hin => ?_, fun a o rest hin => ?_, fun rest hin => ?_⟩⟩
  · rw [step_quiet hin]
    exact engineTurn_busy hr hb
  · rw [step_engine hin]
    exact engineTurn_busy hr hb
  · obtain hin | ⟨hclears, hin⟩ := hin
    · exact step_coincide_before hb hr hin (.inl rfl)
    · exact step_coincide_before hb hr hin (.inr (accessClearsInt_iff.2 hclears))
  · refine step_coincide_after hb hin ?_ ht
    rw [← Bool.not_eq_true, accessClearsInt_iff, not_exists]
    exact hlast
  · rw [step_wait hin, waitTurn_busy (by exact hb)]
    rfl
  · rw [step_quiet hin]
    exact engineTurn_idle hb
  · rw [step_engine hin]
    exact engineTurn_idle hb
  · rw [step_coincide hin]
    exact coincideTurn_idle hb
  · rw [step_wait hin]
    exact waitTurn_idle hb

end Sys2Proof.Machine
end

section
/-! PROOF. The statements on the start of each command (40_host_interface.md R176 to R181): the whole state it leaves, and
the guard on a nonce used twice (41_aead.md R207). -/

namespace Sys2Proof.Machine

/-! ## The two ends of a start step, as whole states (R180, R181) -/

theorem fail_eq_failedWith (c : ErrCode) (s : State) : fail c s = failedWith c 0 s.hid s := by
  rw [fail, failAt, ite_self]
  rfl

theorem complete_idle {s : State} (hb : s.status.busy = false) :
    complete s = { s with
      status := { s.status with done := true }, intStatus := { s.intStatus with done := true } } := by
  rw [complete, ← hb]

/-! ## CAPQ, EMBED and EXTRACT (R232, R271, R301) -/

theorem exec_capq_idle {s : State} (hb : s.status.busy = false) : exec .capq s = .next (capqStart s) := by
  rw [exec, execCapq, hb]
  rfl

/-- Settles O23: CAPQ's only check is the one on the dimensions. -/
theorem capqCompletes : Obligations.CapqCompletes := by
  unfold Obligations.CapqCompletes
  intro s hb t
  rw [exec_capq_idle hb]
  refine ⟨fun hw hh => ?_, fun hzero => ?_⟩
  · have hdim : dimIsZero s = false := dimIsZero_false.2 ⟨hw, hh⟩
    rw [capqStart_ok hdim, start_ok hdim, complete_idle (by exact hb)]
    rfl
  · have hdim : dimIsZero s = true := dimIsZero_true.2 hzero
    rw [capqStart_zero hdim, start_zero hdim, fail_eq_failedWith]

/-- Settles O29: the checks pass, LEN fits among them. -/
theorem embedStarts : Obligations.EmbedStarts := by
  unfold Obligations.EmbedStarts
  intro s hb hready t
  have hdim : dimIsZero s = false := dimIsZero_false.2 ⟨hready.wide, hready.high⟩
  have hfits : fitsLen s = true := fitsLen_true.2 hready.capacity
  rw [exec, execEmbed, hb, embedStart, embedCheck_start, (embedCheck_none s).2 hready, start_ok hdim, hfits]
  rfl

/-- Settles O30: the checks pass. -/
theorem extractStarts : Obligations.ExtractStarts := by
  unfold Obligations.ExtractStarts
  intro s hb hready t
  have hdim : dimIsZero (clearCommand s) = false := dimIsZero_false.2 ⟨hready.wide, hready.high⟩
  rw [exec, execExtract, hb, extractStart, extractCheck_start, (extractCheck_none s).2 hready, writeCapacity_ok hdim]
  rfl

/-! ## AEAD_ENC and AEAD_DEC (R206 to R208) -/

/-- AEAD_ENC while idle: it begins, and sets IVU, exactly where its checks pass. -/
theorem exec_aeadEnc_idle {s : State} (hb : s.status.busy = false) :
    exec .aeadEnc s = .next (match aeadEncCheck s with
      | some c => failedWith c 0 (startedFrom s).hid (startedFrom s)
      | none => beginCommand .aeadEnc { startedFrom s with status := { (startedFrom s).status with ivu := true } }) := by
  rw [exec, execAeadEnc, hb, aeadEncStart, aeadEncCheck_start]
  cases aeadEncCheck s with
  | some c => exact congrArg Host.Outcome.next (fail_eq_failedWith c _)
  | none => rfl

/-- Settles O31: the checks pass, for AEAD_ENC with IVU = 0. -/
theorem aeadStarts : Obligations.AeadStarts := by
  unfold Obligations.AeadStarts
  intro s hb hready t
  refine ⟨fun hivu => ?_, ?_⟩
  · rw [exec_aeadEnc_idle hb, (aeadEncCheck_none s).2 ⟨hready, hivu⟩]
    rfl
  · rw [exec, execAeadDec, hb, aeadDecStart, aeadDecCheck_start, (aeadDecCheck_none s).2 hready]
    rfl

/-- The check for a nonce used twice comes after those of presence and of LEN (R335). -/
theorem aeadEncCheck_reused {s : State} (hivu : s.status.ivu = true) :
    ∃ c, aeadEncCheck s = some c ∧ (s.cfg.hasAead = true → lenBytes s ≠ 0 → c = .ivReuse) := by
  rw [aeadEncCheck]
  split
  case isTrue habsent => exact ⟨_, rfl, fun hpresent => by simp [hpresent] at habsent⟩
  case isFalse =>
    split
    case isTrue hlen => exact ⟨_, rfl, fun _ hne => absurd hlen hne⟩
    case isFalse => exact ⟨.ivReuse, rfl, fun _ _ => rfl⟩

/-- AEAD_ENC begins only with IVU = 0, and leaves IVU = 1. -/
theorem aeadEnc_begins {s t : State} (hb : s.status.busy = false) (h : exec .aeadEnc s = .next t)
    (ht : t.status.busy = true) : s.status.ivu = false ∧ t.status.ivu = true := by
  rw [exec_aeadEnc_idle hb] at h
  cases hc : aeadEncCheck s with
  | some c => rw [hc] at h; cases h; cases ht
  | none => rw [hc] at h; cases h; exact ⟨((aeadEncCheck_none s).1 hc).2, rfl⟩

/-- Settles O18: the check on IVU, and the accepted writes to KEY and IV. -/
theorem ivReuseGuard : Obligations.IvReuseGuard := by
  unfold Obligations.IvReuseGuard
  refine ⟨fun s t => aeadEnc_begins, fun s t o v rest hin hr hb ho h => ?_, fun s hb hivu => ?_⟩
  · obtain ⟨-, -, -, -, hidle⟩ := acceptedRegisterWrites s o v rest hin hr
    obtain ⟨-, -, -, -, -, hkey, hiv, -⟩ := hidle hb
    obtain ⟨i, ho⟩ | ⟨i, ho⟩ := ho
    · cases (hkey i ho).symm.trans h; rfl
    · cases (hiv i ho).symm.trans h; rfl
  · obtain ⟨c, hc, hcode⟩ := aeadEncCheck_reused hivu
    exact ⟨c, (startedFrom s).hid, by rw [exec_aeadEnc_idle hb, hc], hcode⟩

end Sys2Proof.Machine
end

section
/-! PROOF. The statements on the engine step of EMBED (44_embed.md R272 to R279): one channel written, what is left alone,
and the first access that fails. -/

namespace Sys2Proof.Machine

/-! ## The accesses of channel H.k (R272, R108) -/

/-- The container byte of channel H.k lies in the address space. -/
theorem EmbedReady.srcAddr {s : State} (h : EmbedReady s) (hk : s.hid.k < requiredBits s) :
    (byteAddr s.srcBase (s.hid.k / 8)).toNat = s.srcBase.toNat + s.hid.k / 8 := by
  have hreq : requiredBits s = 8 * lenBytes s := rfl
  exact byteAddr_toNat (by have := h.source; omega)

theorem EmbedReady.imgAddr {s : State} (h : EmbedReady s) (hk : s.hid.k < requiredBits s) :
    (byteAddr s.imgBase s.hid.k).toNat = s.imgBase.toNat + s.hid.k := by
  have hreq : requiredBits s = 8 * lenBytes s := rfl
  exact byteAddr_toNat (by have := h.image; have := h.capacity; omega)

theorem embedCur_okay {s : State} {k : Nat} (h : k % 8 = 0 → readErr s (byteAddr s.srcBase (k / 8)).toNat = false) :
    embedCur k s = some (if k % 8 = 0 then readByte s (byteAddr s.srcBase (k / 8)).toNat else s.hid.cur) := by
  split
  case isTrue hk => exact embedCur_read hk (h hk)
  case isFalse hk => exact embedCur_held hk

/-- EMBED's state once the channel byte of H.k has been written, `cur` being the container's byte (R274). -/
def embedWritten (s : State) (cur : Byte) : State :=
  { s with
    hid := { s.hid with cur := cur }
    mem := memWrite s.mem (byteAddr s.imgBase s.hid.k).toNat
      (withLsb (readByte s (byteAddr s.imgBase s.hid.k).toNat) (currentBit cur s.hid.k)) }

@[simp] theorem embedTail_mem (k : Nat) (s : State) : (embedTail k s).mem = s.mem := by
  obtain ⟨_, _, _, _, _, _, _, _, _, _, h⟩ := embedTail_shape k s
  rw [h]
  rfl

theorem exec_embed_busy {s : State} (hb : s.status.busy = true) : exec .embed s = .next (embedStep s) := by
  rw [exec, execEmbed, if_pos hb]

/-! ## The statements -/

/-- PROGRESS after the last channel is 100, whichever emission came last. -/
theorem Emits.latest_of_getLast {s t : State} {vs : List Nat} {v : Nat} (h : Emits s t vs) (hv : vs.getLast? = some v) :
    t.progress.toNat = v := by
  rw [h.latest, List.getLastD_eq_getLast?, hv, Option.getD_some]

/-- Settles O32: one channel is written, and the tail's counters are those of `embedTail_counters`. -/
theorem embedChannelStep : Obligations.EmbedChannelStep := by
  unfold Obligations.EmbedChannelStep
  intro s hi hb hop k src img hsrc himg hwrite cur bit last
  have hrun := hi.embedRuns hb hop
  have hready := (embedCheck_none s).1 hrun.checks
  have hsrcAddr : (byteAddr s.srcBase (k / 8)).toNat = src := hready.srcAddr hrun.cursor
  have himgAddr : (byteAddr s.imgBase k).toNat = img := hready.imgAddr hrun.cursor
  have hcur : embedCur k s = some cur := by
    rw [embedCur_okay (by rw [hsrcAddr]; exact hsrc), hsrcAddr]
  have hstep : exec .embed s = .next (embedTail k (embedWritten s cur)) := by
    rw [exec_embed_busy hb, embedStep_okay hcur (by rw [himgAddr]; exact himg) (by rw [himgAddr]; exact hwrite)]
    rfl
  obtain ⟨hbits, hpix, hhid, hstatus, hdone, herr, herror, -⟩ :=
    embedTail_counters (s := embedWritten s cur) hrun.cursor hready.capacity hrun.counters.pixDone
  obtain ⟨vs, hemits, h100, hpercent⟩ :=
    emits_embedTail (s := embedWritten s cur) hrun.cursor hready.capacity hrun.counters.progress
  have hlast : last = true ↔ k + 1 = requiredBits (embedWritten s cur) := decide_eq_true_iff
  refine ⟨_, hstep, fun x => ?_, hhid, hbits, ?_, ?_, ?_, hdone, herr, herror.trans (hi.noError hb)⟩
  · rw [embedTail_mem, embedWritten, memRead_memWrite hi.memory, himgAddr, withLsb_eq]
    rfl
  · exact hpix.trans (if_congr (or_congr_right hlast.symm) rfl rfl)
  · split
    case isTrue hl => exact hemits.latest_of_getLast (h100 (hlast.1 hl))
    case isFalse hl => exact hpercent (mt hlast.2 hl)
  · rw [hstatus]
    cases hl : last with
    | true => rw [if_pos (hlast.1 hl)]; rfl
    | false => rw [if_neg (by rw [← hlast, hl]; nofun)]; exact status_runs hb (hi.busyFlags hb).1

/-- The two ends of EMBED's start step. -/
theorem embedStart_cases (s : State) :
    (∃ c, embedStart s = fail c (writeFits (writeCapacity (clearCommand s)))) ∨
    embedStart s = beginCommand .embed (writeFits (writeCapacity (clearCommand s))) := by
  rw [embedStart]
  cases embedCheck (writeFits (writeCapacity (clearCommand s))) with
  | some c => exact .inl ⟨c, rfl⟩
  | none => exact .inr rfl

/-- Settles O33: a bus error changes no memory, a channel step its own byte, and the start step none. -/
theorem embedFrame : Obligations.EmbedFrame := by
  unfold Obligations.EmbedFrame
  intro s t h
  refine ⟨exec_keeps h, ?_⟩
  cases hb : s.status.busy with
  | true =>
    rw [exec_embed_busy hb] at h
    cases h
    obtain ⟨a, cur, he⟩ | ⟨cur, -, -, he⟩ := embedStep_cases s
    · rw [he]
      exact ⟨rfl, rfl, rfl, fun _ => ⟨rfl, rfl, rfl, rfl, rfl, rfl, rfl⟩, nofun, fun _ _ => rfl⟩
    · obtain ⟨_, _, _, _, _, _, _, _, _, _, hshape⟩ := embedTail_shape s.hid.k (embedWritten s cur)
      rw [he.trans hshape]
      exact ⟨rfl, rfl, rfl, fun _ => ⟨rfl, rfl, rfl, rfl, rfl, rfl, rfl⟩, nofun,
        fun x hx => memRead_memWrite_ne s.mem _ hx⟩
  | false =>
    rw [exec, execEmbed, hb] at h
    cases h
    obtain ⟨c, he⟩ | he := embedStart_cases s <;> rw [if_neg Bool.false_ne_true, he] <;> simp [fail]

/-- The container byte cannot be read. -/
theorem embedStep_srcErr {s : State} (hc : embedCur s.hid.k s = none) :
    embedStep s = failAt .bus (byteAddr s.srcBase (s.hid.k / 8)) s := by
  simp only [embedStep, hc]

/-- The channel byte cannot be read, or cannot be written. -/
theorem embedStep_imgErr {s : State} {cur : Byte} (hc : embedCur s.hid.k s = some cur)
    (h : readErr s (byteAddr s.imgBase s.hid.k).toNat = true ∨ writeErr s (byteAddr s.imgBase s.hid.k).toNat = true) :
    embedStep s = failAt .bus (byteAddr s.imgBase s.hid.k) { s with hid := { s.hid with cur := cur } } := by
  simp only [embedStep, hc]
  cases hr : readErr s (byteAddr s.imgBase s.hid.k).toNat with
  | true => rw [busRead_error (by exact hr)]
  | false =>
    have hw : writeErr s (byteAddr s.imgBase s.hid.k).toNat = true := h.resolve_left (by rw [hr]; nofun)
    rw [busRead_okay (by exact hr)]
    dsimp only
    rw [busWrite_error (by exact hw)]

/-- Settles O34: the accesses in their order, each the one that fails. -/
theorem embedBusError : Obligations.EmbedBusError := by
  unfold Obligations.EmbedBusError
  intro s hb k src img
  rw [exec_embed_busy hb]
  refine ⟨fun hk hsrc => ?_, fun hsrc himg => ?_⟩
  · have hcur : embedCur k s = none := by rw [embedCur, if_pos hk, busRead_error hsrc]
    rw [embedStep_srcErr hcur]
    exact ⟨s.hid, rfl⟩
  · rw [embedStep_imgErr (embedCur_okay hsrc) himg]
    exact ⟨_, rfl⟩

end Sys2Proof.Machine
end

section
/-! PROOF. The statements on the engine step of EXTRACT (45_extract.md R302 to R308): one channel read, a byte stored at
each eighth, what is left alone, and the first access that fails. -/

namespace Sys2Proof.Machine

/-! ## The accesses of channel H.k (R302, R108) -/

theorem ExtractReady.imgAddr {s : State} (h : ExtractReady s) (hk : s.hid.k < capacityBits s) :
    (byteAddr s.imgBase s.hid.k).toNat = s.imgBase.toNat + s.hid.k := by
  have hcap : capacityBits s = 3 * (width s * height s) := rfl
  exact byteAddr_toNat (by have := h.image; omega)

/-- The channel H.k that completes a destination byte completes byte H.k div 8, which lies in the address space. -/
theorem ExtractReady.dstAddr {s : State} (h : ExtractReady s) (hk : s.hid.k < capacityBits s)
    (h8 : (s.hid.k + 1) % 8 = 0) :
    (byteAddr s.dstBase ((s.hid.k + 1) / 8 - 1)).toNat = s.dstBase.toNat + s.hid.k / 8 := by
  have hcap : capacityBits s = 3 * (width s * height s) := rfl
  rw [show (s.hid.k + 1) / 8 - 1 = s.hid.k / 8 by omega]
  exact byteAddr_toNat (by have := h.dest; omega)

/-- EXTRACT's state once channel H.k has been read and, at each eighth, the completed byte has been stored (R302). -/
def extractAccessed (s : State) : State :=
  if (s.hid.k + 1) % 8 = 0 then
    { extractRead s with
      mem := memWrite s.mem (byteAddr s.dstBase ((s.hid.k + 1) / 8 - 1)).toNat (extractRead s).hid.acc
      outLen := BitVec.ofNat 32 ((s.hid.k + 1) / 8 - 1 + 1) }
  else extractRead s

theorem exec_extract_busy {s : State} (hb : s.status.busy = true) : exec .extract s = .next (extractStep s) := by
  rw [exec, execExtract, if_pos hb]

theorem extractStep_okay {s : State} (hr : readErr s (byteAddr s.imgBase s.hid.k).toNat = false)
    (hw : (s.hid.k + 1) % 8 = 0 → writeErr s (byteAddr s.dstBase ((s.hid.k + 1) / 8 - 1)).toNat = false) :
    extractStep s = extractTail s.hid.k (extractAccessed s) := by
  rw [extractAccessed]
  split
  case isTrue h8 => exact extractStep_store hr h8 (hw h8)
  case isFalse h8 => exact extractStep_plain hr h8

theorem extractStep_readErr {s : State} (hr : readErr s (byteAddr s.imgBase s.hid.k).toNat = true) :
    extractStep s = failAt .bus (byteAddr s.imgBase s.hid.k) s := by
  simp only [extractStep, busRead_error hr]

/-- The completed byte cannot be written; the channel is counted (R302). -/
theorem extractStep_writeErr {s : State} (hr : readErr s (byteAddr s.imgBase s.hid.k).toNat = false)
    (h8 : (s.hid.k + 1) % 8 = 0)
    (hw : writeErr s (byteAddr s.dstBase ((s.hid.k + 1) / 8 - 1)).toNat = true) :
    extractStep s = failAt .bus (byteAddr s.dstBase ((s.hid.k + 1) / 8 - 1)) (extractRead s) := by
  rw [extractStep_read hr, if_pos h8, busWrite_error (by exact hw)]

/-! ## What the accesses and the tail leave alone -/

/-- The accesses write no end flag and no progress output. -/
theorem extractAccessed_record (s : State) :
    (extractAccessed s).pixDone = s.pixDone ∧ (extractAccessed s).progress = s.progress ∧
    (extractAccessed s).status = s.status ∧ (extractAccessed s).intStatus = s.intStatus ∧
    (extractAccessed s).error = s.error ∧ (extractAccessed s).dim = s.dim ∧
    (extractAccessed s).hid = (extractRead s).hid ∧ (extractAccessed s).bitsDone = BitVec.ofNat 34 (s.hid.k + 1) := by
  rw [extractAccessed]
  split <;> exact ⟨rfl, rfl, rfl, rfl, rfl, rfl, rfl, rfl⟩

theorem extractTail_kept (k : Nat) (s : State) :
    (extractTail k s).mem = s.mem ∧ (extractTail k s).hid = s.hid ∧ (extractTail k s).bitsDone = s.bitsDone ∧
    (extractTail k s).outLen = s.outLen ∧ (extractTail k s).error = s.error := by
  obtain ⟨_, _, _, _, _, _, _, h⟩ := extractTail_shape k s
  rw [h]
  exact ⟨rfl, rfl, rfl, rfl, rfl⟩

theorem capacityBits_congr {s t : State} (h : t.dim = s.dim) : capacityBits t = capacityBits s := by
  simp only [capacityBits, pixels, width, height, h]

theorem pixels_congr {s t : State} (h : t.dim = s.dim) : pixels t = pixels s := by
  simp only [pixels, width, height, h]

/-- OUT_LEN counts the stored bytes (R304). -/
theorem extractAccessed_outLen {s : State} (hk : s.hid.k < capacityBits s) (ho : s.outLen.toNat = s.hid.k / 8) :
    (extractAccessed s).outLen.toNat = (s.hid.k + 1) / 8 := by
  have hle := capacityBits_le s
  rw [extractAccessed]
  split
  case isTrue h8 =>
    rw [BitVec.toNat_ofNat]
    omega
  case isFalse h8 =>
    show s.outLen.toNat = _
    omega

/-- The destination byte that the channel completes, if it completes one, is the only one written. -/
theorem extractAccessed_memRead {s : State} (hm : Memory.wf s.mem = true) (x : Nat) :
    memRead (extractAccessed s).mem x =
      if (s.hid.k + 1) % 8 = 0 ∧ x = (byteAddr s.dstBase ((s.hid.k + 1) / 8 - 1)).toNat then (extractRead s).hid.acc
      else memRead s.mem x := by
  rw [extractAccessed]
  by_cases h8 : (s.hid.k + 1) % 8 = 0
  · simp only [h8, if_true, true_and]
    exact memRead_memWrite hm _ x _
  · simp only [h8, if_false, false_and]
    rfl

/-! ## The statements -/

/-- Settles O35: one channel is read and counted, and the tail's counters are those of `extractTail_counters`. -/
theorem extractChannelStep : Obligations.ExtractChannelStep := by
  unfold Obligations.ExtractChannelStep
  intro s hi hb hop k img dst himg hdst bit acc last
  have hrun := hi.extractRuns hb hop
  have hready := (extractCheck_none s).1 hrun.checks
  have himgAddr : (byteAddr s.imgBase k).toNat = img := hready.imgAddr hrun.cursor
  have hdstAddr (h8 : (k + 1) % 8 = 0) : (byteAddr s.dstBase ((k + 1) / 8 - 1)).toNat = dst :=
    hready.dstAddr hrun.cursor h8
  have hstep : exec .extract s = .next (extractTail k (extractAccessed s)) := by
    rw [exec_extract_busy hb, extractStep_okay (by rw [himgAddr]; exact himg)
      fun h8 => by rw [hdstAddr h8]; exact hdst h8]
  have hacc : (extractRead s).hid.acc = acc := by
    show shiftIn s.hid.acc k (lsb (readByte s (byteAddr s.imgBase k).toNat)) = acc
    rw [himgAddr, shiftIn_eq]
    rfl
  obtain ⟨hupix, huprogress, hustatus, huint, huerror, hudim, huhid, hubits⟩ := extractAccessed_record s
  obtain ⟨htmem, hthid, htbits, htout, hterror⟩ := extractTail_kept k (extractAccessed s)
  have hcap := capacityBits_congr hudim
  have hpx := pixels_congr hudim
  obtain ⟨hpix, hstatus, hdone, herr⟩ := extractTail_counters (s := extractAccessed s) (k := k)
    (by rw [hcap]; exact hrun.cursor) (by rw [hupix]; exact hrun.counters.pixDone)
  obtain ⟨-, -, hprogress⟩ := emits_extractTail (s := extractAccessed s) (k := k)
    (by rw [hcap]; exact hrun.cursor) (by rw [huprogress, hpx]; exact hrun.counters.progress)
  rw [hcap] at hstatus hdone
  rw [huint] at hdone herr
  rw [hustatus] at hstatus
  have hlast : last = true ↔ k + 1 = capacityBits s := decide_eq_true_iff
  refine ⟨_, hstep, fun x => ?_, ?_, ?_, ?_, hpix, hprogress.trans (by rw [hpx]; rfl), ?_, hdone, herr,
    hterror.trans (huerror.trans (hi.noError hb))⟩
  · rw [htmem, extractAccessed_memRead hi.memory, hacc]
    exact if_congr (and_congr_right fun h8 => by rw [hdstAddr h8]) rfl rfl
  · rw [hthid, huhid, ← hacc]
    rfl
  · rw [htbits, hubits, BitVec.toNat_ofNat]
    have := capacityBits_le s
    have := hrun.cursor
    omega
  · rw [htout, extractAccessed_outLen hrun.cursor hrun.outLen]
  · rw [hstatus]
    cases hl : last with
    | true => rw [if_pos (hlast.1 hl)]; rfl
    | false => rw [if_neg (by rw [← hlast, hl]; nofun)]; exact status_runs hb (hi.busyFlags hb).1

/-- The two ends of EXTRACT's start step. -/
theorem extractStart_cases (s : State) :
    (∃ c, extractStart s = fail c (writeCapacity (clearCommand s))) ∨
    extractStart s = beginCommand .extract (writeCapacity (clearCommand s)) := by
  rw [extractStart]
  cases extractCheck (writeCapacity (clearCommand s)) with
  | some c => exact .inl ⟨c, rfl⟩
  | none => exact .inr rfl

/-- Settles O36: of the engine step's outcomes only the one that stores a byte changes memory, at that byte. -/
theorem extractFrame : Obligations.ExtractFrame := by
  unfold Obligations.ExtractFrame
  intro s t h
  refine ⟨exec_keeps h, ?_⟩
  cases hb : s.status.busy with
  | true =>
    rw [exec_extract_busy hb] at h
    cases h
    have tail (u : State) := extractTail_shape s.hid.k u
    obtain he | ⟨-, he⟩ | ⟨-, he⟩ | ⟨h8, -, he⟩ := extractStep_cases s
    · rw [he]
      exact ⟨rfl, rfl, rfl, rfl, fun _ => ⟨rfl, rfl, rfl, rfl, rfl⟩, nofun, fun _ _ => rfl⟩
    · obtain ⟨_, _, _, _, _, _, _, hshape⟩ := tail (extractRead s)
      rw [he, hshape]
      exact ⟨rfl, rfl, rfl, rfl, fun _ => ⟨rfl, rfl, rfl, rfl, rfl⟩, nofun, fun _ _ => rfl⟩
    · rw [he]
      exact ⟨rfl, rfl, rfl, rfl, fun _ => ⟨rfl, rfl, rfl, rfl, rfl⟩, nofun, fun _ _ => rfl⟩
    · obtain ⟨_, _, _, _, _, _, _, hshape⟩ := tail { extractRead s with
        mem := memWrite s.mem (byteAddr s.dstBase ((s.hid.k + 1) / 8 - 1)).toNat (extractRead s).hid.acc
        outLen := BitVec.ofNat 32 ((s.hid.k + 1) / 8 - 1 + 1) }
      rw [he, hshape]
      exact ⟨rfl, rfl, rfl, rfl, fun _ => ⟨rfl, rfl, rfl, rfl, rfl⟩, nofun,
        fun x hx => memRead_memWrite_ne s.mem _ (hx h8)⟩
  | false =>
    rw [exec, execExtract, hb] at h
    cases h
    obtain ⟨c, he⟩ | he := extractStart_cases s <;> rw [if_neg Bool.false_ne_true, he] <;> simp [fail]

/-- Settles O37: the image read comes first, and the cursor has advanced when the destination write fails. -/
theorem extractBusError : Obligations.ExtractBusError := by
  unfold Obligations.ExtractBusError
  intro s hb k img dst
  rw [exec_extract_busy hb]
  refine ⟨fun himg => ?_, fun himg h8 hdst => ?_⟩
  · rw [extractStep_readErr himg]
    exact ⟨s.hid, rfl⟩
  · rw [extractStep_writeErr himg h8 hdst]
    exact ⟨(extractRead s).hid, rfl⟩

end Sys2Proof.Machine
end

section
/-! PROOF. The statements on the AEAD commands' single steps (41_aead.md R201, R206 to R208): a byte enciphered, accumulated
or deciphered, what is left alone, and the first access that fails. -/

namespace Sys2Proof.Machine

/-! ## Enc and Dec (R201) -/

theorem xorKs_length (p : AeadPrim) (K : Key) (nn : Nonce) (i : Nat) (bs : List Byte) :
    (xorKs p K nn i bs).length = bs.length := by
  induction bs generalizing i with
  | nil => rfl
  | cons b rest ih => rw [xorKs, List.length_cons, List.length_cons, ih]

/-- Two exclusive ors with the same keystream give the bytes back. -/
theorem xorKs_xorKs (p : AeadPrim) (K : Key) (nn : Nonce) (i : Nat) (bs : List Byte) :
    xorKs p K nn i (xorKs p K nn i bs) = bs := by
  induction bs generalizing i with
  | nil => rfl
  | cons b rest ih => rw [xorKs, xorKs, ih, BitVec.xor_assoc, BitVec.xor_self, BitVec.xor_zero]

/-- Settles O44: Dec computes the tag of the same ciphertext, and its keystream cancels Enc's. -/
theorem decryptInvertsEncrypt : Obligations.DecryptInvertsEncrypt := by
  unfold Obligations.DecryptInvertsEncrypt
  intro p K nn P C T h
  rw [aeadEncrypt, Prod.mk.injEq] at h
  obtain ⟨rfl, rfl⟩ := h
  exact ⟨xorKs_length p K nn 0 P, by rw [aeadDecrypt, if_pos rfl, xorKs_xorKs]⟩

/-! ## The accesses of byte H.k (R206, R208, R108) -/

theorem AeadReady.dstAddr {s : State} (h : AeadReady s) (hk : s.hid.k < lenBytes s) :
    (byteAddr s.dstBase s.hid.k).toNat = s.dstBase.toNat + s.hid.k :=
  byteAddr_toNat (by have := h.dest; omega)

theorem AeadEncRuns.ready {s : State} (h : AeadEncRuns s) : AeadReady s := by
  rw [← aeadDecCheck_none, aeadDecCheck, h.present, h.regions]
  have := h.cursor
  rw [if_neg (by simp), if_neg (by omega)]

theorem AeadDecRuns.ready {s : State} (h : AeadDecRuns s) : AeadReady s := (aeadDecCheck_none s).1 h.checks

theorem exec_aeadEnc_busy {s : State} (hb : s.status.busy = true) : exec .aeadEnc s = .next (aeadEncStep s) := by
  rw [exec, execAeadEnc, if_pos hb]

theorem exec_aeadDec_auth {s : State} (hb : s.status.busy = true) (hp : s.hid.phase = .authPass) :
    exec .aeadDec s = .next (aeadAuthStep s) := by
  rw [exec, execAeadDec, if_pos hb, hp]

theorem exec_aeadDec_write {s : State} (hb : s.status.busy = true) (hp : s.hid.phase = .writePass) :
    exec .aeadDec s = .next (aeadWriteStep s) := by
  rw [exec, execAeadDec, if_pos hb, hp]

/-- OUT_LEN counts the bytes stored, which LEN bounds. -/
theorem outLen_toNat {s : State} (hk : s.hid.k < lenBytes s) :
    (BitVec.ofNat 32 (s.hid.k + 1)).toNat = s.hid.k + 1 := by
  have := lenBytes_lt s
  rw [BitVec.toNat_ofNat]
  omega

/-! ## The statements on steps -/

/-- Settles O39: the byte is stored, and the last one completes with TAG. -/
theorem aeadEncByteStep : Obligations.AeadEncByteStep := by
  unfold Obligations.AeadEncByteStep
  intro s hi hb hop i src dst hsrc hdst c ct last
  have hrun := hi.aeadEncRuns hb hop
  have hsrcAddr : (byteAddr s.srcBase i).toNat = src := hrun.ready.srcAddr hrun.cursor
  have hdstAddr : (byteAddr s.dstBase i).toNat = dst := hrun.ready.dstAddr hrun.cursor
  have hmem (x : Nat) : memRead (encByteDone s).mem x = if x = dst then c else memRead s.mem x := by
    rw [encByteDone, memRead_memWrite hi.memory, hdstAddr, hsrcAddr]
    rfl
  have hct : (encByteDone s).hid = { s.hid with k := i + 1, ct := ct } := by
    rw [encByteDone, hsrcAddr]
    rfl
  have htag : packTag (tagOf s (encByteDone s).hid.ct) =
      packTag (Config.tagF s.cfg.aeadPrim (keyBytes s) (nonceBytes s) ct) := by rw [hct]; rfl
  have hout : (encByteDone s).outLen.toNat = i + 1 := outLen_toNat hrun.cursor
  have hstep := aeadEncStep_okay (by rw [hsrcAddr]; exact hsrc) (by rw [hdstAddr]; exact hdst)
  rw [exec_aeadEnc_busy hb, hstep]
  have hlast : last = true ↔ s.hid.k + 1 = lenBytes s := decide_eq_true_iff
  cases hl : last with
  | true =>
    rw [if_pos (hlast.1 hl)]
    exact ⟨_, rfl, hmem, hct, hout, htag, rfl, by rw [Bool.or_true]; rfl⟩
  | false =>
    rw [if_neg (by rw [← hlast, hl]; nofun)]
    exact ⟨_, rfl, hmem, hct, hout, rfl, status_runs hb (hi.busyFlags hb).1, by rw [Bool.or_false]; rfl⟩

/-- Settles O40: the three ends of an AUTH_PASS step. -/
theorem aeadDecAuthStep : Obligations.AeadDecAuthStep := by
  unfold Obligations.AeadDecAuthStep
  intro s hi hb hop hp i src hsrc ct good
  have hrun := hi.aeadDecRuns hb hop
  have hsrcAddr : (byteAddr s.srcBase i).toNat = src := hrun.ready.srcAddr hrun.cursor
  have hct : (authByteDone s).hid.ct = ct := by rw [authByteDone, hsrcAddr]
  have hstep := aeadAuthStep_okay (by rw [hsrcAddr]; exact hsrc)
  rw [exec_aeadDec_auth hb hp, hstep, hct]
  refine ⟨fun (hlt : s.hid.k + 1 < lenBytes s) => ?_, fun (hlast : s.hid.k + 1 = lenBytes s) hgood => ?_,
    fun (hlast : s.hid.k + 1 = lenBytes s) hbad => ?_⟩
  · rw [if_neg (Nat.ne_of_lt hlt), authByteDone, hsrcAddr]
  · have htag : tagOf s ct = tagBytes s := of_decide_eq_true hgood
    rw [if_pos hlast, if_neg (not_not_intro htag)]
    rfl
  · have htag : tagOf s ct ≠ tagBytes s := of_decide_eq_false hbad
    rw [if_pos hlast, if_pos htag, fail_eq_failedWith]
    exact ⟨(authByteDone s).hid, rfl⟩

/-- Settles O41: the byte read again is deciphered and stored, and the last one completes. -/
theorem aeadDecWriteStep : Obligations.AeadDecWriteStep := by
  unfold Obligations.AeadDecWriteStep
  intro s hi hb hop hp i src dst hsrc hdst b p last
  have hrun := hi.aeadDecRuns hb hop
  have hsrcAddr : (byteAddr s.srcBase i).toNat = src := hrun.ready.srcAddr hrun.cursor
  have hdstAddr : (byteAddr s.dstBase i).toNat = dst := hrun.ready.dstAddr hrun.cursor
  have hmem (x : Nat) : memRead (decByteDone s).mem x = if x = dst then p else memRead s.mem x := by
    rw [decByteDone, memRead_memWrite hi.memory, hdstAddr, hsrcAddr]
    rfl
  have hct : (decByteDone s).hid = { s.hid with k := i + 1, ct := s.hid.ct ++ [b] } := by
    rw [decByteDone, hsrcAddr]
  have hout : (decByteDone s).outLen.toNat = i + 1 := outLen_toNat hrun.cursor
  have hstep := aeadWriteStep_okay (by rw [hsrcAddr]; exact hsrc) (by rw [hdstAddr]; exact hdst)
  refine ⟨hrun.ct, ?_⟩
  rw [exec_aeadDec_write hb hp, hstep]
  have hlast : last = true ↔ s.hid.k + 1 = lenBytes s := decide_eq_true_iff
  cases hl : last with
  | true =>
    rw [if_pos (hlast.1 hl)]
    exact ⟨_, rfl, hmem, hct, hout, rfl, by rw [Bool.or_true]; rfl⟩
  | false =>
    rw [if_neg (by rw [← hlast, hl]; nofun)]
    exact ⟨_, rfl, hmem, hct, hout, status_runs hb (hi.busyFlags hb).1, by rw [Bool.or_false]; rfl⟩

/-! ## What a step leaves alone (R149, R187) -/

/-- Every outcome of a step of AEAD_ENC. -/
theorem exec_aeadEnc_cases {s t : State} (h : exec .aeadEnc s = .next t) :
    (s.status.busy = false ∧ t = aeadEncStart s) ∨ (s.status.busy = true ∧ t = aeadEncStep s) := by
  cases hb : s.status.busy with
  | false => rw [exec, execAeadEnc, hb] at h; cases h; exact .inl ⟨rfl, rfl⟩
  | true => rw [exec_aeadEnc_busy hb] at h; cases h; exact .inr ⟨rfl, rfl⟩

/-- The two ends of AEAD_ENC's start step. -/
theorem aeadEncStart_cases (s : State) :
    (∃ c, aeadEncStart s = fail c (clearCommand s)) ∨
    aeadEncStart s = beginCommand .aeadEnc
      { clearCommand s with status := { (clearCommand s).status with ivu := true } } := by
  rw [aeadEncStart]
  dsimp only
  cases aeadEncCheck (clearCommand s) with
  | some c => exact .inl ⟨c, rfl⟩
  | none => exact .inr rfl

/-- What every step of an AEAD command leaves alone, but for memory, TAG and IVU. -/
structure AeadKeeps (s t : State) : Prop where
  capBits  : t.capBits = s.capBits
  capBytes : t.capBytes = s.capBytes
  fits     : t.status.fits = s.status.fits
  cur      : t.hid.cur = s.hid.cur
  acc      : t.hid.acc = s.hid.acc
  prog     : t.prog = s.prog
  pending  : t.intStatus.prog = s.intStatus.prog
  engine   : s.status.busy = true → t.bitsDone = s.bitsDone ∧ t.pixDone = s.pixDone ∧ t.progCount = s.progCount ∧
    t.status.ivu = s.status.ivu ∧ t.hid.op = s.hid.op
  start    : s.status.busy = false → t.mem = s.mem ∧ t.tag = s.tag ∧ t.bitsDone = 0 ∧ t.pixDone = 0 ∧ t.progCount = 0
  memory   : ∀ x, x ≠ (byteAddr s.dstBase s.hid.k).toNat → memRead t.mem x = memRead s.mem x

theorem aeadKeeps_failAt {s : State} (hb : s.status.busy = true) (c : ErrCode) (a : Word) :
    AeadKeeps s (failAt c a s) :=
  ⟨rfl, rfl, rfl, rfl, rfl, rfl, rfl, fun _ => ⟨rfl, rfl, rfl, rfl, rfl⟩, (by rw [hb]; nofun), fun _ _ => rfl⟩

theorem aeadKeeps_encStart {s : State} (hb : s.status.busy = false) : AeadKeeps s (aeadEncStart s) := by
  obtain ⟨c, he⟩ | he := aeadEncStart_cases s <;> rw [he] <;>
    exact ⟨rfl, rfl, rfl, rfl, rfl, rfl, rfl, (by rw [hb]; nofun), fun _ => ⟨rfl, rfl, rfl, rfl, rfl⟩, fun _ _ => rfl⟩

theorem aeadKeeps_decStart {s : State} (hb : s.status.busy = false) : AeadKeeps s (aeadDecStart s) := by
  obtain ⟨c, he⟩ | he := aeadDecStart_cases s <;> rw [he] <;>
    exact ⟨rfl, rfl, rfl, rfl, rfl, rfl, rfl, (by rw [hb]; nofun), fun _ => ⟨rfl, rfl, rfl, rfl, rfl⟩, fun _ _ => rfl⟩

theorem aeadKeeps_encStep {s : State} (hb : s.status.busy = true) : AeadKeeps s (aeadEncStep s) := by
  obtain ⟨a, he⟩ | ⟨-, he⟩ := aeadEncStep_cases s <;> rw [he]
  · exact aeadKeeps_failAt hb _ a
  · split <;>
      exact ⟨rfl, rfl, rfl, rfl, rfl, rfl, rfl, fun _ => ⟨rfl, rfl, rfl, rfl, rfl⟩, (by rw [hb]; nofun),
        fun _ hx => memRead_memWrite_ne s.mem _ hx⟩

theorem aeadKeeps_authStep {s : State} (hb : s.status.busy = true) : AeadKeeps s (aeadAuthStep s) := by
  obtain ⟨a, he⟩ | he := aeadAuthStep_cases s <;> rw [he]
  · exact aeadKeeps_failAt hb _ a
  · repeat' split
    all_goals
      exact ⟨rfl, rfl, rfl, rfl, rfl, rfl, rfl, fun _ => ⟨rfl, rfl, rfl, rfl, rfl⟩, (by rw [hb]; nofun), fun _ _ => rfl⟩

theorem aeadKeeps_writeStep {s : State} (hb : s.status.busy = true) : AeadKeeps s (aeadWriteStep s) := by
  obtain ⟨a, he⟩ | ⟨-, he⟩ := aeadWriteStep_cases s <;> rw [he]
  · exact aeadKeeps_failAt hb _ a
  · split <;>
      exact ⟨rfl, rfl, rfl, rfl, rfl, rfl, rfl, fun _ => ⟨rfl, rfl, rfl, rfl, rfl⟩, (by rw [hb]; nofun),
        fun _ hx => memRead_memWrite_ne s.mem _ hx⟩

theorem aeadKeeps_of_exec {i : Instr} {s t : State} (hi : i = .aeadEnc ∨ i = .aeadDec) (h : exec i s = .next t) :
    AeadKeeps s t := by
  obtain rfl | rfl := hi
  · obtain ⟨hb, rfl⟩ | ⟨hb, rfl⟩ := exec_aeadEnc_cases h
    · exact aeadKeeps_encStart hb
    · exact aeadKeeps_encStep hb
  · obtain ⟨hb, rfl⟩ | ⟨hb, -, rfl⟩ | ⟨hb, -, rfl⟩ := exec_aeadDec_cases h
    · exact aeadKeeps_decStart hb
    · exact aeadKeeps_authStep hb
    · exact aeadKeeps_writeStep hb

/-- AEAD_DEC writes neither TAG nor IVU. -/
theorem exec_aeadDec_tag {s t : State} (h : exec .aeadDec s = .next t) :
    t.tag = s.tag ∧ t.status.ivu = s.status.ivu := by
  obtain ⟨-, rfl⟩ | ⟨-, -, rfl⟩ | ⟨-, -, rfl⟩ := exec_aeadDec_cases h
  · obtain ⟨c, he⟩ | he := aeadDecStart_cases s <;> rw [he] <;> exact ⟨rfl, rfl⟩
  · obtain ⟨a, he⟩ | he := aeadAuthStep_cases s <;> rw [he]
    · exact ⟨rfl, rfl⟩
    · repeat' split
      all_goals exact ⟨rfl, rfl⟩
  · obtain ⟨a, he⟩ | ⟨-, he⟩ := aeadWriteStep_cases s <;> rw [he]
    · exact ⟨rfl, rfl⟩
    · split <;> exact ⟨rfl, rfl⟩

/-- AEAD_ENC writes TAG only in the step that completes. -/
theorem exec_aeadEnc_tag {s t : State} (h : exec .aeadEnc s = .next t) (hd : t.status.done = false) :
    t.tag = s.tag := by
  obtain ⟨-, rfl⟩ | ⟨-, rfl⟩ := exec_aeadEnc_cases h
  · obtain ⟨c, he⟩ | he := aeadEncStart_cases s <;> rw [he] <;> rfl
  · obtain ⟨a, he⟩ | ⟨-, he⟩ := aeadEncStep_cases s <;> rw [he] at hd ⊢
    · rfl
    · split at hd
      · cases hd
      · rw [if_neg ‹_›]; rfl

/-- Settles O42: what every outcome of the two commands leaves alone. -/
theorem aeadFrame : Obligations.AeadFrame := by
  unfold Obligations.AeadFrame
  intro i s t hi h
  have k := aeadKeeps_of_exec hi h
  exact ⟨exec_keeps h, k.capBits, k.capBytes, k.fits, k.cur, k.acc, k.prog, k.pending,
    fun he => exec_aeadDec_tag (he ▸ h), fun he => exec_aeadEnc_tag (he ▸ h), k.engine, k.start, k.memory⟩

/-- Settles O43: the read comes first, in either command and in either pass of AEAD_DEC. -/
theorem aeadBusError : Obligations.AeadBusError := by
  unfold Obligations.AeadBusError
  intro s hb src dst
  rw [exec_aeadEnc_busy hb]
  refine ⟨fun hsrc => ⟨?_, fun hp => ?_⟩, fun hsrc hdst => ⟨?_, fun hp => ?_⟩⟩
  · rw [aeadEncStep_readErr hsrc]
    exact ⟨s.hid, rfl⟩
  · refine ⟨s.hid, ?_⟩
    cases hph : s.hid.phase with
    | run => exact absurd hph hp
    | authPass => rw [exec_aeadDec_auth hb hph, aeadAuthStep_readErr hsrc]; rfl
    | writePass => rw [exec_aeadDec_write hb hph, aeadWriteStep_readErr hsrc]; rfl
  · rw [aeadEncStep_writeErr hsrc hdst]
    exact ⟨s.hid, rfl⟩
  · rw [exec_aeadDec_write hb hp, aeadWriteStep_writeErr hsrc hdst]
    exact ⟨s.hid, rfl⟩

end Sys2Proof.Machine
end

section
/-! PROOF. The statements on what any command's step does (40_host_interface.md sections 4 and 5, 60_exceptions.md): how a
start step and an engine step end, what they emit and record, and which errors they report. -/

namespace Sys2Proof.Machine

/-! ## How a start step ends (R176 to R181) -/

/-- What a start step has made of `s` when its checks run, in the fields that a failure or a completion records. -/
structure Started (s u : State) : Prop where
  error     : u.error = .none
  errAddr   : u.errAddr = 0
  err       : u.status.err = false
  done      : u.status.done = false
  intStatus : u.intStatus = s.intStatus
  tag       : u.tag = s.tag
  prog      : u.prog = s.prog

/-- The ends of a start step: it fails, the command begins, or, for CAPQ, it is complete. -/
inductive StartEnd (i : Instr) (s t : State) : Prop
  | failed (c : ErrCode) (u : State) (hu : Started s u) (h : t = fail c u)
  | begun (u : State) (hu : Started s u) (h : t = beginCommand i u)
  | completed (u : State) (hu : Started s u) (h : t = complete u)

theorem started_clearCommand (s : State) : Started s (clearCommand s) := ⟨rfl, rfl, rfl, rfl, rfl, rfl, rfl⟩

theorem started_writeCapacity (s : State) : Started s (writeCapacity (clearCommand s)) := by
  constructor <;> simp

theorem started_writeFits (s : State) : Started s (writeFits (writeCapacity (clearCommand s))) := by
  constructor <;> simp

theorem exec_start_end {i : Instr} {s t : State} (hb : s.status.busy = false) (h : exec i s = .next t) :
    StartEnd i s t := by
  cases i with
  | capq =>
    cases (exec_capq_idle hb).symm.trans h
    cases hd : dimIsZero s with
    | true => exact .failed _ _ (started_writeFits s) (capqStart_zero hd)
    | false => exact .completed _ (started_writeFits s) (capqStart_ok hd)
  | embed =>
    rw [exec, execEmbed, hb] at h
    cases h
    obtain ⟨c, he⟩ | he := embedStart_cases s
    · exact .failed c _ (started_writeFits s) he
    · exact .begun _ (started_writeFits s) he
  | extract =>
    rw [exec, execExtract, hb] at h
    cases h
    obtain ⟨c, he⟩ | he := extractStart_cases s
    · exact .failed c _ (started_writeCapacity s) he
    · exact .begun _ (started_writeCapacity s) he
  | aeadEnc =>
    rw [exec, execAeadEnc, hb] at h
    cases h
    obtain ⟨c, he⟩ | he := aeadEncStart_cases s
    · exact .failed c _ (started_clearCommand s) he
    · exact .begun { clearCommand s with status := { (clearCommand s).status with ivu := true } }
        ⟨rfl, rfl, rfl, rfl, rfl, rfl, rfl⟩ he
  | aeadDec =>
    rw [exec, execAeadDec, hb] at h
    cases h
    obtain ⟨c, he⟩ | he := aeadDecStart_cases s
    · exact .failed c _ (started_clearCommand s) he
    · exact .begun { clearCommand s with hid := { (clearCommand s).hid with phase := .authPass } }
        ⟨rfl, rfl, rfl, rfl, rfl, rfl, rfl⟩ he

/-! ## How an engine step ends (R178, R180, R181) -/

/-- What an engine step has made of `s` when an access fails, in the fields that the failure records. -/
structure Engaged (s u : State) : Prop where
  status    : u.status = s.status
  intStatus : u.intStatus = s.intStatus
  tag       : u.tag = s.tag

/-- An engine step with no failure: the command goes on, with less to do, or is complete. -/
structure Goes (s t : State) : Prop where
  err     : t.status.err = s.status.err
  error   : t.error = s.error
  errAddr : t.errAddr = s.errAddr
  intErr  : t.intStatus.err = s.intStatus.err
  flags   : (t.status.busy = true ∧ t.status.done = s.status.done) ∨
    (t.status.busy = false ∧ t.status.done = true ∧ t.intStatus.done = true)
  work    : t.status.busy = true → workLeft t < workLeft s

/-- The ends of an engine step. A running command fails with BUS or AUTH only. -/
inductive EngineEnd (s t : State) : Prop
  | failed (c : ErrCode) (a : Word) (u : State) (hc : c = .bus ∨ c = .auth) (hu : Engaged s u) (h : t = failAt c a u)
  | goes (h : Goes s t)

theorem EngineEnd.of_bus {s u : State} {a : Word} (hu : Engaged s u) : EngineEnd s (failAt .bus a u) :=
  .failed .bus a u (.inl rfl) hu rfl

theorem lenBytes_congr {s t : State} (h : t.len = s.len) : lenBytes t = lenBytes s := by
  rw [lenBytes, h, lenBytes]

theorem requiredBits_congr {s t : State} (h : t.len = s.len) : requiredBits t = requiredBits s := by
  rw [requiredBits, lenBytes_congr h, requiredBits]

theorem workLeft_embed {s : State} (h : s.hid.op = .embed) : workLeft s = requiredBits s - s.hid.k := by
  rw [workLeft, h]

theorem workLeft_extract {s : State} (h : s.hid.op = .extract) : workLeft s = capacityBits s - s.hid.k := by
  rw [workLeft, h]

theorem workLeft_aeadEnc {s : State} (h : s.hid.op = .aeadEnc) : workLeft s = lenBytes s - s.hid.k := by
  rw [workLeft, h]

theorem workLeft_auth {s : State} (h : s.hid.op = .aeadDec) (hp : s.hid.phase = .authPass) :
    workLeft s = 2 * lenBytes s - s.hid.k := by
  rw [workLeft, h, hp]

theorem workLeft_write {s : State} (h : s.hid.op = .aeadDec) (hp : s.hid.phase = .writePass) :
    workLeft s = lenBytes s - s.hid.k := by
  rw [workLeft, h, hp]

theorem embedStep_end {s : State} (hb : s.status.busy = true) (hop : s.hid.op = .embed) (hrun : EmbedRuns s) :
    EngineEnd s (embedStep s) := by
  have hready := (embedCheck_none s).1 hrun.checks
  obtain ⟨a, cur, he⟩ | ⟨cur, -, -, he⟩ := embedStep_cases s
  · rw [he]
    exact .of_bus ⟨rfl, rfl, rfl⟩
  · have hlen : (embedStep s).len = s.len := (exec_keeps (exec_embed_busy hb)).len
    obtain ⟨-, -, hhid, hstatus, hdone, herr, herror, haddr⟩ :=
      embedTail_counters (s := embedWritten s cur) hrun.cursor hready.capacity hrun.counters.pixDone
    rw [show embedTail s.hid.k (embedWritten s cur) = embedStep s from he.symm] at hhid hstatus hdone herr herror haddr
    have hreq : requiredBits (embedWritten s cur) = requiredBits s := rfl
    rw [hreq] at hstatus hdone
    refine .goes ⟨?_, herror, haddr, herr, ?_, fun _ => ?_⟩
    · rw [hstatus]
      split <;> rfl
    · rw [hstatus]
      split
      case isTrue hl => exact .inr ⟨rfl, rfl, by rw [hdone, decide_eq_true hl, Bool.or_true]⟩
      case isFalse => exact .inl ⟨hb, rfl⟩
    · have hcursor := hrun.cursor
      rw [workLeft_embed hop, workLeft_embed (by rw [hhid]; exact hop), requiredBits_congr hlen, hhid]
      show requiredBits s - (s.hid.k + 1) < requiredBits s - s.hid.k
      omega

/-- Every outcome of an engine step of EXTRACT: a bus error, or the accesses and the tail. -/
theorem extractStep_outcome (s : State) :
    extractStep s = failAt .bus (byteAddr s.imgBase s.hid.k) s ∨
    extractStep s = failAt .bus (byteAddr s.dstBase ((s.hid.k + 1) / 8 - 1)) (extractRead s) ∨
    extractStep s = extractTail s.hid.k (extractAccessed s) := by
  rw [extractAccessed]
  obtain he | ⟨h8, he⟩ | ⟨-, he⟩ | ⟨h8, -, he⟩ := extractStep_cases s
  · exact .inl he
  · exact .inr (.inr (by rw [if_neg h8]; exact he))
  · exact .inr (.inl he)
  · exact .inr (.inr (by rw [if_pos h8]; exact he))

theorem extractStep_end {s : State} (hb : s.status.busy = true) (hop : s.hid.op = .extract) (hrun : ExtractRuns s) :
    EngineEnd s (extractStep s) := by
  obtain he | he | he := extractStep_outcome s
  · rw [he]
    exact .of_bus ⟨rfl, rfl, rfl⟩
  · rw [he]
    exact .of_bus ⟨rfl, rfl, rfl⟩
  · have hdim : (extractStep s).dim = s.dim := (exec_keeps (exec_extract_busy hb)).dim
    obtain ⟨hupix, -, hustatus, huint, huerror, hudim, huhid, -⟩ := extractAccessed_record s
    have hcap := capacityBits_congr hudim
    obtain ⟨-, hstatus, hdone, herr⟩ := extractTail_counters (s := extractAccessed s) (k := s.hid.k)
      (by rw [hcap]; exact hrun.cursor) (by rw [hupix]; exact hrun.counters.pixDone)
    obtain ⟨-, hhid, -, -, herror⟩ := extractTail_kept s.hid.k (extractAccessed s)
    have haddr : (extractTail s.hid.k (extractAccessed s)).errAddr = s.errAddr := by
      obtain ⟨_, _, _, _, _, _, _, hshape⟩ := extractTail_shape s.hid.k (extractAccessed s)
      rw [hshape, extractAccessed]
      split <;> rfl
    rw [← he] at hstatus hdone herr hhid herror haddr
    rw [hcap, hustatus] at hstatus
    rw [hcap, huint] at hdone
    rw [huhid] at hhid
    refine .goes ⟨?_, herror.trans huerror, haddr, herr.trans (by rw [huint]), ?_, fun _ => ?_⟩
    · rw [hstatus]
      split <;> rfl
    · rw [hstatus]
      split
      case isTrue hl => exact .inr ⟨rfl, rfl, by rw [hdone, decide_eq_true hl, Bool.or_true]⟩
      case isFalse => exact .inl ⟨hb, rfl⟩
    · have hcursor := hrun.cursor
      rw [workLeft_extract hop, workLeft_extract (by rw [hhid]; exact hop), capacityBits_congr hdim, hhid]
      show capacityBits s - (s.hid.k + 1) < capacityBits s - s.hid.k
      omega

theorem aeadEncStep_end {s : State} (hb : s.status.busy = true) (hop : s.hid.op = .aeadEnc) (hrun : AeadEncRuns s) :
    EngineEnd s (aeadEncStep s) := by
  obtain ⟨a, he⟩ | ⟨-, he⟩ := aeadEncStep_cases s <;> rw [he]
  · exact .of_bus ⟨rfl, rfl, rfl⟩
  · split
    case isTrue => exact .goes ⟨rfl, rfl, rfl, rfl, .inr ⟨rfl, rfl, rfl⟩, nofun⟩
    case isFalse =>
      refine .goes ⟨rfl, rfl, rfl, rfl, .inl ⟨hb, rfl⟩, fun _ => ?_⟩
      have hcursor := hrun.cursor
      rw [workLeft_aeadEnc hop, workLeft_aeadEnc (s := encByteDone s) hop]
      show lenBytes s - (s.hid.k + 1) < lenBytes s - s.hid.k
      omega

theorem aeadAuthStep_end {s : State} (hb : s.status.busy = true) (hop : s.hid.op = .aeadDec)
    (hp : s.hid.phase = .authPass) (hrun : AeadDecRuns s) : EngineEnd s (aeadAuthStep s) := by
  have hcursor := hrun.cursor
  obtain ⟨a, he⟩ | he := aeadAuthStep_cases s <;> rw [he]
  · exact .of_bus ⟨rfl, rfl, rfl⟩
  · split
    case isTrue hlast =>
      split
      case isTrue => exact .failed .auth 0 (authByteDone s) (.inr rfl) ⟨rfl, rfl, rfl⟩ rfl
      case isFalse =>
        refine .goes ⟨rfl, rfl, rfl, rfl, .inl ⟨hb, rfl⟩, fun _ => ?_⟩
        rw [workLeft_auth hop hp, workLeft_write (by exact hop) rfl]
        show lenBytes s - 0 < 2 * lenBytes s - s.hid.k
        omega
    case isFalse =>
      refine .goes ⟨rfl, rfl, rfl, rfl, .inl ⟨hb, rfl⟩, fun _ => ?_⟩
      rw [workLeft_auth hop hp, workLeft_auth (s := authByteDone s) hop hp]
      show 2 * lenBytes s - (s.hid.k + 1) < 2 * lenBytes s - s.hid.k
      omega

theorem aeadWriteStep_end {s : State} (hb : s.status.busy = true) (hop : s.hid.op = .aeadDec)
    (hp : s.hid.phase = .writePass) (hrun : AeadDecRuns s) : EngineEnd s (aeadWriteStep s) := by
  obtain ⟨a, he⟩ | ⟨-, he⟩ := aeadWriteStep_cases s <;> rw [he]
  · exact .of_bus ⟨rfl, rfl, rfl⟩
  · split
    case isTrue => exact .goes ⟨rfl, rfl, rfl, rfl, .inr ⟨rfl, rfl, rfl⟩, nofun⟩
    case isFalse =>
      refine .goes ⟨rfl, rfl, rfl, rfl, .inl ⟨hb, rfl⟩, fun _ => ?_⟩
      have hcursor := hrun.cursor
      rw [workLeft_write hop hp, workLeft_write (s := decByteDone s) hop hp]
      show lenBytes s - (s.hid.k + 1) < lenBytes s - s.hid.k
      omega

/-- Every end of an engine step of the executing command. -/
theorem exec_engine_end {s t : State} (hi : Inv s) (hb : s.status.busy = true) (h : exec s.hid.op s = .next t) :
    EngineEnd s t := by
  cases hop : s.hid.op with
  | capq => exact absurd hop (hi.notCapq hb)
  | embed =>
    rw [hop] at h
    cases (exec_embed_busy hb).symm.trans h
    exact embedStep_end hb hop (hi.embedRuns hb hop)
  | extract =>
    rw [hop] at h
    cases (exec_extract_busy hb).symm.trans h
    exact extractStep_end hb hop (hi.extractRuns hb hop)
  | aeadEnc =>
    rw [hop] at h
    cases (exec_aeadEnc_busy hb).symm.trans h
    exact aeadEncStep_end hb hop (hi.aeadEncRuns hb hop)
  | aeadDec =>
    rw [hop] at h
    have hrun := hi.aeadDecRuns hb hop
    obtain ⟨hidle, -⟩ | ⟨-, hp, rfl⟩ | ⟨-, hp, rfl⟩ := exec_aeadDec_cases h
    · cases hb.symm.trans hidle
    · exact aeadAuthStep_end hb hop hp hrun
    · exact aeadWriteStep_end hb hop hp hrun

/-! ## What a failure and a completion record (R180, R181) -/

/-- Settles O47: a failing start step and a failing engine step. -/
theorem failureRecord : Obligations.FailureRecord := by
  unfold Obligations.FailureRecord
  intro i s t hi hop h herr
  have hkeeps := exec_keeps h
  cases hb : s.status.busy with
  | false =>
    cases exec_start_end hb h with
    | failed c u hu ht =>
      subst ht
      obtain ⟨u', hu', herror, -, hfails, -⟩ := exec_start_outcome i hb
      cases hu'.symm.trans h
      exact ⟨rfl, hu.done, hfails.1 rfl, rfl, rfl, by rw [← hu.intStatus]; rfl, fun hne => if_neg hne, hkeeps,
        hu.tag, nofun, fun _ => hu.prog⟩
    | begun u hu ht => subst ht; cases hu.err.symm.trans herr
    | completed u hu ht => subst ht; cases hu.err.symm.trans herr
  | true =>
    cases hop hb
    obtain ⟨hdone, hnoerr⟩ := hi.busyFlags hb
    cases exec_engine_end hi hb h with
    | failed c a u hc hu ht =>
      subst ht
      have hdone' : u.status.done = false := by rw [hu.status]; exact hdone
      refine ⟨rfl, hdone', ?_, rfl, rfl, by rw [← hu.intStatus]; rfl, fun hne => if_neg hne, hkeeps, hu.tag,
        fun _ => hc, nofun⟩
      obtain rfl | rfl := hc <;> nofun
    | goes hgoes => cases (hgoes.err.trans hnoerr).symm.trans herr

/-- Settles O48: CAPQ's start step and the last engine step of the other commands. -/
theorem completionRecord : Obligations.CompletionRecord := by
  unfold Obligations.CompletionRecord
  intro i s t hi hop h hdone
  cases hb : s.status.busy with
  | false =>
    cases exec_start_end hb h with
    | failed c u hu ht => subst ht; cases hu.done.symm.trans hdone
    | begun u hu ht => subst ht; cases hu.done.symm.trans hdone
    | completed u hu ht =>
      subst ht
      exact ⟨rfl, hu.err, hu.error, hu.errAddr, rfl, by rw [← hu.intStatus]; rfl⟩
  | true =>
    cases hop hb
    obtain ⟨hnotdone, hnoerr⟩ := hi.busyFlags hb
    cases exec_engine_end hi hb h with
    | failed c a u hc hu ht =>
      subst ht
      have hdone' : u.status.done = false := by rw [hu.status]; exact hnotdone
      cases hdone'.symm.trans hdone
    | goes hgoes =>
      obtain ⟨-, hd⟩ | ⟨hidle, -, hint⟩ := hgoes.flags
      · cases (hd.trans hnotdone).symm.trans hdone
      · exact ⟨hidle, hgoes.err.trans hnoerr, hgoes.error.trans (hi.noError hb), hgoes.errAddr.trans (hi.noErrAddr hb),
          hint, hgoes.intErr⟩

end Sys2Proof.Machine
end

section
/-! PROOF. The statements on the emissions of an engine step (40_host_interface.md R182 to R187), on errors and operands
through any step (30_encoding.md R142, 44_embed.md R277), and on reset (70_reset_and_hazards.md R370 to R372). -/

namespace Sys2Proof.Machine

/-! ## Emissions (R183, R185) -/

/-- The port's seven bits carry every value up to 100 exactly. -/
theorem Emits.values {s t : State} {vs : List Nat} (h : Emits s t vs) (hs : s.prog = []) :
    t.prog.map BitVec.toNat = vs := by
  rw [h.port, hs, List.nil_append, List.map_map]
  refine (List.map_congr_left fun v hv => ?_).trans (List.map_id vs)
  have hle := h.bounded v hv
  show v % 2 ^ 7 = v
  omega

theorem getLastD_le {a b : Nat} {vs : List Nat} (ha : a ≤ b) (h : ∀ v ∈ vs, v ≤ b) : vs.getLastD a ≤ b := by
  rw [List.getLastD_eq_getLast?]
  cases hl : vs.getLast? with
  | none => exact ha
  | some w => exact h w (List.mem_of_getLast? hl)

/-- PROG_COUNT does not overflow: the values lie between PROGRESS and 100 (R186). -/
theorem Emits.progCount {s t : State} {vs : List Nat} (h : Emits s t vs) (hp : s.progress.toNat ≤ 100)
    (hc : s.progCount.toNat ≤ 100) : t.progCount.toNat = s.progCount.toNat + vs.length := by
  have hlen := h.length_le
  have hlast : vs.getLastD s.progress.toNat ≤ 100 := getLastD_le hp h.bounded
  rw [h.count, BitVec.toNat_add, BitVec.toNat_ofNat]
  omega

/-- Settles O46: a failing step emits nothing, and any other the rising values of `exec_emits`. -/
theorem emissionsOfAStep : Obligations.EmissionsOfAStep := by
  unfold Obligations.EmissionsOfAStep
  intro s t hi hb hprog h
  obtain ⟨herr, hport, hcount, hpending, hdone⟩ | ⟨vs, hemits, hscan, haead⟩ := exec_emits hi hb h
  · rw [hport, hprog, hcount, hpending, herr, hdone]
    exact ⟨.nil, nofun, rfl, (Bool.or_false _).symm, nofun, fun _ => nofun, fun _ => rfl⟩
  · have hrising := List.pairwise_cons.1 hemits.rising
    rw [hemits.values hprog]
    exact ⟨hrising.2, fun v hv => ⟨hrising.1 v hv, hemits.bounded v hv⟩, hemits.progCount hi.progress hi.progCount,
      hemits.pending, fun _ => hemits.latest, hscan, haead⟩

/-! ## What a register-port access does (R171 to R177) -/

/-- The ends of an access: its response alone, a register write, or a command's start with its open values. -/
inductive PortEnd (s t : State) : Prop
  | response (r : PortResponse) (h : t = { s with resp := some r })
  | write (o : BitVec 8) (v : Word) (hr : s.rstN = true) (h : t = writeOffset o v { s with resp := some .writeOkay })
  | issued (i : Instr) (u : State) (hb : s.status.busy = false)
      (hu : exec i { s with resp := some .writeOkay } = .next u) (h : t = afterExec u)
  | illegal (hb : s.status.busy = false) (h : t = afterExec (illegalCommand { s with resp := some .writeOkay }))

theorem portTurn_end {a : PortAccess} {s t : State} (h : portTurn a s = .next t) : PortEnd s t := by
  rw [portTurn.eq_def] at h
  split at h
  case isTrue => cases h; exact .response _ rfl
  case isFalse hlive =>
    cases a with
    | read z o => cases h; exact .response _ rfl
    | write z o v =>
      dsimp only [portWrite] at h
      split at h
      case isTrue hissue =>
        rw [issue] at h
        split at h
        · obtain ⟨u, hu, rfl⟩ := mapNext_next h
          exact .issued _ u hissue.2 hu rfl
        · cases h; exact .illegal hissue.2 rfl
      case isFalse =>
        cases h
        refine .write o v ?_ rfl
        cases hr : s.rstN
        · simp [hr] at hlive
        · rfl

/-! ## INTERNAL (R277, R331) -/

theorem firstFailing_ne {c : ErrCode} (hc : c ≠ .none) {checks : List (ErrCode × Bool)} (h : ∀ x ∈ checks, x.1 ≠ c) :
    firstFailing checks ≠ c := by
  induction checks with
  | nil => exact hc.symm
  | cons x rest ih =>
    rw [firstFailing]
    split
    · exact h x List.mem_cons_self
    · exact ih fun y hy => h y (List.mem_cons_of_mem x hy)

/-- No start check has the code INTERNAL. -/
theorem exec_start_error {i : Instr} {s t : State} (hb : s.status.busy = false) (h : exec i s = .next t) :
    t.error ≠ .internal := by
  obtain ⟨u, hu, herror, -⟩ := exec_start_outcome i hb
  cases hu.symm.trans h
  rw [herror]
  refine firstFailing_ne (by decide) ?_
  cases i <;> simp [checksInOrder]

theorem exec_engine_error {s t : State} (hi : Inv s) (hb : s.status.busy = true) (h : exec s.hid.op s = .next t) :
    t.error ≠ .internal := by
  cases exec_engine_end hi hb h with
  | failed c a u hc hu ht =>
    rw [ht, failAt_error]
    obtain rfl | rfl := hc <;> nofun
  | goes hgoes =>
    rw [hgoes.error, hi.noError hb]
    nofun

theorem engineTurn_error {s t : State} (hi : Inv s) (he : s.error ≠ .internal) (h : engineTurn s = .next t) :
    t.error ≠ .internal := by
  cases hb : s.status.busy with
  | false => cases (engineTurn_idle hb).symm.trans h; exact he
  | true =>
    obtain rfl | ⟨u, hu, rfl⟩ := engineTurn_cases h
    · exact he
    · rw [afterExec_error]
      exact exec_engine_error hi hb hu

theorem portTurn_error {a : PortAccess} {s t : State} (he : s.error ≠ .internal) (h : portTurn a s = .next t) :
    t.error ≠ .internal := by
  cases portTurn_end h with
  | response r ht => rw [ht]; exact he
  | write o v hr ht => rw [ht, (sameRecord_writeOffset o v _).error]; exact he
  | issued i u hb hu ht => rw [ht, afterExec_error]; exact exec_start_error (by exact hb) hu
  | illegal hb ht => rw [ht, afterExec_error]; nofun

/-- Settles O58: a step's error is none, one of a start check's codes, BUS or AUTH, or the one that stood. -/
theorem internalUnreachable : Obligations.InternalUnreachable := by
  unfold Obligations.InternalUnreachable
  intro s t hi h he
  obtain ⟨rest, hturn⟩ := turn_of_step h
  have hi0 := hi.takeEvent rest
  have he : ({ clearOutputs s with inbox := rest } : State).error ≠ .internal := he
  cases hturn with
  | engine h => exact engineTurn_error hi0 he h
  | access a h => exact portTurn_error he h
  | accessFirst a u hb hu ht => exact engineTurn_error (hi0.portTurn hu) (portTurn_error he hu) ht
  | engineFirst a u hb hu ht => exact portTurn_error (engineTurn_error hi0 he hu) ht
  | store a v h => rw [h, hostStore]; split <;> exact he
  | responder ws h => rw [h]; exact he
  | resetAssert h => rw [h]; nofun
  | resetRelease h =>
    rw [h, releaseReset]
    split
    · exact he
    · nofun

/-! ## Operands while a command executes (R142, R174) -/

/-- The operand registers but for TAG are the same in `s` and `t`. -/
structure SameOperands (s t : State) : Prop where
  dim     : t.dim = s.dim
  imgBase : t.imgBase = s.imgBase
  srcBase : t.srcBase = s.srcBase
  dstBase : t.dstBase = s.dstBase
  len     : t.len = s.len
  key     : t.key = s.key
  iv      : t.iv = s.iv

theorem SameOperands.refl (s : State) : SameOperands s s := ⟨rfl, rfl, rfl, rfl, rfl, rfl, rfl⟩

theorem SameOperands.trans {s t u : State} (h : SameOperands s t) (k : SameOperands t u) : SameOperands s u :=
  ⟨k.dim.trans h.dim, k.imgBase.trans h.imgBase, k.srcBase.trans h.srcBase, k.dstBase.trans h.dstBase,
    k.len.trans h.len, k.key.trans h.key, k.iv.trans h.iv⟩

theorem SameOperands.response (s : State) (r : Option PortResponse) : SameOperands s { s with resp := r } :=
  ⟨rfl, rfl, rfl, rfl, rfl, rfl, rfl⟩

theorem sameOperands_illegalCommand (s : State) : SameOperands s (illegalCommand s) :=
  ⟨rfl, rfl, rfl, rfl, rfl, rfl, rfl⟩

theorem KeepsInputs.operands {s t : State} (h : KeepsInputs s t) : SameOperands s t :=
  ⟨h.dim, h.imgBase, h.srcBase, h.dstBase, h.len, h.key, h.iv⟩

theorem SameRun.operands {s t : State} (h : SameRun s t) : SameOperands s t :=
  ⟨h.dim, h.imgBase, h.srcBase, h.dstBase, h.len, h.key, h.iv⟩

theorem afterExec_operands (s : State) : SameOperands s (afterExec s) ∧ (afterExec s).tag = s.tag := by
  obtain ⟨_, _, _, _, h⟩ := afterExec_shape s
  rw [h]
  exact ⟨⟨rfl, rfl, rfl, rfl, rfl, rfl, rfl⟩, rfl⟩

/-- A start step, and every step of a command but AEAD_ENC, keeps TAG. -/
theorem exec_tag {i : Instr} {s t : State} (h : exec i s = .next t) (hi : s.status.busy = true → i ≠ .aeadEnc) :
    t.tag = s.tag := by
  cases hb : s.status.busy with
  | false =>
    cases exec_start_end hb h with
    | failed c u hu ht => rw [ht]; exact hu.tag
    | begun u hu ht => rw [ht]; exact hu.tag
    | completed u hu ht => rw [ht]; exact hu.tag
  | true =>
    cases i with
    | capq => rw [exec, execCapq, hb] at h; cases h
    | embed => exact (embedFrame s t h).2.1
    | extract => exact (extractFrame s t h).2.1
    | aeadEnc => exact absurd rfl (hi hb)
    | aeadDec => exact (exec_aeadDec_tag h).1

theorem engineTurn_operands {s t : State} (h : engineTurn s = .next t) :
    SameOperands s t ∧ (s.hid.op ≠ .aeadEnc → t.tag = s.tag) := by
  obtain rfl | ⟨u, hu, rfl⟩ := engineTurn_cases h
  · exact ⟨.refl t, fun _ => rfl⟩
  · obtain ⟨hsame, htag⟩ := afterExec_operands u
    exact ⟨(exec_keeps hu).operands.trans hsame, fun hne => htag.trans (exec_tag hu fun _ => hne)⟩

theorem portTurn_operands {a : PortAccess} {s t : State} (h : portTurn a s = .next t) (hb : t.status.busy = true) :
    SameOperands s t ∧ t.tag = s.tag := by
  have hresp := SameOperands.response s (some .writeOkay)
  cases portTurn_end h with
  | response r ht => rw [ht]; exact ⟨.response s _, rfl⟩
  | write o v hr ht =>
    rw [ht, (sameRecord_writeOffset o v _).busy] at hb
    have hrun := sameRun_writeOffset hb o v
    rw [ht]
    exact ⟨hresp.trans hrun.operands, hrun.tag⟩
  | issued i u hidle hu ht =>
    obtain ⟨hsame, htag⟩ := afterExec_operands u
    have hstart := exec_tag hu fun hbusy => by cases hidle.symm.trans hbusy
    rw [ht]
    exact ⟨(hresp.trans (exec_keeps hu).operands).trans hsame, htag.trans hstart⟩
  | illegal hidle ht =>
    obtain ⟨hsame, htag⟩ := afterExec_operands (illegalCommand { s with resp := some .writeOkay })
    rw [ht]
    exact ⟨(hresp.trans (sameOperands_illegalCommand _)).trans hsame, htag⟩

/-- The operands of the executing command through a turn at whose end a command executes. -/
theorem turn_operands {s t : State} (hs : s.status.busy = true) (h : Turn s t) (ht : t.status.busy = true) :
    SameOperands s t ∧ (s.hid.op ≠ .aeadEnc → t.tag = s.tag) := by
  cases h with
  | engine h => exact engineTurn_operands h
  | access a h =>
    obtain ⟨hsame, htag⟩ := portTurn_operands h ht
    exact ⟨hsame, fun _ => htag⟩
  | accessFirst a u hb hu hend =>
    obtain ⟨w, hw, hwb, hwhid, -⟩ := portTurn_busy (a := a) hs
    cases hw.symm.trans hu
    obtain ⟨hsame, htag⟩ := portTurn_operands hu hwb
    obtain ⟨hsame', htag'⟩ := engineTurn_operands hend
    exact ⟨hsame.trans hsame', fun hne => (htag' (hwhid ▸ hne)).trans htag⟩
  | engineFirst a u hb hu hend =>
    obtain ⟨hsame, htag⟩ := engineTurn_operands hu
    obtain ⟨hsame', htag'⟩ := portTurn_operands hend ht
    exact ⟨hsame.trans hsame', fun hne => htag'.trans (htag hne)⟩
  | store a v h =>
    rw [h, hostStore]
    split <;> exact ⟨⟨rfl, rfl, rfl, rfl, rfl, rfl, rfl⟩, fun _ => rfl⟩
  | responder ws h => rw [h]; exact ⟨⟨rfl, rfl, rfl, rfl, rfl, rfl, rfl⟩, fun _ => rfl⟩
  | resetAssert h => rw [h] at ht; cases ht
  | resetRelease h =>
    rw [h, releaseReset] at ht
    rw [h, releaseReset]
    split at ht
    · rw [if_pos ‹_›]; exact ⟨.refl s, fun _ => rfl⟩
    · cases ht

/-- Settles O59: an engine's turn keeps the operands, and an access that leaves a command executing does. -/
theorem operandsConstantWhileBusy : Obligations.OperandsConstantWhileBusy := by
  unfold Obligations.OperandsConstantWhileBusy
  intro s t hs h ht
  obtain ⟨rest, hturn⟩ := turn_of_step h
  obtain ⟨⟨hdim, himg, hsrc, hdst, hlen, hkey, hiv⟩, htag⟩ :=
    turn_operands (s := { clearOutputs s with inbox := rest }) hs hturn ht
  exact ⟨hdim, himg, hsrc, hdst, hlen, hkey, hiv, htag⟩

/-! ## Reset (R370, R372) -/

/-- Settles O20: while reset holds, an access is its ERROR response, the engine has no turn, and a release is the reset
of every register. -/
theorem resetHeldThenReleased : Obligations.ResetHeldThenReleased := by
  unfold Obligations.ResetHeldThenReleased
  intro s rest hi hr
  refine ⟨fun a hin => ?_, fun hin => ?_, fun hin => ⟨s.free + 1, ?_⟩⟩
  · rw [step_access hin, portTurn.eq_def, if_pos (by simp [hr])]
    rfl
  · rw [step_quiet hin, engineTurn, if_neg (by simp [hr])]
    rfl
  · have hrelease : step s = .next (releaseReset { clearOutputs s with inbox := rest }) := step_event hin
    rw [hrelease, releaseReset, if_neg (by simp [hr])]
    rfl

/-- With no racing store, memory at reset is the state's or that of the engine step in flight (U7). -/
theorem memoryAtReset_cases {s : State} (hr : s.racing = []) :
    memoryAtReset s = s.mem ∨ ∃ u, exec s.hid.op s = .next u ∧ memoryAtReset s = u.mem := by
  rw [memoryAtReset, hr]
  dsimp only [landStores]
  split
  · cases exec s.hid.op s with
    | next u => exact .inr ⟨u, rfl, rfl⟩
    | fault r => exact .inl rfl
    | refused r => exact .inl rfl
  · exact .inl rfl

/-- Settles O21: the state after the step is at its reset values. -/
theorem resetDuringCommand : Obligations.ResetDuringCommand := by
  unfold Obligations.ResetDuringCommand
  intro s rest hb hr hin
  exact ⟨_, step_resetAssert hin, rfl, rfl, rfl,
    memoryAtReset_cases (s := { clearOutputs s with inbox := rest }) hr⟩

end Sys2Proof.Machine
end

section
/-! PROOF. The statement on a clear of INT_STATUS in the same step as an engine step (10_state.md R42): an engine step only
sets bits of INT_STATUS, whatever the bits before it. -/

namespace Sys2Proof.Machine

/-! ## Bits of INT_STATUS that stand before a step (R42) -/

/-- `s` with the bits of `b` set in INT_STATUS too, and the response `r`: what an engine step does not see. -/
def withPending (b : IntBits) (r : Option PortResponse) (s : State) : State :=
  { s with
    intStatus := ⟨b.done || s.intStatus.done, b.err || s.intStatus.err, b.prog || s.intStatus.prog⟩
    resp := r }

variable (b : IntBits) (r : Option PortResponse)

theorem withPending_zero (s : State) :
    withPending b r { s with intStatus := IntBits.zero } = { s with intStatus := b, resp := r } := by
  simp [withPending, IntBits.zero]

theorem complete_withPending (s : State) : complete (withPending b r s) = withPending b r (complete s) := by
  simp [complete, withPending]

theorem failAt_withPending (c : ErrCode) (a : Word) (s : State) :
    failAt c a (withPending b r s) = withPending b r (failAt c a s) := by
  simp [failAt, withPending]

theorem fail_withPending (c : ErrCode) (s : State) : fail c (withPending b r s) = withPending b r (fail c s) :=
  failAt_withPending b r c 0 s

theorem emit_withPending (v : Nat) (s : State) : emit v (withPending b r s) = withPending b r (emit v s) := by
  simp [emit, withPending]

theorem pixelCheck_withPending (t : Nat) (s : State) :
    pixelCheck t (withPending b r s) = withPending b r (pixelCheck t s) := by
  rw [pixelCheck, pixelCheck]
  dsimp only
  rw [apply_ite (withPending b r), ← emit_withPending]
  rfl

theorem finalEmission_withPending (s : State) :
    finalEmission (withPending b r s) = withPending b r (finalEmission s) := by
  rw [finalEmission, finalEmission, apply_ite (withPending b r), ← emit_withPending]
  rfl

/-! ## The engine steps -/

theorem embedTail_withPending (k : Nat) (s : State) :
    embedTail k (withPending b r s) = withPending b r (embedTail k s) := by
  have hcursor : setCursor (k + 1) (withPending b r s) = withPending b r (setCursor (k + 1) s) := rfl
  have hreq : requiredBits (withPending b r s) = requiredBits s := rfl
  have hcap : capacityBits (withPending b r s) = capacityBits s := rfl
  simp only [embedTail, hcursor, hreq, hcap, fail, pixelCheck_withPending, ← apply_ite (withPending b r),
    finalEmission_withPending, complete_withPending, failAt_withPending]

theorem embedStep_withPending (s : State) : embedStep (withPending b r s) = withPending b r (embedStep s) := by
  cases hc : embedCur s.hid.k s with
  | none =>
    rw [embedStep_srcErr hc, embedStep_srcErr (by exact hc), ← failAt_withPending]
    rfl
  | some cur =>
    by_cases himg : readErr s (byteAddr s.imgBase s.hid.k).toNat = true ∨
        writeErr s (byteAddr s.imgBase s.hid.k).toNat = true
    · rw [embedStep_imgErr hc himg, embedStep_imgErr (by exact hc) (by exact himg), ← failAt_withPending]
      rfl
    · simp only [not_or, Bool.not_eq_true] at himg
      obtain ⟨hr, hw⟩ := himg
      rw [embedStep_okay hc hr hw, embedStep_okay (by exact hc) (by exact hr) (by exact hw), ← embedTail_withPending]
      rfl

theorem extractTail_withPending (k : Nat) (s : State) :
    extractTail k (withPending b r s) = withPending b r (extractTail k s) := by
  have hcap : capacityBits (withPending b r s) = capacityBits s := rfl
  simp only [extractTail, hcap, pixelCheck_withPending, ← apply_ite (withPending b r), finalEmission_withPending,
    complete_withPending]

theorem extractAccessed_withPending (s : State) :
    extractAccessed (withPending b r s) = withPending b r (extractAccessed s) := by
  rw [extractAccessed, extractAccessed, apply_ite (withPending b r)]
  rfl

theorem extractStep_withPending (s : State) : extractStep (withPending b r s) = withPending b r (extractStep s) := by
  cases hr : readErr s (byteAddr s.imgBase s.hid.k).toNat with
  | true =>
    rw [extractStep_readErr hr, extractStep_readErr (by exact hr), ← failAt_withPending]
    rfl
  | false =>
    by_cases hw : (s.hid.k + 1) % 8 = 0 ∧ writeErr s (byteAddr s.dstBase ((s.hid.k + 1) / 8 - 1)).toNat = true
    · obtain ⟨h8, hw⟩ := hw
      rw [extractStep_writeErr hr h8 hw, extractStep_writeErr (by exact hr) (by exact h8) (by exact hw),
        ← failAt_withPending]
      rfl
    · have hw' (h8 : (s.hid.k + 1) % 8 = 0) :
          writeErr s (byteAddr s.dstBase ((s.hid.k + 1) / 8 - 1)).toNat = false := by
        rw [← Bool.not_eq_true]
        exact fun hbad => hw ⟨h8, hbad⟩
      rw [extractStep_okay hr hw', extractStep_okay (by exact hr) (by exact hw'), extractAccessed_withPending,
        ← extractTail_withPending]
      rfl

theorem aeadEncStep_withPending (s : State) : aeadEncStep (withPending b r s) = withPending b r (aeadEncStep s) := by
  cases hr : readErr s (byteAddr s.srcBase s.hid.k).toNat with
  | true =>
    rw [aeadEncStep_readErr hr, aeadEncStep_readErr (by exact hr), ← failAt_withPending]
    rfl
  | false =>
    cases hw : writeErr s (byteAddr s.dstBase s.hid.k).toNat with
    | true =>
      rw [aeadEncStep_writeErr hr hw, aeadEncStep_writeErr (by exact hr) (by exact hw), ← failAt_withPending]
      rfl
    | false =>
      rw [aeadEncStep_okay hr hw, aeadEncStep_okay (by exact hr) (by exact hw), apply_ite (withPending b r),
        ← complete_withPending]
      rfl

theorem aeadAuthStep_withPending (s : State) : aeadAuthStep (withPending b r s) = withPending b r (aeadAuthStep s) := by
  cases hr : readErr s (byteAddr s.srcBase s.hid.k).toNat with
  | true =>
    rw [aeadAuthStep_readErr hr, aeadAuthStep_readErr (by exact hr), ← failAt_withPending]
    rfl
  | false =>
    rw [aeadAuthStep_okay hr, aeadAuthStep_okay (by exact hr), apply_ite (withPending b r),
      apply_ite (withPending b r), ← fail_withPending]
    rfl

theorem aeadWriteStep_withPending (s : State) :
    aeadWriteStep (withPending b r s) = withPending b r (aeadWriteStep s) := by
  cases hr : readErr s (byteAddr s.srcBase s.hid.k).toNat with
  | true =>
    rw [aeadWriteStep_readErr hr, aeadWriteStep_readErr (by exact hr), ← failAt_withPending]
    rfl
  | false =>
    cases hw : writeErr s (byteAddr s.dstBase s.hid.k).toNat with
    | true =>
      rw [aeadWriteStep_writeErr hr hw, aeadWriteStep_writeErr (by exact hr) (by exact hw), ← failAt_withPending]
      rfl
    | false =>
      rw [aeadWriteStep_okay hr hw, aeadWriteStep_okay (by exact hr) (by exact hw), apply_ite (withPending b r),
        ← complete_withPending]
      rfl

/-- Bits that stand before an engine step stand after it, beside those it sets. -/
theorem exec_withPending {i : Instr} {s t : State} (hb : s.status.busy = true) (h : exec i s = .next t) :
    exec i (withPending b r s) = .next (withPending b r t) := by
  have hb' : (withPending b r s).status.busy = true := hb
  cases i with
  | capq => rw [exec, execCapq, if_pos hb] at h; cases h
  | embed =>
    cases (exec_embed_busy hb).symm.trans h
    rw [exec_embed_busy hb', embedStep_withPending]
  | extract =>
    cases (exec_extract_busy hb).symm.trans h
    rw [exec_extract_busy hb', extractStep_withPending]
  | aeadEnc =>
    cases (exec_aeadEnc_busy hb).symm.trans h
    rw [exec_aeadEnc_busy hb', aeadEncStep_withPending]
  | aeadDec =>
    obtain ⟨hidle, -⟩ | ⟨-, hp, rfl⟩ | ⟨-, hp, rfl⟩ := exec_aeadDec_cases h
    · cases hb.symm.trans hidle
    · rw [exec_aeadDec_auth hb' hp, aeadAuthStep_withPending]
    · rw [exec_aeadDec_write hb' hp, aeadWriteStep_withPending]

end Sys2Proof.Machine
end

section
/-! PROOF. The statement that a set of an INT_STATUS bit wins (10_state.md R42), from the section before. -/

namespace Sys2Proof.Machine

@[simp] theorem afterExec_intStatus (s : State) : (afterExec s).intStatus = s.intStatus := by
  obtain ⟨_, _, _, _, h⟩ := afterExec_shape s
  rw [h]

/-- A clear of INT_STATUS, as a step of its own. -/
theorem step_clearsInt {s : State} {v : Word} {rest : List HostEvent} (hr : s.rstN = true)
    (h : s.inbox = .access (.write .word 0x20 v) :: rest) :
    step s = .next { respond .writeOkay rest s with intStatus := intClear s.intStatus v } := by
  obtain ⟨-, -, hclear, -⟩ := acceptedRegisterWrites s 0x20 v rest h hr
  exact hclear rfl

/-- Settles O15: in either order the clear comes first, and the engine's step adds its bits to those that it leaves. -/
theorem intStatusSetWins : Obligations.IntStatusSetWins := by
  unfold Obligations.IntStatusSetWins
  intro s t v o rest hb hr hin ht
  have hfirst : o = .before ∨ accessClearsInt (.write .word 0x20 v) = true := .inr (accessClearsInt_iff.2 ⟨v, rfl⟩)
  obtain ⟨w, hw, hstep⟩ := step_coincide_before hb hr hin hfirst
  cases hw.symm.trans (step_clearsInt (s := { s with inbox := .access (.write .word 0x20 v) :: rest }) hr rfl)
  rw [step_engine (s := { s with inbox := .engine :: rest, intStatus := IntBits.zero }) rfl,
    engineTurn_busy (by exact hr) (by exact hb)] at ht
  obtain ⟨u, hu, rfl⟩ := mapNext_next ht
  have hset := exec_withPending (intClear s.intStatus v) (some .writeOkay) (by exact hb) hu
  have hcleared := withPending_zero (intClear s.intStatus v) (some .writeOkay) { clearOutputs s with inbox := rest }
  refine ⟨afterExec (withPending (intClear s.intStatus v) (some .writeOkay) u), ?_, ?_⟩
  · rw [hstep]
    exact congrArg (mapNext afterExec) ((congrArg (exec s.hid.op) hcleared).symm.trans hset)
  · rw [afterExec_intStatus, afterExec_intStatus]
    exact ⟨rfl, rfl, rfl⟩

end Sys2Proof.Machine
end

section
/-! PROOF. Runs of an executing command that no one disturbs (40_host_interface.md R188, R189): that it ends, and what a run
of steps needs of each step. -/

namespace Sys2Proof.Machine

/-! ## One engine step with nothing in the inbox (log 8) -/

theorem step_undisturbed {s u : State} (hi : Inv s) (hb : s.status.busy = true) (hin : s.inbox = [])
    (hu : exec s.hid.op (clearOutputs s) = .next u) : step s = .next (afterExec u) := by
  rw [step_quiet hin, engineTurn_busy (s := clearOutputs s) (by exact hi.outOfReset hb) (by exact hb), clearOutputs_hid,
    hu]
  rfl

theorem workLeft_pos {s : State} (hi : Inv s) (hb : s.status.busy = true) : 0 < workLeft s := by
  cases hop : s.hid.op with
  | capq => exact absurd hop (hi.notCapq hb)
  | embed =>
    have := (hi.embedRuns hb hop).cursor
    rw [workLeft_embed hop]
    omega
  | extract =>
    have := (hi.extractRuns hb hop).cursor
    rw [workLeft_extract hop]
    omega
  | aeadEnc =>
    have := (hi.aeadEncRuns hb hop).cursor
    rw [workLeft_aeadEnc hop]
    omega
  | aeadDec =>
    have hrun := hi.aeadDecRuns hb hop
    have := hrun.cursor
    cases hp : s.hid.phase with
    | run => exact absurd hp hrun.phase
    | authPass => rw [workLeft_auth hop hp]; omega
    | writePass => rw [workLeft_write hop hp]; omega

theorem workLeft_afterExec {s : State} (hb : s.status.busy = true) : workLeft (afterExec s) = workLeft s := by
  rw [afterExec, if_pos hb]
  split <;> rfl

@[simp] theorem afterExec_status (s : State) : (afterExec s).status = s.status := by
  obtain ⟨_, _, _, _, h⟩ := afterExec_shape s
  rw [h]

/-- An engine step that does not go on ends with exactly one of DONE and ERR. -/
theorem EngineEnd.oneEnd {s t : State} (h : EngineEnd s t) (hd : s.status.done = false) (he : s.status.err = false)
    (hb : t.status.busy = false) : t.status.done = !t.status.err := by
  cases h with
  | failed c a u hc hu ht =>
    rw [ht, failAt_status, hu.status, hd]
    rfl
  | goes hgoes =>
    obtain ⟨hbusy, -⟩ | ⟨-, hdone, -⟩ := hgoes.flags
    · cases hb.symm.trans hbusy
    · rw [hdone, hgoes.err, he]
      rfl

/-- An engine step that goes on leaves less to do. -/
theorem EngineEnd.workLeft_lt {s t : State} (h : EngineEnd s t) (hb : t.status.busy = true) :
    workLeft t < workLeft s := by
  cases h with
  | failed c a u hc hu ht => rw [ht] at hb; cases hb
  | goes hgoes => exact hgoes.work hb

/-! ## Runs of steps -/

theorem StepsTo.cons {n : Nat} {s t u : State} (h : step s = .next t) (k : StepsTo n t u) : StepsTo (n + 1) s u :=
  (run_succ h).trans k

theorem StepsTo.snoc {n : Nat} {s t u : State} (h : StepsTo n s t) (k : step t = .next u) : StepsTo (n + 1) s u := by
  induction n generalizing s with
  | zero => cases h; exact .cons k rfl
  | succ n ih =>
    cases hs : step s with
    | next w => exact .cons hs (ih ((run_succ hs).symm.trans h))
    | fault r =>
      have hc : Sys2Proof.core.step s = .fault r := hs
      simp only [StepsTo, Host.Core.run, hc] at h
      cases h
    | refused r =>
      have hc : Sys2Proof.core.step s = .refused r := hs
      simp only [StepsTo, Host.Core.run, hc] at h
      cases h

/-- A run of a start step and `n` engine steps, of which the last leaves `Q` and step `k` before it leaves `P k`. -/
theorem run_command {n : Nat} {s : State} (P : Nat → State → Prop) (Q : State → Prop) (hn : 0 < n)
    (start : ∃ u, step s = .next u ∧ P 0 u)
    (go : ∀ k t, k + 1 < n → P k t → ∃ u, step t = .next u ∧ P (k + 1) u)
    (last : ∀ k t, k + 1 = n → P k t → ∃ u, step t = .next u ∧ Q u) : ∃ t, StepsTo (1 + n) s t ∧ Q t := by
  obtain ⟨m, rfl⟩ := Nat.exists_eq_add_of_lt hn
  obtain ⟨u, hstart, hu⟩ := start
  obtain ⟨t, hrun, ht⟩ := stepsTo_induct (n := m) P hu fun k t hk => go k t (by omega)
  obtain ⟨v, hlast, hv⟩ := last m t (by omega) ht
  refine ⟨v, ?_, hv⟩
  have h := (StepsTo.cons hstart hrun).snoc hlast
  rwa [show 1 + (0 + m + 1) = m + 1 + 1 by omega]

/-- An executing command ends within its work left, by induction on it. -/
theorem ends_within (w : Nat) : ∀ s : State, workLeft s ≤ w → Inv s → s.status.busy = true → s.inbox = [] →
    ∃ n t, n ≤ w ∧ StepsTo n s t ∧ t.status.busy = false ∧ t.status.done = !t.status.err := by
  induction w with
  | zero => exact fun s hw hi hb _ => absurd (workLeft_pos hi hb) (by omega)
  | succ w ih =>
    intro s hw hi hb hin
    obtain ⟨u, hu⟩ := exec_next (i := s.hid.op) hi.clearOutputs fun _ => rfl
    have hstep := step_undisturbed hi hb hin hu
    have hend := exec_engine_end hi.clearOutputs hb hu
    obtain ⟨hdone, herr⟩ := hi.busyFlags hb
    cases hub : u.status.busy with
    | false =>
      refine ⟨1, afterExec u, by omega, StepsTo.cons hstep rfl, ?_, ?_⟩ <;> rw [afterExec_status]
      · exact hub
      · exact hend.oneEnd hdone herr hub
    | true =>
      have hless : workLeft (afterExec u) ≤ w := by
        have hlt : workLeft u < workLeft s := hend.workLeft_lt hub
        rw [workLeft_afterExec hub]
        omega
      have hbox : (afterExec u).inbox = [] := by
        obtain ⟨_, _, _, _, hshape⟩ := afterExec_shape u
        rw [hshape]
        exact (exec_keeps hu).inbox.trans hin
      obtain ⟨n, t, hn, hrun, ht⟩ := ih (afterExec u) hless (hi.step hstep) (by rw [afterExec_status]; exact hub) hbox
      exact ⟨n + 1, t, by omega, .cons hstep hrun, ht⟩

/-- Settles O60: each engine step ends the command or leaves less to do. -/
theorem commandsEnd : Obligations.CommandsEnd := by
  unfold Obligations.CommandsEnd
  exact fun s hi hb hin => ends_within (workLeft s) s (Nat.le_refl _) hi hb hin

/-! ## A command that is issued and then left alone -/

/-- `t` executes the command `i` that was issued in `s`, and nothing else is to come. -/
structure Executing (i : Instr) (s t : State) : Prop where
  inv      : Inv t
  busy     : t.status.busy = true
  op       : t.hid.op = i
  inbox    : t.inbox = []
  racing   : t.racing = []
  operands : SameOperands s t
  cfg      : t.cfg = s.cfg
  windows  : t.windows = s.windows

/-- The command `i` that was issued in `s` has ended in `t`. -/
structure Ended (s t : State) : Prop where
  inv      : Inv t
  busy     : t.status.busy = false
  rstN     : t.rstN = true
  inbox    : t.inbox = []
  operands : SameOperands s t
  cfg      : t.cfg = s.cfg
  windows  : t.windows = s.windows

/-- The step that issues a command which begins. -/
theorem Executing.start {i : Instr} {v : Word} {s u : State} (hi : Inv s) (hb : s.status.busy = false)
    (hr : s.rstN = true) (hin : s.inbox = [cmdWrite v]) (hv : decode v = .ok i)
    (hu : exec i (respond .writeOkay [] s) = .next u) (hub : u.status.busy = true) (hop : u.hid.op = i) :
    step s = .next u ∧ Executing i s u := by
  have hkeeps := exec_keeps hu
  have hrace : u.racing = [] := hkeeps.racing.trans (hi.racing hb)
  have hstep : step s = .next u := by
    rw [step_command hin hr hb hv, hu, mapNext, afterExec_busy hub hrace]
  exact ⟨hstep, hi.step hstep, hub, hop, hkeeps.inbox, hrace,
    ⟨hkeeps.dim, hkeeps.imgBase, hkeeps.srcBase, hkeeps.dstBase, hkeeps.len, hkeeps.key, hkeeps.iv⟩, hkeeps.cfg,
    hkeeps.windows⟩

section
variable {i : Instr} {s t u : State} (h : Executing i s t) (hu : exec i (clearOutputs t) = .next u)
include h hu

theorem Executing.step_eq : step t = .next (afterExec u) :=
  step_undisturbed h.inv h.busy h.inbox (by rw [h.op]; exact hu)

theorem Executing.kept : u.racing = [] ∧ u.inbox = [] ∧ u.rstN = true ∧ SameOperands s u ∧ u.cfg = s.cfg ∧
    u.windows = s.windows := by
  have hkeeps := exec_keeps hu
  exact ⟨hkeeps.racing.trans h.racing, hkeeps.inbox.trans h.inbox, hkeeps.rstN.trans (h.inv.outOfReset h.busy),
    h.operands.trans
      ⟨hkeeps.dim, hkeeps.imgBase, hkeeps.srcBase, hkeeps.dstBase, hkeeps.len, hkeeps.key, hkeeps.iv⟩,
    hkeeps.cfg.trans h.cfg, hkeeps.windows.trans h.windows⟩

/-- An engine step that goes on. -/
theorem Executing.goes_on (hub : u.status.busy = true) (hop : u.hid.op = i) :
    step t = .next u ∧ Executing i s u := by
  obtain ⟨hrace, hbox, -, hsame, hcfg, hwin⟩ := h.kept hu
  have hstep : Machine.step t = .next u := by rw [h.step_eq hu, afterExec_busy hub hrace]
  exact ⟨hstep, h.inv.step hstep, hub, hop, hbox, hrace, hsame, hcfg, hwin⟩

/-- An engine step that ends the command: only its hidden state is open. -/
theorem Executing.ends (hub : u.status.busy = false) :
    ∃ hid n, step t = .next { u with hid := hid, free := n } ∧ Ended s { u with hid := hid, free := n } := by
  obtain ⟨hrace, hbox, hr, hsame, hcfg, hwin⟩ := h.kept hu
  have hstep : Machine.step t = .next { u with hid := Config.freeHidden u.free, free := u.free + 1 } := by
    rw [h.step_eq hu, afterExec_idle hub hrace]
  exact ⟨_, _, hstep, h.inv.step hstep, hub, hr, hbox,
    ⟨hsame.dim, hsame.imgBase, hsame.srcBase, hsame.dstBase, hsame.len, hsame.key, hsame.iv⟩, hcfg, hwin⟩

end

/-- With no racing store the engine reads the bytes of memory. -/
theorem Executing.readByte {i : Instr} {s t : State} (h : Executing i s t) (a : Nat) :
    readByte (clearOutputs t) a = memRead t.mem a := readByte_quiet (s := clearOutputs t) h.racing a

theorem Executing.readErr {i : Instr} {s t : State} (h : Executing i s t) (a : Nat) :
    readErr (clearOutputs t) a = readErr s a := by
  rw [Machine.readErr, Machine.readErr, clearOutputs_windows, h.windows]

theorem Executing.writeErr {i : Instr} {s t : State} (h : Executing i s t) (a : Nat) :
    writeErr (clearOutputs t) a = writeErr s a := by
  rw [Machine.writeErr, Machine.writeErr, clearOutputs_windows, h.windows]

/-! ## A region written from its base on -/

/-- The byte at `x` once the `k` bytes from `base` on hold `f 0`, `f 1` and so on, over the memory `m`. -/
def overlay (m : Memory) (base k : Nat) (f : Nat → Byte) (x : Nat) : Byte :=
  if base ≤ x ∧ x < base + k then f (x - base) else memRead m x

theorem overlay_zero (m : Memory) (base : Nat) (f : Nat → Byte) (x : Nat) : overlay m base 0 f x = memRead m x :=
  if_neg (by omega)

theorem overlay_outside {m : Memory} {base k : Nat} {f : Nat → Byte} {x : Nat} (h : x < base ∨ base + k ≤ x) :
    overlay m base k f x = memRead m x := if_neg (by omega)

theorem overlay_inside {m : Memory} {base k : Nat} {f : Nat → Byte} {j : Nat} (h : j < k) :
    overlay m base k f (base + j) = f j := by
  rw [overlay, if_pos (by omega), Nat.add_sub_cancel_left]

/-- One more byte. -/
theorem overlay_succ (m : Memory) (base k : Nat) (f : Nat → Byte) (x : Nat) :
    overlay m base (k + 1) f x = if x = base + k then f k else overlay m base k f x := by
  split
  case isTrue hx => rw [hx, overlay_inside (Nat.lt_succ_self k)]
  case isFalse hx =>
    rw [overlay, overlay]
    exact if_congr (by omega) rfl rfl

theorem memBytes_of_overlay {m m' : Memory} {base n : Nat} {f : Nat → Byte}
    (h : ∀ x, memRead m' x = overlay m base n f x) : memBytes m' base n = (List.range n).map f := by
  refine List.map_congr_left fun j hj => ?_
  rw [h, overlay_inside (List.mem_range.1 hj)]

end Sys2Proof.Machine
end

section
/-! PROOF. A whole EMBED (44_embed.md R271 to R277): what holds before each channel, and what the last one leaves. -/

namespace Sys2Proof.Machine

/-- The bits that a region of memory holds, one at a time (R251). -/
theorem bits_memBytes_getD {m : Memory} {a n k : Nat} (hk : k < 8 * n) :
    (bits (memBytes m a n)).getD k false = (memRead m (a + k / 8)).getLsbD (7 - k % 8) := by
  have hbyte : (memBytes m a n)[k / 8]? = some (memRead m (a + k / 8)) := by
    have hlt : k / 8 < n := by omega
    simp [memBytes, hlt]
  rw [List.getD_eq_getElem?_getD, bits_getElem?, hbyte]
  rfl

/-- Channel byte `j` of the image once EMBED has written the container's bit `j` into it (R274). -/
def embeddedByte (s : State) (j : Nat) : Byte :=
  (memRead s.mem (s.imgBase.toNat + j) &&& 0xFE) |||
    if (bits (memBytes s.mem s.srcBase.toNat (lenBytes s))).getD j false then 1 else 0

/-- The EMBED issued in `s` has written `k` channels, and in mid-byte holds the container's byte of channel `k`. -/
structure EmbedAt (s : State) (k : Nat) (t : State) : Prop extends Executing .embed s t where
  cursor : t.hid.k = k
  memory : ∀ x, memRead t.mem x = overlay s.mem s.imgBase.toNat k (embeddedByte s) x
  cur    : k % 8 ≠ 0 → t.hid.cur = memRead s.mem (s.srcBase.toNat + k / 8)

/-- What a whole EMBED leaves besides what `Ended` says (R276, R184). -/
structure EmbedEnds (s t : State) : Prop where
  done     : t.status.done = true
  err      : t.status.err = false
  error    : t.error = .none
  memory   : ∀ x, memRead t.mem x = overlay s.mem s.imgBase.toNat (8 * lenBytes s) (embeddedByte s) x
  bitsDone : t.bitsDone.toNat = 8 * lenBytes s
  pixDone  : t.pixDone.toNat = (8 * lenBytes s - 1) / 3 + 1
  progress : t.progress.toNat = 100
  outLen   : t.outLen = 0

section
variable {s : State} (hready : EmbedReady s) (hsrc : ReadsOkay s s.srcBase (lenBytes s))
  (himg : ReadsOkay s s.imgBase (8 * lenBytes s)) (hwr : WritesOkay s s.imgBase (8 * lenBytes s))
include hready

/-- EMBED does not write its own container (R271). -/
theorem EmbedAt.container {k : Nat} {t : State} (h : EmbedAt s k t) (hk : k < 8 * lenBytes s) :
    memRead t.mem (s.srcBase.toNat + k / 8) = memRead s.mem (s.srcBase.toNat + k / 8) := by
  have := hready.apart
  have := hready.capacity
  rw [h.memory, overlay_outside (by omega)]

include hsrc himg hwr

/-- The engine step at channel `k`, in the terms of the state in which the command was issued. -/
theorem EmbedAt.engineStep {k : Nat} {t : State} (h : EmbedAt s k t) (hk : k < 8 * lenBytes s) :
    ∃ u, exec .embed (clearOutputs t) = .next u ∧
      (∀ x, memRead u.mem x = overlay s.mem s.imgBase.toNat (k + 1) (embeddedByte s) x) ∧
      u.hid = { t.hid with k := k + 1, cur := memRead s.mem (s.srcBase.toNat + k / 8) } ∧
      u.bitsDone.toNat = k + 1 ∧ (k + 1 = 8 * lenBytes s → u.pixDone.toNat = k / 3 + 1 ∧ u.progress.toNat = 100) ∧
      u.status = { t.status with
        busy := !decide (k + 1 = 8 * lenBytes s), done := decide (k + 1 = 8 * lenBytes s) } ∧
      u.error = .none := by
  obtain rfl := h.cursor
  have hs : t.srcBase = s.srcBase := h.operands.srcBase
  have hg : t.imgBase = s.imgBase := h.operands.imgBase
  have hl : t.len = s.len := h.operands.len
  obtain ⟨u, hu, hmem, hhid, hbits, hpix, hprogress, hstatus, -, -, herror⟩ :=
    embedChannelStep (clearOutputs t) h.inv.clearOutputs h.busy h.op
      (fun _ => by rw [h.readErr, clearOutputs_srcBase, hs]; exact hsrc _ (Nat.div_lt_of_lt_mul hk))
      (by rw [h.readErr, clearOutputs_imgBase, hg]; exact himg _ hk)
      (by rw [h.writeErr, clearOutputs_imgBase, hg]; exact hwr _ hk)
  have hcur : (if t.hid.k % 8 = 0 then memRead t.mem (t.srcBase.toNat + t.hid.k / 8) else t.hid.cur) =
      memRead s.mem (s.srcBase.toNat + t.hid.k / 8) := by
    split
    case isTrue => rw [hs, h.container hready hk]
    case isFalse h8 => exact h.cur h8
  simp only [clearOutputs_hid, clearOutputs_srcBase, clearOutputs_imgBase, clearOutputs_len, clearOutputs_status,
    clearOutputs_mem, h.readByte, hcur, hg, hl] at hmem hhid hbits hpix hprogress hstatus
  refine ⟨u, hu, fun x => ?_, hhid, hbits, fun hlast => ?_, hstatus, herror⟩
  · rw [hmem, overlay_succ, h.memory, h.memory, overlay_outside (by omega), embeddedByte, bits_memBytes_getD hk]
  · have hlast : t.hid.k + 1 = 8 * s.len.toNat := hlast
    rw [hpix, hprogress, decide_eq_true hlast]
    exact ⟨if_pos (.inr rfl), rfl⟩

/-- A channel before the last. -/
theorem EmbedAt.goes_on {k : Nat} {t : State} (h : EmbedAt s k t) (hk : k + 1 < 8 * lenBytes s) :
    ∃ u, step t = .next u ∧ EmbedAt s (k + 1) u := by
  obtain ⟨u, hu, hmem, hhid, -, -, hstatus, -⟩ := h.engineStep hready hsrc himg hwr (by omega)
  have hbusy : u.status.busy = true := by
    rw [hstatus, decide_eq_false (by omega)]
    rfl
  obtain ⟨hstep, hexec⟩ := h.toExecuting.goes_on hu hbusy (by rw [hhid]; exact h.op)
  refine ⟨u, hstep, hexec, by rw [hhid], hmem, fun h8 => ?_⟩
  rw [hhid, show (k + 1) / 8 = k / 8 by omega]

/-- The last channel. -/
theorem EmbedAt.ends {k : Nat} {t : State} (h : EmbedAt s k t) (hk : k + 1 = 8 * lenBytes s) :
    ∃ u, step t = .next u ∧ Ended s u ∧ EmbedEnds s u := by
  obtain ⟨u, hu, hmem, -, hbits, hcounters, hstatus, herror⟩ := h.engineStep hready hsrc himg hwr (by omega)
  obtain ⟨hpix, hprogress⟩ := hcounters hk
  rw [decide_eq_true hk] at hstatus
  obtain ⟨-, -, -, -, hframe, -⟩ := embedFrame _ _ hu
  obtain ⟨hout, -⟩ := hframe h.busy
  obtain ⟨hid, n, hstep, hended⟩ := h.toExecuting.ends hu (by rw [hstatus]; rfl)
  have hdone : u.status.done = true := by rw [hstatus]
  have herr : u.status.err = false := by rw [hstatus]; exact (h.inv.busyFlags h.busy).2
  exact ⟨_, hstep, hended, hdone, herr, herror, by rw [← hk]; exact hmem, hbits.trans hk,
    hpix.trans (by rw [← hk, Nat.add_sub_cancel]), hprogress, hout.trans (h.inv.embedRuns h.busy h.op).outLen⟩

end

/-- EMBED's start step. -/
theorem EmbedAt.start {s : State} (hi : Inv s) (hb : s.status.busy = false) (hr : s.rstN = true)
    (hin : s.inbox = [cmdWrite 0x00000002]) (hready : EmbedReady s) : ∃ u, step s = .next u ∧ EmbedAt s 0 u := by
  have hu := embedStarts (respond .writeOkay [] s) hb
    ⟨hready.wide, hready.high, hready.len, hready.capacity, hready.image, hready.source, hready.apart⟩
  obtain ⟨hstep, hexec⟩ := Executing.start hi hb hr hin (decode_encode .embed) hu rfl rfl
  exact ⟨_, hstep, hexec, rfl, fun x => (overlay_zero s.mem _ _ x).symm, fun h => absurd rfl h⟩

/-- A whole EMBED, by induction on the channels. -/
theorem embed_run {s : State} (hi : Inv s) (hb : s.status.busy = false) (hr : s.rstN = true)
    (hin : s.inbox = [cmdWrite 0x00000002]) (hready : EmbedReady s) (hsrc : ReadsOkay s s.srcBase (lenBytes s))
    (himg : ReadsOkay s s.imgBase (8 * lenBytes s)) (hwr : WritesOkay s s.imgBase (8 * lenBytes s)) :
    ∃ t, StepsTo (1 + 8 * lenBytes s) s t ∧ Ended s t ∧ EmbedEnds s t :=
  run_command (EmbedAt s) _ (by have := hready.len; omega) (EmbedAt.start hi hb hr hin hready)
    (fun _ _ hk h => h.goes_on hready hsrc himg hwr hk) fun _ _ hk h => h.ends hready hsrc himg hwr hk

/-- Settles O49: the whole run, its memory read channel by channel. -/
theorem embedWritesContainer : Obligations.EmbedWritesContainer := by
  unfold Obligations.EmbedWritesContainer
  intro s hi hb hr hin hready hsrc himg hwr req container
  obtain ⟨t, hrun, hended, hends⟩ := embed_run hi hb hr hin hready hsrc himg hwr
  refine ⟨t, hrun, hended.busy, hends.done, hends.err, hends.error, fun k hk => ?_, fun x hx => ?_, hends.bitsDone,
    hends.pixDone, hends.progress, hends.outLen, hended.inbox, hended.inv⟩
  · rw [hends.memory, overlay_inside hk]
    rfl
  · rw [hends.memory, overlay_outside hx]

end Sys2Proof.Machine
end

section
/-! PROOF. A whole EXTRACT (45_extract.md R301 to R308): what holds before each channel, and what the last one leaves. -/

namespace Sys2Proof.Machine

/-! ## The accumulator (R302) -/

theorem shiftIn_getLsbD_zero (acc : Byte) (k : Nat) (bit : Bool) : (shiftIn acc k bit).getLsbD 0 = bit := by
  rw [shiftIn]
  split <;> simp

theorem shiftIn_getLsbD_succ (acc : Byte) {k i : Nat} (bit : Bool) (hk : k % 8 ≠ 0) (hi : i + 1 < 8) :
    (shiftIn acc k bit).getLsbD (i + 1) = acc.getLsbD i := by
  rw [shiftIn, if_neg hk, BitVec.getLsbD_eq_getElem (by omega : i < 8)]
  simp [hi]

/-- The least-significant bits of the image's channels (R302). -/
def imageLsbs (s : State) : List Bool :=
  (memBytes s.mem s.imgBase.toNat (3 * (width s * height s))).map fun b => b.getLsbD 0

theorem imageLsbs_length (s : State) : (imageLsbs s).length = 3 * (width s * height s) := by
  rw [imageLsbs, List.length_map, memBytes_length]

theorem imageLsbs_getD {s : State} {k : Nat} (hk : k < 3 * (width s * height s)) :
    (imageLsbs s).getD k false = (memRead s.mem (s.imgBase.toNat + k)).getLsbD 0 := by
  simp [imageLsbs, memBytes, List.getD_eq_getElem?_getD, hk]

/-- The destination byte `j` (R303). -/
def packedByte (s : State) (j : Nat) : Byte := (bytes (imageLsbs s)).getD j 0

theorem packedBytes (s : State) :
    (List.range (3 * (width s * height s) / 8)).map (packedByte s) = bytes (imageLsbs s) := by
  refine List.ext_getElem (by simp [bytes_length, imageLsbs_length]) fun j _ hj => ?_
  rw [List.getElem_map, List.getElem_range, packedByte, List.getD_eq_getElem _ _ hj]

/-- H.acc after channel `k`: its bit `i` is the least-significant bit of the channel `i` before `k`. -/
theorem shiftIn_holds {s : State} {acc : Byte} {k : Nat}
    (hacc : ∀ i, i < k % 8 → acc.getLsbD i = (imageLsbs s).getD (k - 1 - i) false) {i : Nat} (hi : i ≤ k % 8) :
    (shiftIn acc k ((imageLsbs s).getD k false)).getLsbD i = (imageLsbs s).getD (k - i) false := by
  cases i with
  | zero => exact shiftIn_getLsbD_zero _ _ _
  | succ i =>
    rw [shiftIn_getLsbD_succ _ _ (by omega) (by omega), hacc i hi, Nat.sub_sub, Nat.add_comm 1]

/-- The accumulator is the destination byte once all its eight channels are in it. -/
theorem packedByte_of_bits {s : State} {acc : Byte} {k : Nat} (hk : k < 3 * (width s * height s))
    (h8 : (k + 1) % 8 = 0) (hacc : ∀ i, i ≤ k % 8 → acc.getLsbD i = (imageLsbs s).getD (k - i) false) :
    acc = packedByte s (k / 8) := by
  refine BitVec.eq_of_getLsbD_eq fun i hi => ?_
  have hbit := bytes_getLsbD (imageLsbs s) (j := k / 8) (i := 7 - i) (by rw [imageLsbs_length]; omega) (by omega)
  rw [show 7 - (7 - i) = i by omega, show 8 * (k / 8) + (7 - i) = k - i by omega] at hbit
  rw [hacc i (by omega), packedByte, hbit]

/-! ## The run -/

/-- The EXTRACT issued in `s` has read `k` channels. -/
structure ExtractAt (s : State) (k : Nat) (t : State) : Prop extends Executing .extract s t where
  cursor : t.hid.k = k
  memory : ∀ x, memRead t.mem x = overlay s.mem s.dstBase.toNat (k / 8) (packedByte s) x
  acc    : ∀ i, i < k % 8 → t.hid.acc.getLsbD i = (imageLsbs s).getD (k - 1 - i) false

/-- What a whole EXTRACT leaves besides what `Ended` says (R305, R184). -/
structure ExtractEnds (s t : State) : Prop where
  done     : t.status.done = true
  err      : t.status.err = false
  error    : t.error = .none
  memory   : ∀ x, memRead t.mem x = overlay s.mem s.dstBase.toNat (3 * (width s * height s) / 8) (packedByte s) x
  bitsDone : t.bitsDone.toNat = 3 * (width s * height s)
  pixDone  : t.pixDone.toNat = width s * height s
  outLen   : t.outLen.toNat = 3 * (width s * height s) / 8
  progress : t.progress.toNat = 100

section
variable {s : State} (hready : ExtractReady s) (himg : ReadsOkay s s.imgBase (3 * (width s * height s)))
  (hdst : WritesOkay s s.dstBase (3 * (width s * height s) / 8))
include hready

/-- EXTRACT does not write the image (R301). -/
theorem ExtractAt.image {k : Nat} {t : State} (h : ExtractAt s k t) (hk : k < 3 * (width s * height s)) :
    memRead t.mem (s.imgBase.toNat + k) = memRead s.mem (s.imgBase.toNat + k) := by
  have := hready.apart
  rw [h.memory, overlay_outside (by omega)]

include himg hdst

/-- The engine step at channel `k`, in the terms of the state in which the command was issued. -/
theorem ExtractAt.engineStep {k : Nat} {t : State} (h : ExtractAt s k t) (hk : k < 3 * (width s * height s)) :
    ∃ u, exec .extract (clearOutputs t) = .next u ∧
      (∀ x, memRead u.mem x = overlay s.mem s.dstBase.toNat ((k + 1) / 8) (packedByte s) x) ∧
      u.hid = { t.hid with k := k + 1, acc := shiftIn t.hid.acc k ((imageLsbs s).getD k false) } ∧
      u.bitsDone.toNat = k + 1 ∧ u.outLen.toNat = (k + 1) / 8 ∧ u.pixDone.toNat = (k + 1) / 3 ∧
      u.progress.toNat = percent ((k + 1) / 3) (width s * height s) ∧
      u.status = { t.status with
        busy := !decide (k + 1 = 3 * (width s * height s)), done := decide (k + 1 = 3 * (width s * height s)) } ∧
      u.error = .none := by
  obtain rfl := h.cursor
  have hg : t.imgBase = s.imgBase := h.operands.imgBase
  have hd : t.dstBase = s.dstBase := h.operands.dstBase
  have hpx : pixels (clearOutputs t) = width s * height s := pixels_congr h.operands.dim
  obtain ⟨u, hu, hmem, hhid, hbits, hout, hpix, hprogress, hstatus, -, -, herror⟩ :=
    extractChannelStep (clearOutputs t) h.inv.clearOutputs h.busy h.op
      (by rw [h.readErr, clearOutputs_imgBase, hg]; exact himg _ hk)
      (fun (h8 : (t.hid.k + 1) % 8 = 0) => by
        rw [h.writeErr, clearOutputs_dstBase, hd]; exact hdst _ (by exact (show t.hid.k / 8 < _ by omega)))
  have hbit : (memRead t.mem (s.imgBase.toNat + t.hid.k)).getLsbD 0 = (imageLsbs s).getD t.hid.k false := by
    rw [h.image hready hk, imageLsbs_getD hk]
  simp only [clearOutputs_hid, clearOutputs_imgBase, clearOutputs_dstBase, clearOutputs_status, clearOutputs_mem,
    h.readByte, hg, hd, hbit, hpx, ← shiftIn_eq] at hmem hhid hprogress hstatus
  refine ⟨u, hu, fun x => ?_, hhid, hbits, hout, hpix, hprogress, hstatus, herror⟩
  rw [hmem, h.memory]
  by_cases h8 : (t.hid.k + 1) % 8 = 0
  · rw [show (t.hid.k + 1) / 8 = t.hid.k / 8 + 1 by omega, overlay_succ,
      packedByte_of_bits hk h8 fun i hi => shiftIn_holds h.acc hi]
    exact if_congr (and_iff_right h8) rfl rfl
  · rw [show (t.hid.k + 1) / 8 = t.hid.k / 8 by omega, if_neg fun hx => h8 hx.1]

/-- A channel before the last. -/
theorem ExtractAt.goes_on {k : Nat} {t : State} (h : ExtractAt s k t) (hk : k + 1 < 3 * (width s * height s)) :
    ∃ u, step t = .next u ∧ ExtractAt s (k + 1) u := by
  obtain ⟨u, hu, hmem, hhid, -, -, -, -, hstatus, -⟩ := h.engineStep hready himg hdst (by omega)
  have hbusy : u.status.busy = true := by
    rw [hstatus, decide_eq_false (by omega)]
    rfl
  obtain ⟨hstep, hexec⟩ := h.toExecuting.goes_on hu hbusy (by rw [hhid]; exact h.op)
  refine ⟨u, hstep, hexec, by rw [hhid], hmem, fun i hi => ?_⟩
  rw [hhid, shiftIn_holds h.acc (by omega), Nat.add_sub_cancel]

/-- The last channel. -/
theorem ExtractAt.ends {k : Nat} {t : State} (h : ExtractAt s k t) (hk : k + 1 = 3 * (width s * height s)) :
    ∃ u, step t = .next u ∧ Ended s u ∧ ExtractEnds s u := by
  obtain ⟨u, hu, hmem, -, hbits, hout, hpix, hprogress, hstatus, herror⟩ := h.engineStep hready himg hdst (by omega)
  rw [decide_eq_true hk] at hstatus
  obtain ⟨hid, n, hstep, hended⟩ := h.toExecuting.ends hu (by rw [hstatus]; rfl)
  have hdone : u.status.done = true := by rw [hstatus]
  have herr : u.status.err = false := by rw [hstatus]; exact (h.inv.busyFlags h.busy).2
  have hlast : (k + 1) / 3 = width s * height s := by omega
  rw [hlast] at hpix hprogress
  rw [hk] at hmem hbits hout
  exact ⟨_, hstep, hended, hdone, herr, herror, hmem, hbits, hpix, hout, hprogress.trans (percent_self (by omega))⟩

end

/-- EXTRACT's start step. -/
theorem ExtractAt.start {s : State} (hi : Inv s) (hb : s.status.busy = false) (hr : s.rstN = true)
    (hin : s.inbox = [cmdWrite 0x00000003]) (hready : ExtractReady s) :
    ∃ u, step s = .next u ∧ ExtractAt s 0 u ∧ u.prog = [] ∧ u.progCount = 0 := by
  have hu := extractStarts (respond .writeOkay [] s) hb
    ⟨hready.wide, hready.high, hready.long, hready.image, hready.dest, hready.apart⟩
  obtain ⟨hstep, hexec⟩ := Executing.start hi hb hr hin (decode_encode .extract) hu rfl rfl
  exact ⟨_, hstep, ⟨hexec, rfl, fun x => (overlay_zero s.mem _ _ x).symm, fun i hi => absurd hi (Nat.not_lt_zero i)⟩,
    rfl, rfl⟩

theorem ExtractReady.pixels_pos {s : State} (h : ExtractReady s) : 0 < width s * height s :=
  pixels_pos_of_width h.wide h.high

/-- A whole EXTRACT, by induction on the channels. -/
theorem extract_run {s : State} (hi : Inv s) (hb : s.status.busy = false) (hr : s.rstN = true)
    (hin : s.inbox = [cmdWrite 0x00000003]) (hready : ExtractReady s)
    (himg : ReadsOkay s s.imgBase (3 * (width s * height s)))
    (hdst : WritesOkay s s.dstBase (3 * (width s * height s) / 8)) :
    ∃ t, StepsTo (1 + 3 * (width s * height s)) s t ∧ Ended s t ∧ ExtractEnds s t := by
  obtain ⟨u, hstep, hu, -, -⟩ := ExtractAt.start hi hb hr hin hready
  exact run_command (ExtractAt s) _ (by have := hready.pixels_pos; omega) ⟨u, hstep, hu⟩
    (fun _ _ hk h => h.goes_on hready himg hdst hk) fun _ _ hk h => h.ends hready himg hdst hk

theorem ExtractEnds.memBytes {s t : State} (h : ExtractEnds s t) :
    Machine.memBytes t.mem s.dstBase.toNat (3 * (width s * height s) / 8) = bytes (imageLsbs s) :=
  (memBytes_of_overlay h.memory).trans (packedBytes s)

/-- Settles O50: the whole run, its memory read byte by byte. -/
theorem extractReadsImage : Obligations.ExtractReadsImage := by
  unfold Obligations.ExtractReadsImage
  intro s hi hb hr hin hready n himg hdst
  obtain ⟨t, hrun, hended, hends⟩ := extract_run hi hb hr hin hready himg hdst
  refine ⟨t, hrun, hended.busy, hends.done, hends.err, hends.error, hends.memBytes, fun x hx => ?_, hends.bitsDone,
    hends.pixDone, hends.outLen, hends.progress, hended.inbox, hended.inv⟩
  rw [hends.memory, overlay_outside hx]

end Sys2Proof.Machine
end

section
/-! PROOF. EMBED followed by EXTRACT of the same image (45_extract.md R310), and the progress transfers of a whole EXTRACT
(40_host_interface.md R186, 45_extract.md R306). -/

namespace Sys2Proof.Machine

/-! ## The round trip -/

theorem bytes_bits_append (c : List Byte) (rest : List Bool) : bytes (bits c ++ rest) = c ++ bytes rest := by
  induction c with
  | nil => rfl
  | cons b c ih => rw [bits_cons, List.append_assoc, bytes_byteBits_append, ih, List.cons_append]

/-- The channel byte carries the container's bit (R274). -/
theorem embeddedByte_getLsbD_zero (s : State) (j : Nat) :
    (embeddedByte s j).getLsbD 0 = (bits (memBytes s.mem s.srcBase.toNat (lenBytes s))).getD j false := by
  rw [embeddedByte, ← withLsb_eq, withLsb]
  simp

/-- The channels after an EMBED: the container's bits, then the channels it did not touch. -/
theorem imageLsbs_of_embed {s t : State} (hready : EmbedReady s) (hends : EmbedEnds s t) (hsame : SameOperands s t) :
    imageLsbs t = bits (memBytes s.mem s.srcBase.toNat (lenBytes s)) ++
      (memBytes s.mem (s.imgBase.toNat + 8 * lenBytes s) (3 * (width s * height s) - 8 * lenBytes s)).map
        fun b => b.getLsbD 0 := by
  have hcapacity := hready.capacity
  have hpx : width t * height t = width s * height s := pixels_congr hsame.dim
  have hlen : (bits (memBytes s.mem s.srcBase.toNat (lenBytes s))).length = 8 * lenBytes s := by
    rw [bits_length, memBytes_length]
  refine List.ext_getElem? fun j => ?_
  obtain hj | hj := Nat.lt_or_ge j (3 * (width s * height s))
  case inr =>
    rw [List.getElem?_eq_none (by rw [imageLsbs_length, hpx]; exact hj), List.getElem?_eq_none]
    rw [List.length_append, hlen, List.length_map, memBytes_length]
    omega
  have hleft : (imageLsbs t)[j]? = some ((memRead t.mem (s.imgBase.toNat + j)).getLsbD 0) := by
    rw [imageLsbs, hpx, hsame.imgBase]
    simp [memBytes, hj]
  rw [hleft, hends.memory]
  obtain hlt | hge := Nat.lt_or_ge j (8 * lenBytes s)
  · have hb : j < (bits (memBytes s.mem s.srcBase.toNat (lenBytes s))).length := by rwa [hlen]
    rw [overlay_inside hlt, embeddedByte_getLsbD_zero, List.getElem?_append_left hb, List.getElem?_eq_getElem hb,
      List.getD_eq_getElem _ _ hb]
  · have hin : j - 8 * lenBytes s < 3 * (width s * height s) - 8 * lenBytes s := by omega
    rw [overlay_outside (by omega), List.getElem?_append_right (by rwa [hlen]), hlen]
    simp [memBytes, hin, show s.imgBase.toNat + 8 * lenBytes s + (j - 8 * lenBytes s) = s.imgBase.toNat + j by omega]

/-- A command can be issued where the last one has ended. -/
theorem ExtractReady.again {s t : State} (h : ExtractReady s) (hended : Ended s t) (box : List HostEvent) :
    ExtractReady { t with inbox := box } := by
  have hsame := hended.operands
  obtain ⟨hwide, hhigh, hlong, himage, hdest, hapart⟩ := h
  simp only [width, height, ← hsame.dim, ← hsame.imgBase, ← hsame.dstBase, ← hended.cfg] at *
  exact ⟨hwide, hhigh, hlong, himage, hdest, hapart⟩

theorem ReadsOkay.again {s t : State} {base : Word} {n : Nat} (h : ReadsOkay s base n) (hw : t.windows = s.windows) :
    ReadsOkay t base n := fun i hi => by
  rw [Machine.readErr, hw]
  exact h i hi

theorem WritesOkay.again {s t : State} {base : Word} {n : Nat} (h : WritesOkay s base n) (hw : t.windows = s.windows) :
    WritesOkay t base n := fun i hi => by
  rw [Machine.writeErr, hw]
  exact h i hi

/-- Settles O51: two whole commands, the second on the first's image. -/
theorem extractReturnsContainer : Obligations.ExtractReturnsContainer := by
  unfold Obligations.ExtractReturnsContainer
  intro s hi hb hr hin hembed hextract n req hsrc himg hwr hdst
  have hreq : req ≤ n := hembed.capacity
  obtain ⟨t, hrun, hended, hends⟩ := embed_run hi hb hr hin hembed hsrc
    (fun i h => himg i (Nat.lt_of_lt_of_le h hreq)) hwr
  have hpx : width t * height t = width s * height s := pixels_congr hended.operands.dim
  obtain ⟨u, hrun', -, hends'⟩ := extract_run (s := { t with inbox := [cmdWrite 0x00000003] })
    (hended.inv.around t.resp t.windows [cmdWrite 0x00000003] t.free) hended.busy hended.rstN rfl
    (hextract.again hended _)
    (show ReadsOkay t t.imgBase (3 * (width t * height t)) by
      rw [hpx, hended.operands.imgBase]; exact himg.again hended.windows)
    (show WritesOkay t t.dstBase (3 * (width t * height t) / 8) by
      rw [hpx, hended.operands.dstBase]; exact hdst.again hended.windows)
  have hbytes : memBytes u.mem t.dstBase.toNat (3 * (width t * height t) / 8) = bytes (imageLsbs t) := hends'.memBytes
  rw [hpx, hended.operands.dstBase, imageLsbs_of_embed hembed hends hended.operands, bytes_bits_append] at hbytes
  have hrun' : StepsTo (1 + 3 * (width t * height t)) { t with inbox := [cmdWrite 0x00000003] } u := hrun'
  rw [hpx] at hrun'
  exact ⟨t, u, hrun, hends.done, hrun', hends'.done, hbytes⟩

/-! ## The progress transfers -/

/-- With at least 100 pixels one channel raises the percentage by at most 1 (R306). -/
theorem percent_channel_le (k : Nat) {n : Nat} (hn : 100 ≤ n) : percent ((k + 1) / 3) n ≤ percent (k / 3) n + 1 := by
  by_cases h3 : (k + 1) % 3 = 0
  · rw [show (k + 1) / 3 = k / 3 + 1 by omega]
    exact percent_succ hn
  · rw [show (k + 1) / 3 = k / 3 by omega]
    exact Nat.le_succ _

/-- Rising values that lead from `a` to at most `a + 1` are `a + 1` alone, or none. -/
theorem Emits.eq_range' {s t : State} {vs : List Nat} (h : Emits s t vs)
    (hle : t.progress.toNat ≤ s.progress.toNat + 1) :
    vs = List.range' (s.progress.toNat + 1) (t.progress.toNat - s.progress.toNat) := by
  have hlen := h.length_le
  rw [← h.latest] at hlen
  match vs, h.latest, hlen with
  | [], hlatest, _ => rw [hlatest, List.getLastD_nil, Nat.sub_self]; rfl
  | [v], hlatest, hlen =>
    have hv : v = s.progress.toNat + 1 := by
      rw [List.getLastD_cons, List.getLastD_nil] at hlatest
      rw [List.length_singleton] at hlen
      omega
    rw [hlatest, List.getLastD_cons, List.getLastD_nil, hv, Nat.add_sub_cancel_left]
    rfl
  | _ :: _ :: _, _, hlen => simp only [List.length_cons] at hlen; omega

section
variable {s : State} (hready : ExtractReady s) (himg : ReadsOkay s s.imgBase (3 * (width s * height s)))
  (hdst : WritesOkay s s.dstBase (3 * (width s * height s) / 8)) (hn : 100 ≤ width s * height s)
include hready himg hdst hn

/-- The transfers of the engine step at channel `k`: the percentages that this channel reaches. -/
theorem ExtractAt.transfers {k : Nat} {t : State} (h : ExtractAt s k t) (hk : k < 3 * (width s * height s)) :
    ∃ u, step t = .next u ∧
      u.prog.map BitVec.toNat = List.range' (percent (k / 3) (width s * height s) + 1)
        (percent ((k + 1) / 3) (width s * height s) - percent (k / 3) (width s * height s)) ∧
      u.progCount.toNat + percent (k / 3) (width s * height s) =
        t.progCount.toNat + percent ((k + 1) / 3) (width s * height s) := by
  obtain ⟨u, hu, -, -, -, -, -, hprogress, hstatus, -⟩ := h.engineStep hready himg hdst hk
  have hinv := h.inv.clearOutputs
  have hop : (clearOutputs t).hid.op = .extract := h.op
  have hp : (clearOutputs t).progress.toNat = percent (k / 3) (width s * height s) := by
    have hcounters := (h.inv.extractRuns h.busy h.op).counters.progress
    rwa [h.cursor, pixels_congr h.operands.dim] at hcounters
  have herr : u.status.err = false := by rw [hstatus]; exact (h.inv.busyFlags h.busy).2
  obtain ⟨hfail, -⟩ | ⟨vs, hemits, -⟩ := exec_emits hinv h.busy (by rw [hop]; exact hu)
  · cases herr.symm.trans hfail
  have hle := percent_channel_le k hn
  have hmono : percent (k / 3) (width s * height s) ≤ percent ((k + 1) / 3) (width s * height s) :=
    percent_mono (by omega)
  have hvs := hemits.eq_range' (by rw [hprogress, hp]; exact hle)
  have hcount := hemits.progCount hinv.progress hinv.progCount
  rw [hprogress, hp] at hvs
  rw [hvs, List.length_range'] at hcount
  obtain ⟨_, _, _, _, hshape⟩ := afterExec_shape u
  refine ⟨afterExec u, h.toExecuting.step_eq hu, ?_, ?_⟩ <;> rw [hshape]
  · rw [← hvs]
    exact hemits.values rfl
  · show u.progCount.toNat + _ = _
    rw [hcount, clearOutputs_progCount]
    omega

/-- The transfers of the rest of the run, by induction on the channels left. -/
theorem ExtractAt.emissions (m : Nat) : ∀ {k : Nat} {t : State}, ExtractAt s k t →
    k + m + 1 = 3 * (width s * height s) →
    Machine.emissions (m + 1) t = List.range' (percent (k / 3) (width s * height s) + 1)
      (100 - percent (k / 3) (width s * height s)) ∧
    ∃ v, StepsTo (m + 1) t v ∧
      v.progCount.toNat + percent (k / 3) (width s * height s) = t.progCount.toNat + 100 := by
  induction m with
  | zero =>
    intro k t h hk
    obtain ⟨u, hstep, hprog, hcount⟩ := h.transfers hready himg hdst hn (by omega)
    have hlast : percent ((k + 1) / 3) (width s * height s) = 100 := by
      rw [show (k + 1) / 3 = width s * height s by omega, percent_self (by omega)]
    rw [hlast] at hprog hcount
    refine ⟨?_, u, .cons hstep rfl, hcount⟩
    simp only [Machine.emissions, hstep, hprog, List.append_nil]
  | succ m ih =>
    intro k t h hk
    obtain ⟨u, hstep, hprog, hcount⟩ := h.transfers hready himg hdst hn (by omega)
    obtain ⟨u', hstep', hat⟩ := h.goes_on hready himg hdst (by omega)
    cases hstep.symm.trans hstep'
    obtain ⟨hrest, v, hrun, hv⟩ := ih hat (by omega)
    have hmono : percent (k / 3) (width s * height s) ≤ percent ((k + 1) / 3) (width s * height s) :=
      percent_mono (by omega)
    have h100 : percent ((k + 1) / 3) (width s * height s) ≤ 100 := percent_le (by omega)
    refine ⟨?_, v, .cons hstep hrun, by omega⟩
    rw [Machine.emissions, hstep]
    dsimp only
    rw [hprog, hrest]
    generalize percent (k / 3) (width s * height s) = a at *
    generalize percent ((k + 1) / 3) (width s * height s) = b at *
    rw [show b + 1 = a + 1 + (b - a) by omega, List.range'_append_1]
    congr 1
    omega

end

/-- Settles O52: no transfer in the start step, and those of the channels one after the other. -/
theorem extractEmitsOneToHundred : Obligations.ExtractEmitsOneToHundred := by
  unfold Obligations.ExtractEmitsOneToHundred
  intro s hi hb hr hin hready n himg hdst hn
  obtain ⟨u, hstep, hat, hprog, hcount⟩ := ExtractAt.start hi hb hr hin hready
  obtain ⟨m, hm⟩ : ∃ m, n = m + 1 := Nat.exists_eq_succ_of_ne_zero (by omega)
  obtain ⟨hrest, t, hrun, ht⟩ := hat.emissions hready himg hdst hn m (by omega)
  rw [show 1 + n = m + 1 + 1 by omega]
  refine ⟨?_, t, .cons hstep hrun, ?_⟩
  · rw [emissions, hstep]
    dsimp only
    rw [hprog, hrest, Nat.zero_div, percent_zero]
    decide
  · rw [hcount, Nat.zero_div, percent_zero] at ht
    exact ht

end Sys2Proof.Machine
end

section
/-! PROOF. A whole AEAD_ENC and a whole AEAD_DEC (41_aead.md R201, R206 to R208): what holds before each byte, and what the
last one leaves. -/

namespace Sys2Proof.Machine

/-! ## The stream of a command (R201) -/

theorem xorKs_getElem? (p : AeadPrim) (K : Key) (nn : Nonce) (i : Nat) (bs : List Byte) (j : Nat) :
    (xorKs p K nn i bs)[j]? = bs[j]?.map (· ^^^ Config.ks p K nn (i + j)) := by
  induction bs generalizing i j with
  | nil => rfl
  | cons b rest ih =>
    cases j with
    | zero => rfl
    | succ j => rw [xorKs, List.getElem?_cons_succ, List.getElem?_cons_succ, ih, Nat.add_right_comm, Nat.add_assoc]

/-- Byte `j` of the destination: the source's byte and the keystream's under the registers' key and nonce. -/
def streamedByte (s : State) (j : Nat) : Byte := memRead s.mem (s.srcBase.toNat + j) ^^^ ksByte s j

theorem streamedBytes (s : State) (n : Nat) : (List.range n).map (streamedByte s) =
    xorKs s.cfg.aeadPrim (keyBytes s) (nonceBytes s) 0 (memBytes s.mem s.srcBase.toNat n) := by
  refine List.ext_getElem? fun j => ?_
  rw [xorKs_getElem?, Nat.zero_add]
  obtain hj | hj := Nat.lt_or_ge j n
  · simp [memBytes, hj, streamedByte, ksByte]
  · simp [memBytes, hj]

theorem memBytes_succ (m : Memory) (a n : Nat) : memBytes m a (n + 1) = memBytes m a n ++ [memRead m (a + n)] := by
  simp [memBytes, List.range_succ]

/-- The key and the nonce of a command that is under way are those it was issued with. -/
theorem Executing.ks {i : Instr} {s t : State} (h : Executing i s t) (j : Nat) :
    Config.ks t.cfg.aeadPrim (keyBytes (clearOutputs t)) (nonceBytes (clearOutputs t)) j = ksByte s j := by
  simp only [ksByte, keyBytes, nonceBytes, clearOutputs_key, clearOutputs_iv, h.operands.key, h.operands.iv, h.cfg]

theorem Executing.tagF {i : Instr} {s t : State} (h : Executing i s t) (C : List Byte) :
    Config.tagF t.cfg.aeadPrim (keyBytes (clearOutputs t)) (nonceBytes (clearOutputs t)) C = tagOf s C := by
  simp only [tagOf, keyBytes, nonceBytes, clearOutputs_key, clearOutputs_iv, h.operands.key, h.operands.iv, h.cfg]

/-- The first `k` bytes stored do not touch byte `k` of the source, in place either (R206, R208). -/
theorem AeadReady.source_kept {s : State} (h : AeadReady s) {k : Nat} (hk : k < lenBytes s) :
    overlay s.mem s.dstBase.toNat k (streamedByte s) (s.srcBase.toNat + k) = memRead s.mem (s.srcBase.toNat + k) := by
  refine overlay_outside ?_
  obtain hsame | hapart := h.apart
  · rw [hsame]
    exact .inr (Nat.le_refl _)
  · omega

/-! ## AEAD_ENC -/

/-- The AEAD_ENC issued in `s` has enciphered `k` bytes. -/
structure EncAt (s : State) (k : Nat) (t : State) : Prop extends Executing .aeadEnc s t where
  cursor : t.hid.k = k
  memory : ∀ x, memRead t.mem x = overlay s.mem s.dstBase.toNat k (streamedByte s) x
  ct     : t.hid.ct = (List.range k).map (streamedByte s)

/-- What a whole command that completes leaves of an AEAD command's output, besides what `Ended` says. -/
structure AeadEnds (s t : State) : Prop where
  done   : t.status.done = true
  err    : t.status.err = false
  memory : ∀ x, memRead t.mem x = overlay s.mem s.dstBase.toNat (lenBytes s) (streamedByte s) x
  outLen : t.outLen.toNat = lenBytes s

theorem AeadEnds.memBytes {s t : State} (h : AeadEnds s t) : Machine.memBytes t.mem s.dstBase.toNat (lenBytes s) =
    xorKs s.cfg.aeadPrim (keyBytes s) (nonceBytes s) 0 (Machine.memBytes s.mem s.srcBase.toNat (lenBytes s)) :=
  (memBytes_of_overlay h.memory).trans (streamedBytes s _)

section
variable {s : State} (hready : AeadReady s) (hsrc : ReadsOkay s s.srcBase (lenBytes s))
  (hdst : WritesOkay s s.dstBase (lenBytes s))
include hready hsrc hdst

/-- The engine step at byte `k`, in the terms of the state in which the command was issued. -/
theorem EncAt.engineStep {k : Nat} {t : State} (h : EncAt s k t) (hk : k < lenBytes s) :
    ∃ u, exec .aeadEnc (clearOutputs t) = .next u ∧
      (∀ x, memRead u.mem x = overlay s.mem s.dstBase.toNat (k + 1) (streamedByte s) x) ∧
      u.hid = { t.hid with k := k + 1, ct := (List.range (k + 1)).map (streamedByte s) } ∧
      u.outLen.toNat = k + 1 ∧
      (k + 1 = lenBytes s → u.tag = packTag (tagOf s ((List.range (k + 1)).map (streamedByte s)))) ∧
      u.status = { t.status with busy := !decide (k + 1 = lenBytes s), done := decide (k + 1 = lenBytes s) } := by
  obtain rfl := h.cursor
  have hs : t.srcBase = s.srcBase := h.operands.srcBase
  have hd : t.dstBase = s.dstBase := h.operands.dstBase
  have hl : t.len = s.len := h.operands.len
  obtain ⟨u, hu, hmem, hhid, hout, htag, hstatus, -⟩ :=
    aeadEncByteStep (clearOutputs t) h.inv.clearOutputs h.busy h.op
      (by rw [h.readErr, clearOutputs_srcBase, hs]; exact hsrc _ hk)
      (by rw [h.writeErr, clearOutputs_dstBase, hd]; exact hdst _ hk)
  have hc : memRead t.mem (s.srcBase.toNat + t.hid.k) ^^^ ksByte s t.hid.k = streamedByte s t.hid.k := by
    rw [h.memory, hready.source_kept hk, streamedByte]
  have hct : t.hid.ct ++ [streamedByte s t.hid.k] = (List.range (t.hid.k + 1)).map (streamedByte s) := by
    rw [h.ct, List.range_succ, List.map_append]
    rfl
  simp only [clearOutputs_hid, clearOutputs_srcBase, clearOutputs_dstBase, clearOutputs_len, clearOutputs_status,
    clearOutputs_mem, clearOutputs_cfg, h.readByte, h.ks, hs, hc, hct, hd, hl, h.tagF] at hmem hhid htag hstatus
  refine ⟨u, hu, fun x => ?_, hhid, hout, fun hlast => ?_, hstatus⟩
  · rw [hmem, overlay_succ, h.memory]
  · exact htag.trans (if_pos (decide_eq_true hlast))

/-- A byte before the last. -/
theorem EncAt.goes_on {k : Nat} {t : State} (h : EncAt s k t) (hk : k + 1 < lenBytes s) :
    ∃ u, step t = .next u ∧ EncAt s (k + 1) u := by
  obtain ⟨u, hu, hmem, hhid, -, -, hstatus⟩ := h.engineStep hready hsrc hdst (by omega)
  have hbusy : u.status.busy = true := by
    rw [hstatus, decide_eq_false (by omega)]
    rfl
  obtain ⟨hstep, hexec⟩ := h.toExecuting.goes_on hu hbusy (by rw [hhid]; exact h.op)
  exact ⟨u, hstep, hexec, by rw [hhid], hmem, by rw [hhid]⟩

/-- The last byte. -/
theorem EncAt.ends {k : Nat} {t : State} (h : EncAt s k t) (hk : k + 1 = lenBytes s) :
    ∃ u, step t = .next u ∧ Ended s u ∧ AeadEnds s u ∧ u.status.ivu = true ∧
      u.tag = packTag (tagOf s ((List.range (lenBytes s)).map (streamedByte s))) := by
  obtain ⟨u, hu, hmem, -, hout, htag, hstatus⟩ := h.engineStep hready hsrc hdst (by omega)
  have htag := htag hk
  rw [decide_eq_true hk] at hstatus
  rw [hk] at hmem hout htag
  obtain ⟨hid, n, hstep, hended⟩ := h.toExecuting.ends hu (by rw [hstatus]; rfl)
  have hdone : u.status.done = true := by rw [hstatus]
  have herr : u.status.err = false := by rw [hstatus]; exact (h.inv.busyFlags h.busy).2
  have hivu : u.status.ivu = true := by rw [hstatus]; exact (h.inv.aeadEncRuns h.busy h.op).ivu
  exact ⟨_, hstep, hended, ⟨hdone, herr, hmem, hout⟩, hivu, htag⟩

end

/-- AEAD_ENC's start step. -/
theorem EncAt.start {s : State} (hi : Inv s) (hb : s.status.busy = false) (hr : s.rstN = true)
    (hin : s.inbox = [cmdWrite 0x00000010]) (hready : AeadReady s) (hivu : s.status.ivu = false) :
    ∃ u, step s = .next u ∧ EncAt s 0 u := by
  obtain ⟨hu, -⟩ := aeadStarts (respond .writeOkay [] s) hb
    ⟨hready.present, hready.len, hready.source, hready.dest, hready.apart⟩
  obtain ⟨hstep, hexec⟩ := Executing.start hi hb hr hin (decode_encode .aeadEnc) (hu hivu) rfl rfl
  exact ⟨_, hstep, hexec, rfl, fun x => (overlay_zero s.mem _ _ x).symm, rfl⟩

/-- Settles O53: the whole run, by induction on the bytes; the ciphertext is both stored and tagged. -/
theorem aeadEncEncrypts : Obligations.AeadEncEncrypts := by
  unfold Obligations.AeadEncEncrypts
  intro s hi hb hr hin hready hivu hsrc hdst n
  obtain ⟨t, hrun, hended, hends, hivu', htag⟩ := run_command (EncAt s) _ (Nat.pos_of_ne_zero hready.len)
    (EncAt.start hi hb hr hin hready hivu) (fun _ _ hk h => h.goes_on hready hsrc hdst hk)
    fun _ _ hk h => h.ends hready hsrc hdst hk
  refine ⟨t, hrun, hended.busy, hends.done, hends.err, ?_, fun x hx => ?_, hends.outLen, hivu', hended.inbox,
    hended.inv⟩
  · rw [hends.memBytes, tagBytes_packTag htag, streamedBytes]
    rfl
  · rw [hends.memory, overlay_outside hx]

/-! ## AEAD_DEC -/

/-- The AEAD_DEC issued in `s` has read `k` bytes in AUTH_PASS. -/
structure AuthAt (s : State) (k : Nat) (t : State) : Prop extends Executing .aeadDec s t where
  cursor : t.hid.k = k
  phase  : t.hid.phase = .authPass
  memory : t.mem = s.mem
  ct     : t.hid.ct = memBytes s.mem s.srcBase.toNat k
  tag    : t.tag = s.tag
  ivu    : t.status.ivu = s.status.ivu

/-- The AEAD_DEC issued in `s` has deciphered `k` bytes in WRITE_PASS. -/
structure WriteAt (s : State) (k : Nat) (t : State) : Prop extends Executing .aeadDec s t where
  cursor : t.hid.k = k
  phase  : t.hid.phase = .writePass
  memory : ∀ x, memRead t.mem x = overlay s.mem s.dstBase.toNat k (streamedByte s) x
  tag    : t.tag = s.tag
  ivu    : t.status.ivu = s.status.ivu

section
variable {s : State} (hsrc : ReadsOkay s s.srcBase (lenBytes s))
include hsrc

/-- The three ends of an AUTH_PASS step, in the terms of the state in which the command was issued. -/
theorem AuthAt.engineStep {k : Nat} {t : State} (h : AuthAt s k t) (hk : k < lenBytes s) :
    (k + 1 < lenBytes s → exec .aeadDec (clearOutputs t) = .next { clearOutputs t with
      hid := { t.hid with k := k + 1, ct := memBytes s.mem s.srcBase.toNat (k + 1) } }) ∧
    (k + 1 = lenBytes s → tagOf s (memBytes s.mem s.srcBase.toNat (k + 1)) = tagBytes s →
      exec .aeadDec (clearOutputs t) = .next { clearOutputs t with
        hid := { t.hid with k := 0, ct := [], phase := .writePass } }) ∧
    (k + 1 = lenBytes s → tagOf s (memBytes s.mem s.srcBase.toNat (k + 1)) ≠ tagBytes s →
      ∃ hid, exec .aeadDec (clearOutputs t) = .next (failedWith .auth 0 hid (clearOutputs t))) := by
  obtain rfl := h.cursor
  have hs : t.srcBase = s.srcBase := h.operands.srcBase
  have hlen : (clearOutputs t).len.toNat = lenBytes s := congrArg BitVec.toNat h.operands.len
  have htag : tagBytes (clearOutputs t) = tagBytes s := by simp only [tagBytes, clearOutputs_tag, h.tag]
  have hct : t.hid.ct ++ [readByte (clearOutputs t) (t.srcBase.toNat + t.hid.k)] =
      memBytes s.mem s.srcBase.toNat (t.hid.k + 1) := by
    rw [h.readByte, hs, h.memory, memBytes_succ, ← h.ct]
  obtain ⟨hmore, hgood, hbad⟩ := aeadDecAuthStep (clearOutputs t) h.inv.clearOutputs h.busy h.op h.phase
    (by rw [h.readErr, clearOutputs_srcBase, hs]; exact hsrc _ hk)
  rw [← htag, ← h.tagF, ← hct, ← hlen]
  exact ⟨hmore, fun hlast ht => hgood hlast (decide_eq_true ht), fun hlast ht => hbad hlast (decide_eq_false ht)⟩

/-- A byte of AUTH_PASS before the last. -/
theorem AuthAt.goes_on {k : Nat} {t : State} (h : AuthAt s k t) (hk : k + 1 < lenBytes s) :
    ∃ u, step t = .next u ∧ AuthAt s (k + 1) u := by
  obtain ⟨hmore, -, -⟩ := h.engineStep hsrc (by omega)
  obtain ⟨hstep, hexec⟩ := h.toExecuting.goes_on (hmore hk) h.busy h.op
  exact ⟨_, hstep, hexec, rfl, h.phase, h.memory, rfl, h.tag, h.ivu⟩

/-- The last byte of AUTH_PASS, the tag being the expected one. -/
theorem AuthAt.verified {k : Nat} {t : State} (h : AuthAt s k t) (hk : k + 1 = lenBytes s)
    (htag : tagOf s (memBytes s.mem s.srcBase.toNat (lenBytes s)) = tagBytes s) :
    ∃ u, step t = .next u ∧ WriteAt s 0 u := by
  obtain ⟨-, hgood, -⟩ := h.engineStep hsrc (by omega)
  obtain ⟨hstep, hexec⟩ := h.toExecuting.goes_on (hgood hk (hk ▸ htag)) h.busy h.op
  exact ⟨_, hstep, hexec, rfl, rfl, fun x => (congrArg (memRead · x) h.memory).trans (overlay_zero s.mem _ _ x).symm,
    h.tag, h.ivu⟩

/-- The last byte of AUTH_PASS, the tag being another. -/
theorem AuthAt.rejected {k : Nat} {t : State} (h : AuthAt s k t) (hk : k + 1 = lenBytes s)
    (htag : tagOf s (memBytes s.mem s.srcBase.toNat (lenBytes s)) ≠ tagBytes s) :
    ∃ u, step t = .next u ∧ u.status.busy = false ∧ u.status.err = true ∧ u.error = .auth ∧ u.outLen = 0 ∧
      u.mem = s.mem := by
  obtain ⟨-, -, hbad⟩ := h.engineStep hsrc (by omega)
  obtain ⟨hid, hu⟩ := hbad hk (hk ▸ htag)
  obtain ⟨_, _, hstep, -⟩ := h.toExecuting.ends hu rfl
  exact ⟨_, hstep, rfl, rfl, rfl, (h.inv.aeadDecRuns h.busy h.op).auth h.phase, h.memory⟩

end

section
variable {s : State} (hready : AeadReady s) (hsrc : ReadsOkay s s.srcBase (lenBytes s))
  (hdst : WritesOkay s s.dstBase (lenBytes s))
include hready hsrc hdst

/-- The engine step at byte `k` of WRITE_PASS, in the terms of the state in which the command was issued. -/
theorem WriteAt.engineStep {k : Nat} {t : State} (h : WriteAt s k t) (hk : k < lenBytes s) :
    ∃ u, exec .aeadDec (clearOutputs t) = .next u ∧
      (∀ x, memRead u.mem x = overlay s.mem s.dstBase.toNat (k + 1) (streamedByte s) x) ∧
      u.hid.k = k + 1 ∧ u.hid.phase = .writePass ∧ u.hid.op = .aeadDec ∧ u.outLen.toNat = k + 1 ∧ u.tag = s.tag ∧
      u.status = { t.status with busy := !decide (k + 1 = lenBytes s), done := decide (k + 1 = lenBytes s) } := by
  obtain rfl := h.cursor
  have hs : t.srcBase = s.srcBase := h.operands.srcBase
  have hd : t.dstBase = s.dstBase := h.operands.dstBase
  have hl : t.len = s.len := h.operands.len
  obtain ⟨-, u, hu, hmem, hhid, hout, hstatus, -⟩ :=
    aeadDecWriteStep (clearOutputs t) h.inv.clearOutputs h.busy h.op h.phase
      (by rw [h.readErr, clearOutputs_srcBase, hs]; exact hsrc _ hk)
      (by rw [h.writeErr, clearOutputs_dstBase, hd]; exact hdst _ hk)
  have hp : memRead t.mem (s.srcBase.toNat + t.hid.k) ^^^ ksByte s t.hid.k = streamedByte s t.hid.k := by
    rw [h.memory, hready.source_kept hk, streamedByte]
  simp only [clearOutputs_hid, clearOutputs_srcBase, clearOutputs_dstBase, clearOutputs_len, clearOutputs_status,
    clearOutputs_mem, clearOutputs_cfg, h.readByte, h.ks, hs, hp, hd, hl] at hmem hhid hstatus
  obtain ⟨htag, -⟩ := exec_aeadDec_tag hu
  refine ⟨u, hu, fun x => ?_, by rw [hhid], by rw [hhid]; exact h.phase, by rw [hhid]; exact h.op, hout,
    htag.trans h.tag, hstatus⟩
  rw [hmem, overlay_succ, h.memory]

/-- A byte of WRITE_PASS before the last. -/
theorem WriteAt.goes_on {k : Nat} {t : State} (h : WriteAt s k t) (hk : k + 1 < lenBytes s) :
    ∃ u, step t = .next u ∧ WriteAt s (k + 1) u := by
  obtain ⟨u, hu, hmem, hcursor, hphase, hop, -, htag, hstatus⟩ := h.engineStep hready hsrc hdst (by omega)
  have hbusy : u.status.busy = true := by
    rw [hstatus, decide_eq_false (by omega)]
    rfl
  obtain ⟨hstep, hexec⟩ := h.toExecuting.goes_on hu hbusy hop
  exact ⟨u, hstep, hexec, hcursor, hphase, hmem, htag, by rw [hstatus]; exact h.ivu⟩

/-- The last byte of WRITE_PASS. -/
theorem WriteAt.ends {k : Nat} {t : State} (h : WriteAt s k t) (hk : k + 1 = lenBytes s) :
    ∃ u, step t = .next u ∧ Ended s u ∧ AeadEnds s u ∧ u.tag = s.tag ∧ u.status.ivu = s.status.ivu := by
  obtain ⟨u, hu, hmem, -, -, -, hout, htag, hstatus⟩ := h.engineStep hready hsrc hdst (by omega)
  rw [decide_eq_true hk] at hstatus
  rw [hk] at hmem hout
  obtain ⟨hid, n, hstep, hended⟩ := h.toExecuting.ends hu (by rw [hstatus]; rfl)
  have hdone : u.status.done = true := by rw [hstatus]
  have herr : u.status.err = false := by rw [hstatus]; exact (h.inv.busyFlags h.busy).2
  have hivu : u.status.ivu = s.status.ivu := by rw [hstatus]; exact h.ivu
  exact ⟨_, hstep, hended, ⟨hdone, herr, hmem, hout⟩, htag, hivu⟩

end

/-- AEAD_DEC's start step. -/
theorem AuthAt.start {s : State} (hi : Inv s) (hb : s.status.busy = false) (hr : s.rstN = true)
    (hin : s.inbox = [cmdWrite 0x00000011]) (hready : AeadReady s) : ∃ u, step s = .next u ∧ AuthAt s 0 u := by
  obtain ⟨-, hu⟩ := aeadStarts (respond .writeOkay [] s) hb
    ⟨hready.present, hready.len, hready.source, hready.dest, hready.apart⟩
  obtain ⟨hstep, hexec⟩ := Executing.start hi hb hr hin (decode_encode .aeadDec) hu rfl rfl
  exact ⟨_, hstep, hexec, rfl, rfl, rfl, rfl, rfl, rfl⟩

/-- The AEAD_DEC issued in `s` has taken `k` engine steps: AUTH_PASS, then WRITE_PASS. -/
def DecAt (s : State) (k : Nat) (t : State) : Prop :=
  (k < lenBytes s ∧ AuthAt s k t) ∨ ∃ j, k = lenBytes s + j ∧ WriteAt s j t

/-- A whole AEAD_DEC whose tag is the expected one, by induction on the bytes of both passes. -/
theorem aeadDec_verified_run {s : State} (hi : Inv s) (hb : s.status.busy = false) (hr : s.rstN = true)
    (hin : s.inbox = [cmdWrite 0x00000011]) (hready : AeadReady s) (hsrc : ReadsOkay s s.srcBase (lenBytes s))
    (hdst : WritesOkay s s.dstBase (lenBytes s))
    (htag : tagOf s (memBytes s.mem s.srcBase.toNat (lenBytes s)) = tagBytes s) :
    ∃ t, StepsTo (1 + 2 * lenBytes s) s t ∧ Ended s t ∧ AeadEnds s t ∧ t.tag = s.tag ∧
      t.status.ivu = s.status.ivu := by
  have hlen := Nat.pos_of_ne_zero hready.len
  refine run_command (DecAt s) _ (by omega) ?_ ?_ ?_
  · obtain ⟨u, hstep, hu⟩ := AuthAt.start hi hb hr hin hready
    exact ⟨u, hstep, .inl ⟨hlen, hu⟩⟩
  · rintro k t hk (⟨hlt, h⟩ | ⟨j, rfl, h⟩)
    · obtain hmore | hlast := Nat.lt_or_ge (k + 1) (lenBytes s)
      · obtain ⟨u, hstep, hu⟩ := h.goes_on hsrc hmore
        exact ⟨u, hstep, .inl ⟨hmore, hu⟩⟩
      · obtain ⟨u, hstep, hu⟩ := h.verified hsrc (by omega) htag
        exact ⟨u, hstep, .inr ⟨0, by omega, hu⟩⟩
    · obtain ⟨u, hstep, hu⟩ := h.goes_on hready hsrc hdst (by omega)
      exact ⟨u, hstep, .inr ⟨j + 1, rfl, hu⟩⟩
  · rintro k t hk (⟨hlt, h⟩ | ⟨j, rfl, h⟩)
    · omega
    · exact h.ends hready hsrc hdst (by omega)

/-- Settles O54: Dec fails exactly where AUTH_PASS finds another tag, and else gives the bytes that WRITE_PASS stores. -/
theorem aeadDecDecrypts : Obligations.AeadDecDecrypts := by
  unfold Obligations.AeadDecDecrypts
  intro s hi hb hr hin hready hsrc hdst n dec
  have hdec : dec = if tagOf s (memBytes s.mem s.srcBase.toNat n) = tagBytes s then
      some (xorKs s.cfg.aeadPrim (keyBytes s) (nonceBytes s) 0 (memBytes s.mem s.srcBase.toNat n)) else none := rfl
  refine ⟨fun hnone => ?_, fun P hsome => ?_⟩
  · have htag : tagOf s (memBytes s.mem s.srcBase.toNat n) ≠ tagBytes s := fun h => by
      rw [hdec, if_pos h] at hnone
      cases hnone
    exact run_command (AuthAt s) _ (Nat.pos_of_ne_zero hready.len) (AuthAt.start hi hb hr hin hready)
      (fun _ _ hk h => h.goes_on hsrc hk) fun _ _ hk h => h.rejected hsrc hk htag
  · rw [hdec] at hsome
    split at hsome
    case isFalse => cases hsome
    case isTrue htag =>
      cases hsome
      obtain ⟨t, hrun, hended, hends, htag', hivu⟩ := aeadDec_verified_run hi hb hr hin hready hsrc hdst htag
      refine ⟨t, hrun, hended.busy, hends.done, hends.err, hends.memBytes, fun x hx => ?_, hends.outLen, htag', hivu⟩
      rw [hends.memory, overlay_outside hx]

end Sys2Proof.Machine
end
